-- ==== Sys2Proof/Word.lean ====
section
/-! DEFINITION. The word types of the RKD engine: bytes, 16-, 32- and 64-bit words, cipher blocks and key words. -/

namespace Sys2Proof

/-- One byte of DMEM or of a byte string (R50). -/
abbrev Byte := BitVec 8

/-- A 16-bit raw integer or half (R56, R162). -/
abbrev Half := BitVec 16

/-- A 32-bit register, command word or bus address (R24, R50, R70). -/
abbrev Word := BitVec 32

/-- A 64-bit descrambler register (R23). -/
abbrev DWord := BitVec 64

/-- A block: a byte string of 16 bytes, indexed 0..15 (R11). -/
abbrev Block := Vector Byte 16

/-- A key word `[w0, w1, w2, w3]` of the key schedule (R105, R107). -/
abbrev KWord := Vector Byte 4

end Sys2Proof
end

