-- ==== Sys2Proof/Machine/Tables.lean ====
section
/-! DEFINITION. GF(2^8) arithmetic (R102) and the DEFAULT substitution box and round constants (R103, R106). The machine
never uses the two default tables directly: it uses the parameters `sbox` and `rcon` of Config, whose values are open. -/

namespace Sys2Proof.Machine

/-- Multiplication by x in GF(2^8) with the polynomial 0x11B (R102): `((b << 1) ^ (0x11B if b[7] = 1 else 0)) mod 256`. -/
def xtime (b : Byte) : Byte :=
  (b <<< 1) ^^^ (if b.getLsbD 7 then 0x1B#8 else 0x00#8)

/-- `xtime` applied `k` times (R102). -/
def xtimePow : Nat → Byte → Byte
  | 0, a => a
  | k + 1, a => xtime (xtimePow k a)

/-- The product in GF(2^8) (R102): the XOR, over the bits k of `b` that are 1, of `xtime^k(a)`. -/
def gmul (a b : Byte) : Byte :=
  (List.range 8).foldl (fun acc k => if b.getLsbD k then acc ^^^ xtimePow k a else acc) 0x00#8

/-- The rows of R103's table: row r holds `SBOX[16r]` .. `SBOX[16r + 15]`, column 0 in the highest byte. -/
def rijndaelSboxRows : List Nat := [
  0x637c777bf26b6fc53001672bfed7ab76, 0xca82c97dfa5947f0add4a2af9ca472c0,
  0xb7fd9326363ff7cc34a5e5f171d83115, 0x04c723c31896059a071280e2eb27b275,
  0x09832c1a1b6e5aa0523bd6b329e32f84, 0x53d100ed20fcb15b6acbbe394a4c58cf,
  0xd0efaafb434d338545f9027f503c9fa8, 0x51a3408f929d38f5bcb6da2110fff3d2,
  0xcd0c13ec5f974417c4a77e3d645d1973, 0x60814fdc222a908846eeb814de5e0bdb,
  0xe0323a0a4906245cc2d3ac629195e479, 0xe7c8376d8dd54ea96c56f4ea657aae08,
  0xba78252e1ca6b4c6e8dd741f4bbd8b8a, 0x703eb5664803f60e613557b986c11d9e,
  0xe1f8981169d98e949b1e87e9ce5528df, 0x8ca1890dbfe6426841992d0fb054bb16]

/-- The default substitution box, the Rijndael S-box (R103): entry `16r + c` is column c of row r. -/
def rijndaelSbox (b : Byte) : Byte :=
  BitVec.ofNat 8 (rijndaelSboxRows.getD (b.toNat / 16) 0 >>> (8 * (15 - b.toNat % 16)))

/-- The default round constants (R106): `RCON(1) = 0x01`, `RCON(j + 1) = xtime(RCON(j))`. Entry 0 is never read. -/
def rijndaelRcon : Nat → Byte
  | 0 => 0x00#8
  | j + 1 => xtimePow j 0x01#8

end Sys2Proof.Machine
end

