-- ==== Sys2Proof/Config.lean ====
section
/-! DEFINITION. What one implementation fixes: the parameters of R5, held by ONE constant without a body, and the free
values of the behaviours the spec leaves unspecified. No proof can see any of these values. -/

namespace Sys2Proof

/-- `FIXED_KEY_BITS` and `FIXED_KEY` together (R5, R41): a key of 16 or of 32 bytes. -/
inductive FixedKey where
  | bits128 (bytes : Vector Byte 16)
  | bits256 (bytes : Vector Byte 32)
  deriving DecidableEq, Repr, Inhabited

/-- `EVOLVE_PHASE` (R5, R132, D20): the bit counter is read before it advances (0) or after (8). -/
inductive EvolvePhase where
  | before
  | after
  deriving DecidableEq, Repr, Inhabited

/-- `NR256` (R5, R101, D15): 14 or 10 rounds for a 256-bit key. -/
inductive Rounds256 where
  | fourteen
  | ten
  deriving DecidableEq, Repr, Inhabited

/-- `NAME_NUL_TEST` (R5, R173, D29): the terminator test reads the demasked or the raw byte. -/
inductive NameNulTest where
  | demasked
  | raw
  deriving DecidableEq, Repr, Inhabited

/-- The parameters of R5. Each field's type holds exactly the values R5 allows. The field defaults are R5's defaults (the
fields without one have none in R5); they serve claims and tests that fix a parameter and say so, not the machine. -/
structure Params where
  /-- `FIXED_KEY_BITS` and `FIXED_KEY` (OPEN). -/
  fixedKey : FixedKey
  /-- `FIXED_IV` (OPEN). -/
  fixedIv : Block
  /-- `EVOLVE_T64` (OPEN; D22). -/
  evolveT64 : DWord
  /-- `EVOLVE_WIDE` (OPEN; D21). -/
  evolveWide : Bool := true
  /-- `EVOLVE_PHASE` (OPEN; D20). -/
  evolvePhase : EvolvePhase := .before
  /-- `SBOX` (D17). -/
  sbox : Byte → Byte := Machine.rijndaelSbox
  /-- `RCON` (D18): only `rcon 1` .. `rcon 10` are ever read (R106, I24). -/
  rcon : Nat → Byte := Machine.rijndaelRcon
  /-- `NR256` (OPEN; D15). -/
  nr256 : Rounds256 := .fourteen
  /-- `DMEM_BYTES` (D44) as the number of 16-byte blocks above 512 bytes: a multiple of 16 in 512 .. 2^24. -/
  dmemExtra : Fin 1048545 := 4064
  /-- `NAME_NUL_TEST` (OPEN; D29). -/
  nameNulTest : NameNulTest := .demasked
  deriving Inhabited

/-- The parameters of the machine: a constant with no body (R5: the model takes them as arguments and no proof may assume
a particular value; log entry 1). -/
opaque Config.params : Params

/-- FREE VALUE (R63, I21): what the n-th unspecified host read returns (log entry 5). -/
opaque Config.freeRead : Nat → Word

/-- FREE VALUE (R201, R258, I22): how many host events the host may still make before the engine completes a command it
accepted at draw n; any finite number, with no bound (log entry 2). -/
opaque Config.freeWait : Nat → Nat

end Sys2Proof
end

