-- ==== Sys2Proof/Machine/Bytes.lean ====
section
/-! DEFINITION. Big-endian conversions between byte strings, words and 4-register groups (R9, R11, R51). -/

namespace Sys2Proof.Machine

/-- `BE(s)`, the big-endian value of a byte string (R9): `sum_k s[k] * 2^(8*(len(s)-1-k))`. -/
def beValue : List Byte → Nat
  | [] => 0
  | b :: rest => b.toNat * 256 ^ rest.length + beValue rest

/-- The `n` bytes of a value, most significant first: the inverse of `beValue` (R51, R56). -/
def beBytes (n v : Nat) : List Byte :=
  (List.range n).map fun k => BitVec.ofNat 8 (v / 256 ^ (n - 1 - k))

/-- Byte `k` (0..3) of a register that holds bytes: `REG[31 - 8k : 24 - 8k]` (R41 to R43). -/
def byteOfWord (w : Word) (k : Nat) : Byte :=
  w.extractLsb' (24 - 8 * k) 8

/-- The register that holds four bytes, the lowest-numbered in bits [31:24] (R51). -/
def wordOfBytes (b0 b1 b2 b3 : Byte) : Word :=
  b0 ++ b1 ++ b2 ++ b3

/-- The 16 bytes of a 4-register group (R11, R42, R43): byte `4i + k` is byte `k` of register `i`. -/
def groupBytes (g : Vector Word 4) : Block :=
  Vector.ofFn fun i => byteOfWord (g[i.val / 4]'(by omega)) (i.val % 4)

/-- The 4-register group that holds a block (R11). -/
def groupOfBytes (b : Block) : Vector Word 4 :=
  Vector.ofFn fun i => wordOfBytes (b[4 * i.val]'(by omega)) (b[4 * i.val + 1]'(by omega))
    (b[4 * i.val + 2]'(by omega)) (b[4 * i.val + 3]'(by omega))

/-- The 16 bytes of a byte string as a block (R11); a string shorter than 16 does not occur. -/
def blockOfList (s : List Byte) : Block :=
  Vector.ofFn fun i => s.getD i.val 0x00#8

/-- Byte `n` of FIXED_KEY, and 0 beyond its end (R24, R47). -/
def fixedKeyByte (k : FixedKey) (n : Nat) : Byte :=
  match k with
  | .bits128 bytes => bytes.toList.getD n 0x00#8
  | .bits256 bytes => bytes.toList.getD n 0x00#8

/-- FIXED_KEY_BITS = 256 (R27). -/
def fixedKeyIs256 (k : FixedKey) : Bool :=
  match k with
  | .bits128 _ => false
  | .bits256 _ => true

/-- The reset value of KEYi: FIXED_KEY bytes 4i .. 4i+3 (R24, R41, R47). -/
def resetKeyWord (k : FixedKey) (i : Nat) : Word :=
  wordOfBytes (fixedKeyByte k (4 * i)) (fixedKeyByte k (4 * i + 1)) (fixedKeyByte k (4 * i + 2))
    (fixedKeyByte k (4 * i + 3))

end Sys2Proof.Machine
end

