-- ==== Sys2Proof/Machine/State.lean ====
section
/-! DEFINITION. The state of the block (R21), what the host can do to it, its bus responses, and its state after reset
(R47). -/

namespace Sys2Proof.Machine

/-- The ways the machine stops. -/
inductive Fault where
  /-- UnwrittenRead (R230), the spec's one model fault: raised by an engine read (R52) and by a host read of DMEM with
  BUSY = 0 (R55) of a byte unwritten since reset. Safe: the hardware returns some byte and goes on, the model stops. -/
  | unwrittenRead
  deriving DecidableEq, Repr

/-- The ways the model declines an instruction. -/
inductive Refusal where
  /-- Raised by an arm of `exec` for a command that has no meaning yet; no arm does. Safe: nothing is claimed of it. -/
  | notModelled (mnemonic : String)
  deriving DecidableEq, Repr

/-- The error codes a command can raise (R221); code 0 is success. -/
inductive ErrCode where
  /-- E_ILLEGAL_OP (1): OP is not in the opcode map. -/
  | illegalOp
  /-- E_RESERVED (2): a defined OP with a nonzero unused field or an out-of-range rotate amount. -/
  | reserved
  /-- E_RANGE (3): a DMEM range leaves 0 .. DMEM_BYTES - 1. -/
  | range
  /-- E_LEN (4): KSTEP with LEN = 0. -/
  | len
  deriving DecidableEq, Repr

/-- The width of a host access (R56, R57). -/
inductive Width where
  | w8
  | w16
  | w32
  deriving DecidableEq, Repr

/-- One thing the host does (R20, R56, R59, R250). -/
inductive HostEvent where
  /-- A bus read of the width at the host address. -/
  | read (w : Width) (a : Word)
  /-- An 8-bit bus write. -/
  | write8 (a : Word) (v : Byte)
  /-- A 16-bit bus write. -/
  | write16 (a : Word) (v : Half)
  /-- A 32-bit bus write. -/
  | write32 (a : Word) (v : Word)
  /-- Reset of the block (R250, R251). -/
  | reset
  deriving DecidableEq, Repr

/-- The bus's answer to one host access (R56, R57, R231). -/
inductive BusResponse where
  /-- A write the bus accepted, whether performed, without effect (R25) or ignored because BUSY = 1 (R63). -/
  | written
  /-- The data of an 8-bit read. -/
  | data8 (v : Byte)
  /-- The data of a 16-bit read. -/
  | data16 (v : Half)
  /-- The data of a 32-bit read. -/
  | data32 (v : Word)
  /-- A bus error (R231). -/
  | busError
  deriving DecidableEq, Repr

/-- CTRL (R27): its two fields; the reserved bits read 0 and are not stored. -/
structure Ctrl where
  /-- KSZ: false is a 128-bit key, true a 256-bit key (R28). -/
  ksz : Bool
  /-- IE: the interrupt enable (R29). -/
  ie : Bool
  deriving DecidableEq, Repr

/-- STATUS (R30): its five fields; the reserved bits read 0 and are not stored. -/
structure Status where
  busy : Bool
  done : Bool
  valid : Bool
  berr : Bool
  err : BitVec 4
  deriving DecidableEq, Repr

/-- DMEM: the written bytes by offset, offsets strictly rising. An unlisted byte is unwritten and has no value (R55). -/
abbrev Memory := List Host.Cell

/-- The state of the block, R21's list, and after it the model's own fields: the host events still to come, the last bus
response, the host events still allowed before the engine's step, and the counter of the free values. -/
structure State where
  ctrl : Ctrl
  status : Status
  cmd : Word
  addr : Word
  len : Word
  dst : Word
  key : Vector Word 8
  iv : Vector Word 4
  prev : Vector Word 4
  d : Vector DWord 8
  mem : Memory
  host : List HostEvent
  resp : Option BusResponse
  wait : Nat
  draws : Nat
  deriving DecidableEq, Repr

/-- The three outcomes of a step of this machine. -/
abbrev Result := Host.Outcome State Fault Refusal

/-- The state after reset under given parameters (R47, R250). The model's own fields are empty and 0 (log entries 2 to 5). -/
def State.resetOf (p : Params) : State where
  ctrl := { ksz := fixedKeyIs256 p.fixedKey, ie := false }
  status := { busy := false, done := false, valid := false, berr := false, err := 0#4 }
  cmd := 0#32
  addr := 0#32
  len := 0#32
  dst := 0#32
  key := Vector.ofFn fun i => resetKeyWord p.fixedKey i.val
  iv := groupOfBytes p.fixedIv
  prev := Vector.replicate 4 0#32
  d := Vector.replicate 8 0#64
  mem := []
  host := []
  resp := none
  wait := 0
  draws := 0

/-- The state after reset (R47, R250). -/
def State.reset : State := State.resetOf Config.params

end Sys2Proof.Machine
end

