-- ==== Sys2Proof/Machine/Flags.lean ====
section
/-! DEFINITION. STATUS and its flags: the register image (R30), the error codes (R221), the completion protocol's update
(R201), the issue's update (R200), the write-1-to-clear rule (R36), the sticky BERR (R34), the sentinel (R172), and IRQ
(R225). -/

namespace Sys2Proof.Machine

/-- The 4-bit code of an error (R221). -/
def ErrCode.code : ErrCode → BitVec 4
  | .illegalOp => 1#4
  | .reserved => 2#4
  | .range => 3#4
  | .len => 4#4

/-- The STATUS word (R30): BUSY [0], DONE [1], VALID [2], BERR [3], ERR [11:8], every other bit 0. -/
def Status.word (st : Status) : Word :=
  0#20 ++ st.err ++ 0#4 ++ BitVec.ofBool st.berr ++ BitVec.ofBool st.valid ++ BitVec.ofBool st.done ++
    BitVec.ofBool st.busy

/-- The CTRL word (R27): KSZ [0], IE [1], every other bit 0. -/
def Ctrl.word (c : Ctrl) : Word :=
  0#30 ++ BitVec.ofBool c.ie ++ BitVec.ofBool c.ksz

/-- CTRL after a host write of `v` (R27): the reserved bits are ignored. -/
def ctrlOfWord (v : Word) : Ctrl :=
  { ksz := v.getLsbD 0, ie := v.getLsbD 1 }

/-- STATUS after a command's completion with an error code, 0 for success (R201): BUSY <- 0, DONE <- 1, ERR <- code. -/
def Status.completed (st : Status) (code : BitVec 4) : Status :=
  { st with busy := false, done := true, err := code }

/-- STATUS after an accepted CMD write (R200): BUSY <- 1, DONE <- 0, ERR <- 0. -/
def Status.issued (st : Status) : Status :=
  { st with busy := true, done := false, err := 0#4 }

/-- STATUS after a host write of `v` to it (R36): bit 1 clears DONE, bit 3 clears BERR, the other bits are ignored. -/
def Status.acknowledged (st : Status) (v : Word) : Status :=
  { st with done := st.done && !v.getLsbD 1, berr := st.berr && !v.getLsbD 3 }

/-- STATUS after a host write that was ignored because BUSY = 1 (R34, R63). -/
def Status.misused (st : Status) : Status :=
  { st with berr := true }

/-- The interrupt output (R29, R225): `IRQ = IE & (DONE | BERR)`. -/
def State.irq (s : State) : Bool :=
  s.ctrl.ie && (s.status.done || s.status.berr)

end Sys2Proof.Machine
end

