-- ==== Sys2Proof/Machine/Operands.lean ====
section
/-! DEFINITION. The operand forms of the descrambler commands: fields of a D register, zero extension (R8, R161), the
rotations of R7, and the sentinel and terminator computations (R172, R173). -/

namespace Sys2Proof.Machine

/-- `x[15:0]` of a D register. -/
def low16 (x : DWord) : Half := x.extractLsb' 0 16

/-- `x[31:16]` of a D register. -/
def high16 (x : DWord) : Half := x.extractLsb' 16 16

/-- `x[31:0]` of a D register. -/
def low32 (x : DWord) : Word := x.extractLsb' 0 32

/-- `x[63:32]` of a D register. -/
def high32 (x : DWord) : Word := x.extractLsb' 32 32

/-- `x[7:0]` of a D register. -/
def low8 (x : DWord) : Byte := x.extractLsb' 0 8

/-- `zext_64` (R8, R161). -/
def zext64 (x : BitVec w) : DWord := x.setWidth 64

/-- `rotl_W(x, r) = ((x << r) | (x >> (W - r))) mod 2^W` (R7). -/
def rotl (x : BitVec w) (r : Nat) : BitVec w := (x <<< r) ||| (x >>> (w - r))

/-- `rotr_W(x, r) = ((x >> r) | (x << (W - r))) mod 2^W` (R7). -/
def rotr (x : BitVec w) (r : Nat) : BitVec w := (x >>> r) ||| (x <<< (w - r))

/-- `c3` of the sentinel (R172): `c1 = rotr_32(a ^ K1, 3)`, `c2 = (c1 << 16) ^ K2` on naturals, `c3 = (c1 ^ c2) & 0xFFFFFFFF`. -/
def sentinel (a k1 k2 : Word) : Word :=
  let c1 := rotr (a ^^^ k1) 3
  let c2 := (zext64 c1 <<< 16) ^^^ zext64 k2
  low32 (zext64 c1 ^^^ c2)

/-- The terminator test of DMASK (R173, D29) on a raw byte and its demasked value. -/
def isTerminator (t : NameNulTest) (raw v : Byte) : Bool :=
  match t with
  | .demasked => v == 0x00#8
  | .raw => raw == 0x00#8

end Sys2Proof.Machine
end

