-- ==== Sys2Proof/Syntax.lean ====
section
/-! DEFINITION. The commands of the RKD engine: one constructor per row of the opcode map (R73). -/

namespace Sys2Proof

/-- The number of a D register, D0 .. D7 (R23, R72). -/
abbrev DReg := Fin 8

/-- The immediate field IMM6: an unsigned rotation or shift distance (R70, R72). -/
abbrev Imm6 := BitVec 6

/-- The commands of R73. Operand order is the assembler's (R80): RD, RS1, RS2, RS3, IMM6 of the fields the command uses. -/
inductive Instr where
  /-- NOP (R202). -/
  | nop
  /-- ENCB: encrypt one block (R121). -/
  | encb
  /-- KSTEP: one chain step (R138). -/
  | kstep
  /-- CHAIN: whole-buffer keystream decryption (R139). -/
  | chain
  /-- DLD16 dR (R162). -/
  | dld16 (rd : DReg)
  /-- DLD32 dR (R163). -/
  | dld32 (rd : DReg)
  /-- DXOR dR, dA, dB (R164). -/
  | dxor (rd rs1 rs2 : DReg)
  /-- DCAT16 dR, dA, dB (R165). -/
  | dcat16 (rd rs1 rs2 : DReg)
  /-- DCAT32 dR, dA, dB (R166). -/
  | dcat32 (rd rs1 rs2 : DReg)
  /-- DFOLD16 dR, dA (R167). -/
  | dfold16 (rd rs1 : DReg)
  /-- DROTL32 dR, dA, #r (R168). -/
  | drotl32 (rd rs1 : DReg) (imm : Imm6)
  /-- DROTR32 dR, dA, #r (R169). -/
  | drotr32 (rd rs1 : DReg) (imm : Imm6)
  /-- DROTL64 dR, dA, #r (R170). -/
  | drotl64 (rd rs1 : DReg) (imm : Imm6)
  /-- DROTR64 dR, dA, #r (R171). -/
  | drotr64 (rd rs1 : DReg) (imm : Imm6)
  /-- SENT dR, dA, dB, dK (R172). -/
  | sent (rd rs1 rs2 rs3 : DReg)
  /-- DMASK dR, dM (R173). -/
  | dmask (rd rs1 : DReg)
  /-- DAND dR, dA, dB (R180). -/
  | dand (rd rs1 rs2 : DReg)
  /-- DOR dR, dA, dB (R181). -/
  | dor (rd rs1 rs2 : DReg)
  /-- DSHL64 dR, dA, #s (R182). -/
  | dshl64 (rd rs1 : DReg) (imm : Imm6)
  /-- DSHR64 dR, dA, #s (R183). -/
  | dshr64 (rd rs1 : DReg) (imm : Imm6)
  /-- DROTL16 dR, dA, #r (R184). -/
  | drotl16 (rd rs1 : DReg) (imm : Imm6)
  /-- DROTR16 dR, dA, #r (R185). -/
  | drotr16 (rd rs1 : DReg) (imm : Imm6)
  deriving DecidableEq, Repr

end Sys2Proof
end

