-- ==== Sys2Proof/WellFormed.lean ====
section
/-! DEFINITION. Which commands the encoding admits: a 32-bit rotation below 32 and a 16-bit rotation below 16 (R72, R77).
Register numbers and the 6-bit width of IMM6 hold by type. -/

namespace Sys2Proof

/-- The rotation distance of a W-bit rotate is below W (R77). -/
def Imm6.below (imm : Imm6) (width : Nat) : Bool :=
  decide (imm.toNat < width)

/-- The checks of R72 and R77, constructor by constructor. -/
def Instr.wellFormed : Instr → Bool
  | .nop => true
  | .encb => true
  | .kstep => true
  | .chain => true
  | .dld16 _ => true
  | .dld32 _ => true
  | .dxor _ _ _ => true
  | .dcat16 _ _ _ => true
  | .dcat32 _ _ _ => true
  | .dfold16 _ _ => true
  | .drotl32 _ _ imm => Imm6.below imm 32
  | .drotr32 _ _ imm => Imm6.below imm 32
  | .drotl64 _ _ _ => true
  | .drotr64 _ _ _ => true
  | .sent _ _ _ _ => true
  | .dmask _ _ => true
  | .dand _ _ _ => true
  | .dor _ _ _ => true
  | .dshl64 _ _ _ => true
  | .dshr64 _ _ _ => true
  | .drotl16 _ _ imm => Imm6.below imm 16
  | .drotr16 _ _ imm => Imm6.below imm 16

end Sys2Proof
end

