-- ==== Sys2Proof/Machine/Ops.lean ====
section
/-! DEFINITION. The named operations every command and host access is written with: DMEM reads and writes (R52 to R56),
register accessors, the checks of a command's pseudocode, and the ONE way a command ends, completion or raised error
(R201, R222). -/

namespace Sys2Proof.Machine

/-! ### DMEM -/

/-- The byte at an offset, none where it is unwritten (R55). -/
def Memory.read : Memory → Nat → Option Byte
  | [], _ => none
  | (a, b) :: rest, o => if a = o then some b else Memory.read rest o

/-- `DMEM[o] <- v`, marking the byte written (R53). -/
def Memory.write : Memory → Nat → Byte → Memory
  | [], o, v => [(o, v)]
  | (a, b) :: rest, o, v =>
    if o < a then (o, v) :: (a, b) :: rest
    else if o = a then (o, v) :: rest
    else (a, b) :: Memory.write rest o v

/-- The canonical form of DMEM: offsets strictly rising. -/
def Memory.wf : Memory → Bool
  | [] => true
  | [_] => true
  | (a, _) :: (b, v) :: rest => decide (a < b) && Memory.wf ((b, v) :: rest)

/-- The bytes at a list of offsets, in order; none where one of them is unwritten (R52, R55). -/
def Memory.gather (m : Memory) : List Nat → Option (List Byte)
  | [] => some []
  | o :: rest =>
    match m.read o, m.gather rest with
    | some b, some bs => some (b :: bs)
    | _, _ => none

/-- Writes the k-th byte at the k-th offset, for as many as both lists have (R53). -/
def Memory.scatter (m : Memory) : List Nat → List Byte → Memory
  | [], _ => m
  | _ :: _, [] => m
  | o :: offsets, b :: bytes => Memory.scatter (m.write o b) offsets bytes

/-- The byte string `DMEM[a] . ... . DMEM[a+n-1]` (R52). -/
def Memory.readBytes (m : Memory) (a n : Nat) : Option (List Byte) :=
  m.gather (List.range' a n)

/-- `DMEM[a + k] <- s[k]` for every byte of `s` (R53). -/
def Memory.writeBytes (m : Memory) (a : Nat) (s : List Byte) : Memory :=
  m.scatter (List.range' a s.length) s

/-- `DMEM_BYTES` (R5, R50, D44): a multiple of 16 from 512 to 2^24. -/
def dmemBytes (p : Params) : Nat :=
  16 * p.dmemExtra.val + 512

/-- `InRange(a, n)` (R54), on unbounded naturals. -/
def inRange (p : Params) (a n : Nat) : Bool :=
  decide (a + n ≤ dmemBytes p)

/-! ### How a command's pseudocode ends early -/

/-- Why a command's pseudocode ends before its last line: a raised error (R222) or a model fault (R230). -/
inductive Stop where
  | error (c : ErrCode)
  | fault (f : Fault)
  deriving DecidableEq, Repr

/-- `require cond else raise Error(c)`. -/
def require (cond : Bool) (c : ErrCode) : Except Stop Unit :=
  if cond then .ok () else .error (.error c)

/-- The value read, or the model fault UnwrittenRead where a byte is unwritten (R52, R55). -/
def written (v : Option α) : Except Stop α :=
  match v with
  | some x => .ok x
  | none => .error (.fault .unwrittenRead)

/-- `MemRead(a, n)` (R52): E_RANGE outside DMEM, UnwrittenRead on an unwritten byte. -/
def memRead (p : Params) (m : Memory) (a n : Nat) : Except Stop (List Byte) := do
  require (inRange p a n) .range
  written (m.readBytes a n)

/-! ### Registers -/

/-- `D[r]` (R9, R23). -/
def State.readD (s : State) (r : DReg) : DWord := s.d[r]

/-- `D[r] <- v` (R9, R23): all 64 bits (R161). -/
def State.writeD (s : State) (r : DReg) (v : DWord) : State :=
  { s with d := s.d.set r.val v }

/-- DMEM replaced. -/
def State.setMem (s : State) (m : Memory) : State := { s with mem := m }

/-- `PREVB <- b` (R43). -/
def State.setPrev (s : State) (b : Block) : State := { s with prev := groupOfBytes b }

/-- `ADDR <- ADDR + n`, the cursor's advance (R38). -/
def State.advance (s : State) (n : Nat) : State := { s with addr := s.addr + BitVec.ofNat 32 n }

/-- `LEN <- LEN - n` (R39). -/
def State.consumeLen (s : State) (n : Nat) : State := { s with len := s.len - BitVec.ofNat 32 n }

/-- `STATUS.VALID <- v` (R33). -/
def State.setValid (s : State) (v : Bool) : State := { s with status := { s.status with valid := v } }

/-- `PREVB` (R43). -/
def State.prevBytes (s : State) : Block := groupBytes s.prev

/-- `IVB` (R42). -/
def State.ivBytes (s : State) : Block := groupBytes s.iv

/-- `KEYB[n]` (R41): byte `n mod 4` of KEY register `n / 4`. -/
def State.keyByte (s : State) (n : Fin 32) : Byte :=
  byteOfWord (s.key[n.val / 4]'(by omega)) (n.val % 4)

/-- `ActiveKey` (R41): KEYB[0..15] when KSZ = 0, KEYB[0..31] when KSZ = 1. -/
def State.activeKey (s : State) : List Byte :=
  (List.ofFn s.keyByte).take (if s.ctrl.ksz then 32 else 16)

/-! ### Completion and errors -/

/-- The state at a command's completion with a code (R201): STATUS only. -/
def State.finish (s : State) (code : BitVec 4) : State :=
  { s with status := s.status.completed code }

/-- `raise Error(c)` (R222), the block's one way to report an error: the state before the command, and the completion
protocol with ERR = the code. There is no trap, nothing is saved and there is nothing to return from (R220, R226, R227). -/
def raise (c : ErrCode) (s : State) : Result :=
  .next (s.finish c.code)

/-- The end of the engine's step (R201): success commits the command's state with ERR = 0, an error changes nothing else,
a model fault stops the machine. -/
def complete (s : State) (r : Except Stop State) : Result :=
  match r with
  | .ok s' => .next (s'.finish 0#4)
  | .error (.error c) => raise c s
  | .error (.fault f) => .fault f

end Sys2Proof.Machine
end

