-- ==== Sys2Proof/Machine/Bus.lean ====
section
/-! DEFINITION. The host's side of the block: the register map (R24 to R44), the host address map (R58, R60), widths and
alignment (R25, R57), accesses while BUSY = 1 (R63), command issue (R200), and reset (R250, R251). -/

namespace Sys2Proof.Machine

/-- `ID_VALUE` (R5, R26). -/
def idValue : Word := 0x524B4431#32

/-- The base of the DMEM window in host addresses (R50, R60). -/
def dmemBase : Nat := 0x01000000

/-- The register at an offset (R24). -/
inductive HostReg where
  | id
  | ctrl
  | status
  | cmd
  | addr
  | len
  | dst
  | key (i : Fin 8)
  | iv (i : Fin 4)
  | prev (i : Fin 4)
  | dLo (i : Fin 8)
  | dHi (i : Fin 8)
  | reserved
  deriving DecidableEq, Repr

/-- The register map of R24, by the 32-bit word index `offset / 4`. -/
def regAt (index : Nat) : HostReg :=
  if index = 0 then .id
  else if index = 1 then .ctrl
  else if index = 2 then .status
  else if index = 3 then .cmd
  else if index = 4 then .addr
  else if index = 5 then .len
  else if index = 6 then .dst
  else if 8 ≤ index ∧ index < 16 then .key (Fin.ofNat 8 (index - 8))
  else if 16 ≤ index ∧ index < 20 then .iv (Fin.ofNat 4 (index - 16))
  else if 20 ≤ index ∧ index < 24 then .prev (Fin.ofNat 4 (index - 20))
  else if 32 ≤ index ∧ index < 48 then
    if index % 2 = 0 then .dLo (Fin.ofNat 8 ((index - 32) / 2)) else .dHi (Fin.ofNat 8 ((index - 32) / 2))
  else .reserved

/-- What a host access reaches (R60). -/
inductive Target where
  | reg (r : HostReg)
  | dmem (offset : Nat)
  | busError
  deriving DecidableEq, Repr

/-- The bytes of an access (R56). -/
def Width.bytes : Width → Nat
  | .w8 => 1
  | .w16 => 2
  | .w32 => 4

/-- The target of an access at a host address (R25, R57, R58, R60, R231). -/
def target (p : Params) (w : Width) (a : Nat) : Target :=
  if a < 0x100 then
    if w.bytes = 4 ∧ a % 4 = 0 then .reg (regAt (a / 4)) else .busError
  else if dmemBase ≤ a ∧ a % w.bytes = 0 then
    if inRange p (a - dmemBase) w.bytes then .dmem (a - dmemBase) else .busError
  else .busError

/-! ### Registers -/

/-- The value of a register (R24 to R44); a reserved offset reads 0 (R25). -/
def State.readReg (s : State) : HostReg → Word
  | .id => idValue
  | .ctrl => s.ctrl.word
  | .status => s.status.word
  | .cmd => s.cmd
  | .addr => s.addr
  | .len => s.len
  | .dst => s.dst
  | .key i => s.key[i]
  | .iv i => s.iv[i]
  | .prev i => s.prev[i]
  | .dLo i => low32 s.d[i]
  | .dHi i => high32 s.d[i]
  | .reserved => 0#32

/-- The registers whose read is exact while BUSY = 1 (R63); a reserved offset still reads 0 (log entry 7). -/
def HostReg.exactWhileBusy : HostReg → Bool
  | .id => true
  | .ctrl => true
  | .status => true
  | .cmd => true
  | .reserved => true
  | _ => false

/-- Command issue (R200): `CMD <- w; BUSY <- 1; DONE <- 0; ERR <- 0`. How long the command stays pending is a free value
(log entry 2). -/
def State.issue (s : State) (w : Word) : State :=
  { s with cmd := w, status := s.status.issued, wait := Config.freeWait s.draws, draws := s.draws + 1 }

/-- A write to a read-write register with BUSY = 0, to STATUS, or to a register that ignores writes (R25 to R44). -/
def State.writeReg (s : State) (r : HostReg) (v : Word) : State :=
  match r with
  | .id => s
  | .ctrl => { s with ctrl := ctrlOfWord v }
  | .status => { s with status := s.status.acknowledged v }
  | .cmd => s.issue v
  | .addr => { s with addr := v }
  | .len => { s with len := v }
  | .dst => { s with dst := v }
  | .key i => { s with key := s.key.set i.val v }
  | .iv i => { s with iv := s.iv.set i.val v }
  | .prev i => { s with prev := s.prev.set i.val v }
  | .dLo i => s.writeD i (high32 s.d[i] ++ v)
  | .dHi i => s.writeD i (v ++ low32 s.d[i])
  | .reserved => s

/-- The registers a host write to which is ignored and sets BERR while BUSY = 1 (R34, C11). -/
def HostReg.guarded : HostReg → Bool
  | .id => false
  | .status => false
  | .reserved => false
  | _ => true

/-- A write ignored because BUSY = 1 (R63): only BERR is set. -/
def State.ignoreWrite (s : State) : State :=
  { s with status := s.status.misused }

/-! ### Accesses -/

/-- The bus answers an access. -/
def State.respond (s : State) (r : BusResponse) : State :=
  { s with resp := some r }

/-- The response that carries a value read, cut to the access's width. -/
def Width.data (w : Width) (v : Nat) : BusResponse :=
  match w with
  | .w8 => .data8 (BitVec.ofNat 8 v)
  | .w16 => .data16 (BitVec.ofNat 16 v)
  | .w32 => .data32 (BitVec.ofNat 32 v)

/-- A read that returns an unspecified value (R63, I21): the next free value. -/
def unspecifiedRead (w : Width) (s : State) : Result :=
  .next ({ s with draws := s.draws + 1 }.respond (w.data (Config.freeRead s.draws).toNat))

/-- A host read (R56, R59, R63): free of side effects. -/
def busRead (w : Width) (a : Nat) (s : State) : Result :=
  match target Config.params w a with
  | .busError => .next (s.respond .busError)
  | .reg r =>
    if s.status.busy && !r.exactWhileBusy then unspecifiedRead w s
    else .next (s.respond (w.data (s.readReg r).toNat))
  | .dmem o =>
    if s.status.busy then unspecifiedRead w s
    else
      match s.mem.readBytes o w.bytes with
      | some bytes => .next (s.respond (w.data (beValue bytes)))
      | none => .fault .unwrittenRead

/-- A host write of the value `v` (R56, R59, R63). -/
def busWrite (w : Width) (a v : Nat) (s : State) : Result :=
  match target Config.params w a with
  | .busError => .next (s.respond .busError)
  | .reg r =>
    if s.status.busy && r.guarded then .next (s.ignoreWrite.respond .written)
    else .next ((s.writeReg r (BitVec.ofNat 32 v)).respond .written)
  | .dmem o =>
    if s.status.busy then .next (s.ignoreWrite.respond .written)
    else .next ((s.setMem (s.mem.writeBytes o (beBytes w.bytes v))).respond .written)

/-- Reset (R250 to R252): every piece of the block's state has its reset value and a pending command is abandoned. The host
events still to come and the counter of the free values are not the block's and stay (log entry 8). -/
def resetBlock (s : State) : State :=
  { State.reset with host := s.host, draws := s.draws }

/-- One host event. -/
def hostEvent (e : HostEvent) (s : State) : Result :=
  match e with
  | .read w a => busRead w a.toNat s
  | .write8 a v => busWrite .w8 a.toNat v.toNat s
  | .write16 a v => busWrite .w16 a.toNat v.toNat s
  | .write32 a v => busWrite .w32 a.toNat v.toNat s
  | .reset => .next (resetBlock s)

/-- The host's turn (R62, R201): its next event, in program order; with no event left nothing happens (log entry 9). -/
def hostTurn (s : State) : Result :=
  match s.host with
  | [] => .next s
  | e :: rest => hostEvent e { s with host := rest, wait := s.wait - 1 }

/-- The state in which the command word `w` has been accepted and the engine's step comes next (R200, R201). -/
def State.pending (s : State) (w : Word) : State :=
  { s with cmd := w, status := s.status.issued, wait := 0 }

end Sys2Proof.Machine
end

