-- ==== Sys2Proof/Decode.lean ====
section
/-! DEFINITION. The command encoding: format F1 and its fields (R70, R71), the opcode map (R73), the decoder, total on
every 32-bit word (R79), and the encoder written from the same format. -/

namespace Sys2Proof

/-- OP = w[7:0] (R71). -/
def opField (w : Word) : BitVec 8 := w.extractLsb' 0 8

/-- RD = w[10:8] (R71). -/
def rdField (w : Word) : DReg := (w.extractLsb' 8 3).toFin

/-- RS1 = w[13:11] (R71). -/
def rs1Field (w : Word) : DReg := (w.extractLsb' 11 3).toFin

/-- RS2 = w[16:14] (R71). -/
def rs2Field (w : Word) : DReg := (w.extractLsb' 14 3).toFin

/-- RS3 = w[19:17] (R71). -/
def rs3Field (w : Word) : DReg := (w.extractLsb' 17 3).toFin

/-- IMM6 = w[25:20] (R71). -/
def imm6Field (w : Word) : Imm6 := w.extractLsb' 20 6

/-- RSV = w[31:26] (R71). -/
def rsvField (w : Word) : BitVec 6 := w.extractLsb' 26 6

/-- One row of the opcode map (R73): the opcode, the bits the row fixes and their value, and the command its fields make. -/
structure OpcodeRow where
  op : BitVec 8
  mask : Word
  pattern : Word
  build : Word → Instr

/-- Control, cipher and keystream rows of R73. -/
def engineRows : List OpcodeRow := [
  ⟨0x00#8, 0xFFFFFFFF#32, 0x00000000#32, fun _ => .nop⟩,
  ⟨0x10#8, 0xFFFFFFFF#32, 0x00000010#32, fun _ => .encb⟩,
  ⟨0x11#8, 0xFFFFFFFF#32, 0x00000011#32, fun _ => .kstep⟩,
  ⟨0x12#8, 0xFFFFFFFF#32, 0x00000012#32, fun _ => .chain⟩]

/-- Descrambler rows 0x20 .. 0x2B of R73. -/
def descramblerRows : List OpcodeRow := [
  ⟨0x20#8, 0xFFFFF8FF#32, 0x00000020#32, fun w => .dld16 (rdField w)⟩,
  ⟨0x21#8, 0xFFFFF8FF#32, 0x00000021#32, fun w => .dld32 (rdField w)⟩,
  ⟨0x22#8, 0xFFFE00FF#32, 0x00000022#32, fun w => .dxor (rdField w) (rs1Field w) (rs2Field w)⟩,
  ⟨0x23#8, 0xFFFE00FF#32, 0x00000023#32, fun w => .dcat16 (rdField w) (rs1Field w) (rs2Field w)⟩,
  ⟨0x24#8, 0xFFFE00FF#32, 0x00000024#32, fun w => .dcat32 (rdField w) (rs1Field w) (rs2Field w)⟩,
  ⟨0x25#8, 0xFFFFC0FF#32, 0x00000025#32, fun w => .dfold16 (rdField w) (rs1Field w)⟩,
  ⟨0x26#8, 0xFE0FC0FF#32, 0x00000026#32, fun w => .drotl32 (rdField w) (rs1Field w) (imm6Field w)⟩,
  ⟨0x27#8, 0xFE0FC0FF#32, 0x00000027#32, fun w => .drotr32 (rdField w) (rs1Field w) (imm6Field w)⟩,
  ⟨0x28#8, 0xFC0FC0FF#32, 0x00000028#32, fun w => .drotl64 (rdField w) (rs1Field w) (imm6Field w)⟩,
  ⟨0x29#8, 0xFC0FC0FF#32, 0x00000029#32, fun w => .drotr64 (rdField w) (rs1Field w) (imm6Field w)⟩,
  ⟨0x2A#8, 0xFFF000FF#32, 0x0000002A#32, fun w => .sent (rdField w) (rs1Field w) (rs2Field w) (rs3Field w)⟩,
  ⟨0x2B#8, 0xFFFFC0FF#32, 0x0000002B#32, fun w => .dmask (rdField w) (rs1Field w)⟩]

/-- Descrambler rows 0x2C .. 0x31 of R73. -/
def operatorRows : List OpcodeRow := [
  ⟨0x2C#8, 0xFFFE00FF#32, 0x0000002C#32, fun w => .dand (rdField w) (rs1Field w) (rs2Field w)⟩,
  ⟨0x2D#8, 0xFFFE00FF#32, 0x0000002D#32, fun w => .dor (rdField w) (rs1Field w) (rs2Field w)⟩,
  ⟨0x2E#8, 0xFC0FC0FF#32, 0x0000002E#32, fun w => .dshl64 (rdField w) (rs1Field w) (imm6Field w)⟩,
  ⟨0x2F#8, 0xFC0FC0FF#32, 0x0000002F#32, fun w => .dshr64 (rdField w) (rs1Field w) (imm6Field w)⟩,
  ⟨0x30#8, 0xFF0FC0FF#32, 0x00000030#32, fun w => .drotl16 (rdField w) (rs1Field w) (imm6Field w)⟩,
  ⟨0x31#8, 0xFF0FC0FF#32, 0x00000031#32, fun w => .drotr16 (rdField w) (rs1Field w) (imm6Field w)⟩]

/-- The opcode map (R73). -/
def opcodeMap : List OpcodeRow :=
  engineRows ++ descramblerRows ++ operatorRows

/-- What a word decodes to (R79): no row has its opcode, its row's fixed bits differ, or it is a command. -/
inductive Decoded where
  | illegal
  | reserved
  | cmd (i : Instr)
  deriving DecidableEq, Repr

/-- The decode function of R79: the row is chosen by OP, then every bit the row fixes is compared (R74 to R77). -/
def decode (w : Word) : Decoded :=
  match opcodeMap.find? (fun r => r.op == opField w) with
  | none => .illegal
  | some r => if w &&& r.mask = r.pattern then .cmd (r.build w) else .reserved

/-- The instruction the decoder reads from a table row's word: every bit above `nbits` is 0, and a command is one 32-bit
word (R70). A word that decodes to no command gives none. -/
def decodeTableWord (nbits w : Nat) : Option Instr :=
  match decode (BitVec.ofNat 32 (w % 2 ^ nbits)) with
  | .illegal => none
  | .reserved => none
  | .cmd i => some i

/-- A word of format F1 from its seven fields, RSV in the highest bits (R70). -/
def assembleF1 (op : BitVec 8) (rd rs1 rs2 rs3 : DReg) (imm : Imm6) (rsv : BitVec 6) : Word :=
  rsv ++ imm ++ BitVec.ofFin (w := 3) rs3 ++ BitVec.ofFin (w := 3) rs2 ++ BitVec.ofFin (w := 3) rs1 ++
    BitVec.ofFin (w := 3) rd ++ op

/-- The word of a command: R73's opcode, the used fields, and 0 in every field the command does not use (R74, R75). -/
def encode : Instr → Word
  | .nop => assembleF1 0x00#8 0 0 0 0 0 0
  | .encb => assembleF1 0x10#8 0 0 0 0 0 0
  | .kstep => assembleF1 0x11#8 0 0 0 0 0 0
  | .chain => assembleF1 0x12#8 0 0 0 0 0 0
  | .dld16 rd => assembleF1 0x20#8 rd 0 0 0 0 0
  | .dld32 rd => assembleF1 0x21#8 rd 0 0 0 0 0
  | .dxor rd rs1 rs2 => assembleF1 0x22#8 rd rs1 rs2 0 0 0
  | .dcat16 rd rs1 rs2 => assembleF1 0x23#8 rd rs1 rs2 0 0 0
  | .dcat32 rd rs1 rs2 => assembleF1 0x24#8 rd rs1 rs2 0 0 0
  | .dfold16 rd rs1 => assembleF1 0x25#8 rd rs1 0 0 0 0
  | .drotl32 rd rs1 imm => assembleF1 0x26#8 rd rs1 0 0 imm 0
  | .drotr32 rd rs1 imm => assembleF1 0x27#8 rd rs1 0 0 imm 0
  | .drotl64 rd rs1 imm => assembleF1 0x28#8 rd rs1 0 0 imm 0
  | .drotr64 rd rs1 imm => assembleF1 0x29#8 rd rs1 0 0 imm 0
  | .sent rd rs1 rs2 rs3 => assembleF1 0x2A#8 rd rs1 rs2 rs3 0 0
  | .dmask rd rs1 => assembleF1 0x2B#8 rd rs1 0 0 0 0
  | .dand rd rs1 rs2 => assembleF1 0x2C#8 rd rs1 rs2 0 0 0
  | .dor rd rs1 rs2 => assembleF1 0x2D#8 rd rs1 rs2 0 0 0
  | .dshl64 rd rs1 imm => assembleF1 0x2E#8 rd rs1 0 0 imm 0
  | .dshr64 rd rs1 imm => assembleF1 0x2F#8 rd rs1 0 0 imm 0
  | .drotl16 rd rs1 imm => assembleF1 0x30#8 rd rs1 0 0 imm 0
  | .drotr16 rd rs1 imm => assembleF1 0x31#8 rd rs1 0 0 imm 0

end Sys2Proof
end

