-- ==== Sys2Proof/Machine/Control.lean ====
section
/-! DEFINITION. The control command: NOP (R202). -/

namespace Sys2Proof.Machine

/-- NOP (R202): the completion protocol only. -/
def execNop (s : State) : Result :=
  complete s (.ok s)

end Sys2Proof.Machine
end

