-- ==== Sys2Proof/Machine/Descrambler.lean ====
section
/-! DEFINITION. The descrambler commands (R160 to R185). Sources are read before the destination is written (R161). -/

namespace Sys2Proof.Machine

/-! ### Loads at the stream cursor -/

/-- The pseudocode of DLD16 and DLD32 (R162, R163) for a big-endian integer of `n` bytes. -/
def loadStream (p : Params) (n : Nat) (rd : DReg) (s : State) : Except Stop State := do
  require (inRange p s.addr.toNat n) .range
  let bytes ← memRead p s.mem s.addr.toNat n
  pure ((s.writeD rd (BitVec.ofNat 64 (beValue bytes))).advance n)

/-- DLD16 (R162). -/
def execDld16 (rd : DReg) (s : State) : Result :=
  complete s (loadStream Config.params 2 rd s)

/-- DLD32 (R163). -/
def execDld32 (rd : DReg) (s : State) : Result :=
  complete s (loadStream Config.params 4 rd s)

/-! ### Operators on D registers -/

/-- DXOR (R164). -/
def execDxor (rd rs1 rs2 : DReg) (s : State) : Result :=
  complete s (.ok (s.writeD rd (s.readD rs1 ^^^ s.readD rs2)))

/-- DAND (R180). -/
def execDand (rd rs1 rs2 : DReg) (s : State) : Result :=
  complete s (.ok (s.writeD rd (s.readD rs1 &&& s.readD rs2)))

/-- DOR (R181). -/
def execDor (rd rs1 rs2 : DReg) (s : State) : Result :=
  complete s (.ok (s.writeD rd (s.readD rs1 ||| s.readD rs2)))

/-- DCAT16 (R165): RS1's low half above RS2's. -/
def execDcat16 (rd rs1 rs2 : DReg) (s : State) : Result :=
  complete s (.ok (s.writeD rd (zext64 (low16 (s.readD rs1) ++ low16 (s.readD rs2)))))

/-- DCAT32 (R166): RS1's low word above RS2's. -/
def execDcat32 (rd rs1 rs2 : DReg) (s : State) : Result :=
  complete s (.ok (s.writeD rd (low32 (s.readD rs1) ++ low32 (s.readD rs2))))

/-- DFOLD16 (R167). -/
def execDfold16 (rd rs1 : DReg) (s : State) : Result :=
  complete s (.ok (s.writeD rd (zext64 (high16 (s.readD rs1) ^^^ low16 (s.readD rs1)))))

/-! ### Rotations and shifts -/

/-- A rotation of `width` bits by IMM6: an amount at or past the width is reserved (R77). -/
def rotateInto (width : Nat) (rd : DReg) (imm : Imm6) (v : DWord) (s : State) : Except Stop State := do
  require (Imm6.below imm width) .reserved
  pure (s.writeD rd v)

/-- DROTL32 (R168). -/
def execDrotl32 (rd rs1 : DReg) (imm : Imm6) (s : State) : Result :=
  complete s (rotateInto 32 rd imm (zext64 (rotl (low32 (s.readD rs1)) imm.toNat)) s)

/-- DROTR32 (R169). -/
def execDrotr32 (rd rs1 : DReg) (imm : Imm6) (s : State) : Result :=
  complete s (rotateInto 32 rd imm (zext64 (rotr (low32 (s.readD rs1)) imm.toNat)) s)

/-- DROTL16 (R184). -/
def execDrotl16 (rd rs1 : DReg) (imm : Imm6) (s : State) : Result :=
  complete s (rotateInto 16 rd imm (zext64 (rotl (low16 (s.readD rs1)) imm.toNat)) s)

/-- DROTR16 (R185). -/
def execDrotr16 (rd rs1 : DReg) (imm : Imm6) (s : State) : Result :=
  complete s (rotateInto 16 rd imm (zext64 (rotr (low16 (s.readD rs1)) imm.toNat)) s)

/-- DROTL64 (R170). -/
def execDrotl64 (rd rs1 : DReg) (imm : Imm6) (s : State) : Result :=
  complete s (.ok (s.writeD rd (rotl (s.readD rs1) imm.toNat)))

/-- DROTR64 (R171). -/
def execDrotr64 (rd rs1 : DReg) (imm : Imm6) (s : State) : Result :=
  complete s (.ok (s.writeD rd (rotr (s.readD rs1) imm.toNat)))

/-- DSHL64 (R182). -/
def execDshl64 (rd rs1 : DReg) (imm : Imm6) (s : State) : Result :=
  complete s (.ok (s.writeD rd (s.readD rs1 <<< imm.toNat)))

/-- DSHR64 (R183). -/
def execDshr64 (rd rs1 : DReg) (imm : Imm6) (s : State) : Result :=
  complete s (.ok (s.writeD rd (s.readD rs1 >>> imm.toNat)))

/-! ### Sentinel -/

/-- SENT (R172): RS3 holds K1 in [31:0] and K2 in [63:32]; VALID <- (b == c3). -/
def execSent (rd rs1 rs2 rs3 : DReg) (s : State) : Result :=
  let c3 := sentinel (low32 (s.readD rs1)) (low32 (s.readD rs3)) (high32 (s.readD rs3))
  complete s (.ok ((s.writeD rd (zext64 c3)).setValid (low32 (s.readD rs2) == c3)))

/-! ### Name demask -/

/-- `NAME_CAP` (R5, R173). -/
def nameCap : Nat := 64

/-- The loop of DMASK (R173) with `left` of the 64 bytes still allowed: the demasked name from `offset` on and the bytes
consumed, the terminator included. -/
def scanName (p : Params) (m : Memory) (mask : Byte) : (left offset : Nat) → Except Stop (List Byte × Nat)
  | 0, _ => pure ([], 0)
  | left + 1, offset => do
    require (inRange p offset 1) .range
    let raw ← written (m.read offset)
    if isTerminator p.nameNulTest raw (raw ^^^ mask) then
      pure ([], 1)
    else do
      let rest ← scanName p m mask left (offset + 1)
      pure ((raw ^^^ mask) :: rest.1, rest.2 + 1)

/-- The packed result of DMASK (R173): consumed in [63:32], the name's length in [31:0]. -/
def nameResult (consumed len : Nat) : DWord :=
  BitVec.ofNat 32 consumed ++ BitVec.ofNat 32 len

/-- The pseudocode of DMASK (R173). -/
def demaskName (p : Params) (rd rs1 : DReg) (s : State) : Except Stop State := do
  let scan ← scanName p s.mem (low8 (s.readD rs1)) nameCap s.addr.toNat
  require (inRange p s.dst.toNat scan.1.length) .range
  pure (((s.setMem (s.mem.writeBytes s.dst.toNat scan.1)).writeD rd (nameResult scan.2 scan.1.length)).advance scan.2)

/-- DMASK (R173). -/
def execDmask (rd rs1 : DReg) (s : State) : Result :=
  complete s (demaskName Config.params rd rs1 s)

end Sys2Proof.Machine
end

