-- ==== Sys2Proof/Machine/Cipher.lean ====
section
/-! DEFINITION. The Rijndael encryption datapath (R100 to R120) and the command ENCB (R121). The functions take the
parameters explicitly; the command uses the machine's own, `Config.params`. -/

namespace Sys2Proof.Machine

/-! ### Key schedule -/

/-- The key word of four zero bytes. -/
def zeroKWord : KWord := Vector.replicate 4 0x00#8

/-- Bytewise XOR of two key words (R107). -/
def xorKWord (a b : KWord) : KWord := Vector.ofFn fun r => a[r] ^^^ b[r]

/-- `SubWord` (R104). -/
def subWord (p : Params) (w : KWord) : KWord := Vector.ofFn fun r => p.sbox w[r]

/-- `RotWord([w0, w1, w2, w3]) = [w1, w2, w3, w0]` (R105). -/
def rotWord (w : KWord) : KWord := #v[w[1], w[2], w[3], w[0]]

/-- `t` of R107 for key word `i`, from the word before it. -/
def scheduleTemp (p : Params) (nk i : Nat) (before : KWord) : KWord :=
  if i % nk = 0 then xorKWord (subWord p (rotWord before)) #v[p.rcon (i / nk), 0x00#8, 0x00#8, 0x00#8]
  else if nk = 8 ∧ i % 8 = 4 then subWord p before
  else before

/-- The next key word, from the words so far, the newest first (R107): `w[i] = w[i - Nk] ^ t`. -/
def nextKeyWord (p : Params) (nk : Nat) (newestFirst : List KWord) : KWord :=
  xorKWord (newestFirst.getD (nk - 1) zeroKWord)
    (scheduleTemp p nk newestFirst.length (newestFirst.headD zeroKWord))

/-- Adds `n` words to a schedule held newest first (R107). -/
def extendSchedule (p : Params) (nk : Nat) : Nat → List KWord → List KWord
  | 0, newestFirst => newestFirst
  | n + 1, newestFirst => extendSchedule p nk n (nextKeyWord p nk newestFirst :: newestFirst)

/-- The first `Nk` key words (R107): word `i` holds key bytes 4i .. 4i+3. -/
def initialKeyWords (key : List Byte) (nk : Nat) : List KWord :=
  (List.range nk).map fun i => Vector.ofFn fun k => key.getD (4 * i + k.val) 0x00#8

/-- `KeyExpansion(key, Nr)` (R107): the words `w[0 .. 4*(Nr+1) - 1]` in order. -/
def keyExpansion (p : Params) (key : List Byte) (nr : Nat) : List KWord :=
  let nk := key.length / 4
  (extendSchedule p nk (4 * (nr + 1) - nk) (initialKeyWords key nk).reverse).reverse

/-! ### Rounds. State byte `s[r][c]` is byte `r + 4c` of the block (R108). -/

/-- `AddRoundKey(s, rnd)` (R109). -/
def addRoundKey (w : List KWord) (rnd : Nat) (s : Block) : Block :=
  Vector.ofFn fun i => s[i] ^^^ (w.getD (4 * rnd + i.val / 4) zeroKWord)[i.val % 4]'(by omega)

/-- `SubBytes(s)` (R104). -/
def subBytes (p : Params) (s : Block) : Block :=
  Vector.ofFn fun i => p.sbox s[i]

/-- `ShiftRows(s)` (R110): `s'[r][c] = s[r][(c + r) mod 4]`. -/
def shiftRows (s : Block) : Block :=
  Vector.ofFn fun i => s[i.val % 4 + 4 * ((i.val / 4 + i.val % 4) % 4)]'(by omega)

/-- `MixColumns(s)` (R111): in a column `a_0..a_3`, row r becomes
`gmul(a_r, 2) ^ gmul(a_{r+1}, 3) ^ a_{r+2} ^ a_{r+3}`, rows counted modulo 4. -/
def mixColumns (s : Block) : Block :=
  Vector.ofFn fun i =>
    gmul (s[4 * (i.val / 4) + i.val % 4]'(by omega)) 2 ^^^
      gmul (s[4 * (i.val / 4) + (i.val + 1) % 4]'(by omega)) 3 ^^^
      s[4 * (i.val / 4) + (i.val + 2) % 4]'(by omega) ^^^
      s[4 * (i.val / 4) + (i.val + 3) % 4]'(by omega)

/-- Rounds `rnd` .. : `full` full rounds, then the final round (R100, R120). -/
def cipherRounds (p : Params) (w : List KWord) : (full rnd : Nat) → Block → Block
  | 0, rnd, s => addRoundKey w rnd (shiftRows (subBytes p s))
  | full + 1, rnd, s =>
    cipherRounds p w full (rnd + 1) (addRoundKey w rnd (mixColumns (shiftRows (subBytes p s))))

/-- `NR256` as a number (R5, R101). -/
def rounds256 (p : Params) : Nat :=
  match p.nr256 with
  | .fourteen => 14
  | .ten => 10

/-- `Nr` for a key (R101, R120): 10 for 16 bytes, `NR256` for 32. -/
def roundCount (p : Params) (key : List Byte) : Nat :=
  if key.length / 4 = 4 then 10 else rounds256 p

/-- `Enc(blk, key)` (R120). -/
def enc (p : Params) (key : List Byte) (blk : Block) : Block :=
  let nr := roundCount p key
  let w := keyExpansion p key nr
  cipherRounds p w (nr - 1) 1 (addRoundKey w 0 blk)

/-! ### ENCB -/

/-- The pseudocode of ENCB (R121). -/
def encb (p : Params) (s : State) : Except Stop State := do
  require (inRange p s.addr.toNat 16) .range
  require (inRange p s.dst.toNat 16) .range
  let src ← memRead p s.mem s.addr.toNat 16
  pure (s.setMem (s.mem.writeBytes s.dst.toNat (enc p s.activeKey (blockOfList src)).toList))

/-- ENCB (R121). -/
def execEncb (s : State) : Result :=
  complete s (encb Config.params s)

end Sys2Proof.Machine
end

