-- ==== Sys2Proof/Machine/Keystream.lean ====
section
/-! DEFINITION. The keystream chain decryptor: the IV-evolution function (R131, R132), the whole-buffer chain (R134), the
sampling geometry of large buffers (R136, R137), and the commands KSTEP (R138) and CHAIN (R139). -/

namespace Sys2Proof.Machine

/-- `SMALL_LIMIT` (R5, R139): buffers up to this length take the whole-buffer policy. -/
def smallLimit : Nat := 256

/-- `SAMPLE_BYTES` (R5, R137): the size of the sample buffer. -/
def sampleBytes : Nat := 256

/-- `EVOLVE_PHASE` as a number of bits (R5, R132). -/
def phaseBits : EvolvePhase → Nat
  | .before => 0
  | .after => 8

/-- `v` of R131 at position `pos`: `ks[p] ^ t ^ (31 * p)` on naturals, cut to a byte only when EVOLVE_WIDE is false. -/
def evolveValue (p : Params) (pos : Nat) (k : Byte) : Nat :=
  let sh := (8 * pos + phaseBits p.evolvePhase) % 64
  let t := (p.evolveT64.toNat >>> sh) &&& 0xFF
  let v := k.toNat ^^^ t ^^^ (31 * pos)
  if p.evolveWide then v else v &&& 0xFF

/-- The bit transform of R131: `((v >> 5) | (8 * v)) & 0xFF`. -/
def evolveBits (v : Nat) : Byte :=
  BitVec.ofNat 8 (((v >>> 5) ||| (8 * v)) &&& 0xFF)

/-- `Evolve(ks)` (R131). -/
def evolve (p : Params) (ks : Block) : Block :=
  Vector.ofFn fun i => p.sbox (evolveBits (evolveValue p i.val ks[i]))

/-- `bytes ^ ks`, truncated to the length of the chunk (R134, R138). -/
def xorKeystream (chunk : List Byte) (ks : Block) : List Byte :=
  List.zipWith (fun c k => c ^^^ k) chunk ks.toList

/-- `ChainSmall` (R134) over a number of chunks: the buffer's bytes and the chain value after them. -/
def chainChunks (p : Params) (key : List Byte) : Nat → List Byte → Block → List Byte × Block
  | 0, _, prev => ([], prev)
  | n + 1, buf, prev =>
    let ks := enc p key prev
    let rest := chainChunks p key n (buf.drop 16) (evolve p ks)
    (xorKeystream (buf.take 16) ks ++ rest.1, rest.2)

/-- `ChainSmall(buf, seed)` (R134): `ceil(L/16)` chunks, the last one possibly short. -/
def chainSmall (p : Params) (key : List Byte) (buf : List Byte) (seed : Block) : List Byte × Block :=
  chainChunks p key ((buf.length + 15) / 16) buf seed

/-- `n` of R136: the number of whole 16-byte blocks. -/
def sampleBlocks (L : Nat) : Nat := L / 16

/-- `nc` of R136. -/
def sampleCount (L : Nat) : Nat := min (sampleBlocks L) 256

/-- `step` of R136. -/
def sampleStep (L : Nat) : Nat := max 1 (256 / sampleBlocks L)

/-- `Pos` of R136: `16*i + j`, i outer, j inner. -/
def samplePositions (L : Nat) : List Nat :=
  (List.range (sampleCount L)).flatMap fun i => (List.range (sampleStep L)).map fun j => 16 * i + j

/-- `sample[0..255]` of R137: the gathered bytes, and 0 in the slots after them (D24). -/
def sampleBuffer (gathered : List Byte) : List Byte :=
  gathered ++ List.replicate (sampleBytes - gathered.length) 0x00#8

/-- The pseudocode of KSTEP (R138). -/
def kstep (p : Params) (s : State) : Except Stop State := do
  require (s.len.toNat != 0) .len
  let m := min 16 s.len.toNat
  require (inRange p s.addr.toNat m) .range
  let c ← memRead p s.mem s.addr.toNat m
  let ks := enc p s.activeKey s.prevBytes
  pure ((((s.setMem (s.mem.writeBytes s.addr.toNat (xorKeystream c ks))).setPrev (evolve p ks)).advance m).consumeLen m)

/-- KSTEP (R138). -/
def execKstep (s : State) : Result :=
  complete s (kstep Config.params s)

/-- CHAIN on a small buffer (R139): the chain over the whole buffer, seeded with IVB. -/
def chainWhole (p : Params) (s : State) : Except Stop State := do
  let buf ← memRead p s.mem s.addr.toNat s.len.toNat
  let out := chainSmall p s.activeKey buf s.ivBytes
  pure ((s.setMem (s.mem.writeBytes s.addr.toNat out.1)).setPrev out.2)

/-- CHAIN on a large buffer (R137, R139): only the sampled bytes are read and written. -/
def chainSampled (p : Params) (s : State) : Except Stop State := do
  let offsets := (samplePositions s.len.toNat).map (s.addr.toNat + ·)
  let gathered ← written (s.mem.gather offsets)
  let out := chainSmall p s.activeKey (sampleBuffer gathered) s.ivBytes
  pure ((s.setMem (s.mem.scatter offsets out.1)).setPrev out.2)

/-- The pseudocode of CHAIN (R139): the whole buffer is range-checked on both paths. -/
def chain (p : Params) (s : State) : Except Stop State := do
  require (inRange p s.addr.toNat s.len.toNat) .range
  if s.len.toNat ≤ smallLimit then chainWhole p s else chainSampled p s

/-- CHAIN (R139). -/
def execChain (s : State) : Result :=
  complete s (chain Config.params s)

end Sys2Proof.Machine
end

