-- ==== Sys2Proof/Machine/Dispatch.lean ====
section
/-! DEFINITION. The meaning of every command, one arm per constructor. -/

namespace Sys2Proof.Machine

/-- What a command does, its completion included (R201). -/
def exec (i : Instr) (s : State) : Host.Outcome State Fault Refusal :=
  match i with
  | .nop => Sys2Proof.Machine.execNop s
  | .encb => Sys2Proof.Machine.execEncb s
  | .kstep => Sys2Proof.Machine.execKstep s
  | .chain => Sys2Proof.Machine.execChain s
  | .dld16 rd => Sys2Proof.Machine.execDld16 rd s
  | .dld32 rd => Sys2Proof.Machine.execDld32 rd s
  | .dxor rd rs1 rs2 => Sys2Proof.Machine.execDxor rd rs1 rs2 s
  | .dcat16 rd rs1 rs2 => Sys2Proof.Machine.execDcat16 rd rs1 rs2 s
  | .dcat32 rd rs1 rs2 => Sys2Proof.Machine.execDcat32 rd rs1 rs2 s
  | .dfold16 rd rs1 => Sys2Proof.Machine.execDfold16 rd rs1 s
  | .drotl32 rd rs1 imm => Sys2Proof.Machine.execDrotl32 rd rs1 imm s
  | .drotr32 rd rs1 imm => Sys2Proof.Machine.execDrotr32 rd rs1 imm s
  | .drotl64 rd rs1 imm => Sys2Proof.Machine.execDrotl64 rd rs1 imm s
  | .drotr64 rd rs1 imm => Sys2Proof.Machine.execDrotr64 rd rs1 imm s
  | .sent rd rs1 rs2 rs3 => Sys2Proof.Machine.execSent rd rs1 rs2 rs3 s
  | .dmask rd rs1 => Sys2Proof.Machine.execDmask rd rs1 s
  | .dand rd rs1 rs2 => Sys2Proof.Machine.execDand rd rs1 rs2 s
  | .dor rd rs1 rs2 => Sys2Proof.Machine.execDor rd rs1 rs2 s
  | .dshl64 rd rs1 imm => Sys2Proof.Machine.execDshl64 rd rs1 imm s
  | .dshr64 rd rs1 imm => Sys2Proof.Machine.execDshr64 rd rs1 imm s
  | .drotl16 rd rs1 imm => Sys2Proof.Machine.execDrotl16 rd rs1 imm s
  | .drotr16 rd rs1 imm => Sys2Proof.Machine.execDrotr16 rd rs1 imm s

end Sys2Proof.Machine
end

