-- ==== Sys2Proof/Machine/Engine.lean ====
section
/-! DEFINITION. The engine's step (R201): the pending command, decoded and executed as one atomic step. -/

namespace Sys2Proof.Machine

/-- A command word executed (R79, R201, R223): an illegal opcode and a reserved word raise their error, a command has its
meaning. -/
def execute (d : Decoded) (s : State) : Result :=
  match d with
  | .illegal => raise .illegalOp s
  | .reserved => raise .reserved s
  | .cmd i => exec i s

/-- `EngineStep` of R201 on the pending command, which is CMD (R45). -/
def engineStep (s : State) : Result :=
  execute (decode s.cmd) s

/-- The engine, not the host, takes the next step: a command is pending, and the host has used up the events it makes
before the completion or has none left (R201; log entry 2). -/
def engineTurn (s : State) : Bool :=
  s.status.busy && (s.wait == 0 || s.host.isEmpty)

end Sys2Proof.Machine
end

