-- ==== Sys2Proof/Machine/Step.lean ====
section
/-! DEFINITION. One step of the block: the engine's or the host's (R20, R62, R201). -/

namespace Sys2Proof.Machine

/-- One step: the pending command where it is the engine's turn, else the host's next event. -/
def step (s : State) : Host.Outcome State Fault Refusal :=
  if engineTurn s then engineStep s else hostTurn s

/-- The state whose next step runs the command of a table row's word: the word stands where an accepted CMD write puts it
(R37, R200). There is no fetch (R65); log entry 10. -/
def State.withFetchWord (s : State) (nbits w : Nat) : State :=
  s.pending (BitVec.ofNat 32 (w % 2 ^ nbits))

end Sys2Proof.Machine
end

