-- ==== Sys2Proof/Machine/Assembler.lean ====
section
/-! DEFINITION. The assembler's side of the spec: the syntax of a command (R80) and the pseudo-instructions (R81). -/

namespace Sys2Proof.Machine

/-- A D register as written in a command: `d0` .. `d7` (R80). -/
def asmReg (r : DReg) : String := "d" ++ toString r.val

/-- Register operands separated by commas (R80). -/
def asmRegs : List DReg → String
  | [] => ""
  | [r] => asmReg r
  | r :: rest => asmReg r ++ ", " ++ asmRegs rest

/-- A mnemonic with register operands (R80). -/
def asmOp (mnemonic : String) (regs : List DReg) : String := mnemonic ++ " " ++ asmRegs regs

/-- A mnemonic with register operands and a rotation or shift amount `#n` in decimal (R80). -/
def asmImm (mnemonic : String) (regs : List DReg) (imm : Imm6) : String :=
  asmOp mnemonic regs ++ ", #" ++ toString imm.toNat

/-- A command in assembler syntax (R80): operands in the order RD, RS1, RS2, RS3, IMM6 of the used fields. -/
def asm : Instr → String
  | .nop => "NOP"
  | .encb => "ENCB"
  | .kstep => "KSTEP"
  | .chain => "CHAIN"
  | .dld16 rd => asmOp "DLD16" [rd]
  | .dld32 rd => asmOp "DLD32" [rd]
  | .dxor rd rs1 rs2 => asmOp "DXOR" [rd, rs1, rs2]
  | .dcat16 rd rs1 rs2 => asmOp "DCAT16" [rd, rs1, rs2]
  | .dcat32 rd rs1 rs2 => asmOp "DCAT32" [rd, rs1, rs2]
  | .dfold16 rd rs1 => asmOp "DFOLD16" [rd, rs1]
  | .drotl32 rd rs1 imm => asmImm "DROTL32" [rd, rs1] imm
  | .drotr32 rd rs1 imm => asmImm "DROTR32" [rd, rs1] imm
  | .drotl64 rd rs1 imm => asmImm "DROTL64" [rd, rs1] imm
  | .drotr64 rd rs1 imm => asmImm "DROTR64" [rd, rs1] imm
  | .sent rd rs1 rs2 rs3 => asmOp "SENT" [rd, rs1, rs2, rs3]
  | .dmask rd rs1 => asmOp "DMASK" [rd, rs1]
  | .dand rd rs1 rs2 => asmOp "DAND" [rd, rs1, rs2]
  | .dor rd rs1 rs2 => asmOp "DOR" [rd, rs1, rs2]
  | .dshl64 rd rs1 imm => asmImm "DSHL64" [rd, rs1] imm
  | .dshr64 rd rs1 imm => asmImm "DSHR64" [rd, rs1] imm
  | .drotl16 rd rs1 imm => asmImm "DROTL16" [rd, rs1] imm
  | .drotr16 rd rs1 imm => asmImm "DROTR16" [rd, rs1] imm

/-- `DMOV dR, dA` expands to `DROTL64 dR, dA, #0` (R81). -/
def dmov (rd rs1 : DReg) : Instr := .drotl64 rd rs1 0#6

/-- `DCLR dR` expands to `DXOR dR, dR, dR` (R81). -/
def dclr (rd : DReg) : Instr := .dxor rd rd rd

/-- `DZEXT32 dR, dA` expands to `DROTL32 dR, dA, #0` (R81). -/
def dzext32 (rd rs1 : DReg) : Instr := .drotl32 rd rs1 0#6

/-- `DSWAP32 dR, dA` expands to `DROTL64 dR, dA, #32` (R81). -/
def dswap32 (rd rs1 : DReg) : Instr := .drotl64 rd rs1 32#6

end Sys2Proof.Machine
end

