-- ==== Sys2Proof/Safety.lean ====
section
/-! DEFINITION. What claims about the block are stated with: the invariant of its state, safe runs, and the parts of the
state a command leaves alone. -/

namespace Sys2Proof.Machine

/-- Every written byte of DMEM lies inside it (R50, R54). -/
def Memory.within (m : Memory) (size : Nat) : Prop :=
  ∀ o b, m.read o = some b → o < size

/-- The invariant of the block's state: DMEM in its canonical form and inside DMEM_BYTES, only the error codes 0..4 (R221,
I25), and while a command is pending DONE = 0 and ERR = 0 (R31, R32, R35). -/
structure State.Inv (s : State) : Prop where
  canonical : s.mem.wf = true
  inside : s.mem.within (dmemBytes Config.params)
  errCode : s.status.err.toNat ≤ 4
  pendingDone : s.status.busy = true → s.status.done = false
  pendingErr : s.status.busy = true → s.status.err = 0#4

/-- A safe run (R230): `n` steps reach no model fault. -/
def SafeRun (n : Nat) (s : State) : Prop :=
  ∀ f, Host.Core.run Sys2Proof.core n s ≠ .fault f

/-- What no command writes: CTRL, CMD, DST, KEY, IV (R37, R40 to R42) and the model's own fields. -/
structure SameFixed (s t : State) : Prop where
  ctrl : t.ctrl = s.ctrl
  cmd : t.cmd = s.cmd
  dst : t.dst = s.dst
  key : t.key = s.key
  iv : t.iv = s.iv
  host : t.host = s.host
  resp : t.resp = s.resp
  wait : t.wait = s.wait
  draws : t.draws = s.draws

/-- STATUS at a completion with a code (R201): BUSY = 0, DONE = 1, ERR = the code, BERR as before. -/
structure Completed (code : Nat) (s t : State) : Prop where
  busy : t.status.busy = false
  done : t.status.done = true
  berr : t.status.berr = s.status.berr
  err : t.status.err = BitVec.ofNat 4 code

/-- No byte of DMEM differs. -/
def SameMem (s t : State) : Prop :=
  ∀ o, t.mem.read o = s.mem.read o

/-- No D register differs but one. -/
def SameDExcept (rd : DReg) (s t : State) : Prop :=
  ∀ r, r ≠ rd → t.readD r = s.readD r

/-- The frame of a register-only descrambler command (R161): D[rd] and the completion protocol's flags apart, the state is
as before. -/
structure OnlyD (rd : DReg) (s t : State) : Prop where
  fixed : SameFixed s t
  completed : Completed 0 s t
  valid : t.status.valid = s.status.valid
  addr : t.addr = s.addr
  len : t.len = s.len
  prev : t.prev = s.prev
  d : SameDExcept rd s t
  mem : SameMem s t

/-- The registers and DMEM of the block, STATUS apart, are as before. -/
structure SameBlock (s t : State) : Prop where
  ctrl : t.ctrl = s.ctrl
  cmd : t.cmd = s.cmd
  addr : t.addr = s.addr
  len : t.len = s.len
  dst : t.dst = s.dst
  key : t.key = s.key
  iv : t.iv = s.iv
  prev : t.prev = s.prev
  d : t.d = s.d
  mem : SameMem s t

/-- A command ended with an error code and no other effect (R222). -/
structure OnlyError (code : Nat) (s t : State) : Prop where
  fixed : SameFixed s t
  completed : Completed code s t
  valid : t.status.valid = s.status.valid
  addr : t.addr = s.addr
  len : t.len = s.len
  prev : t.prev = s.prev
  d : t.d = s.d
  mem : SameMem s t

end Sys2Proof.Machine
end

