-- ==== Sys2Proof/Certificates/Slice0/Obligations.lean ====
section
/-! DEFINITION. The statements for the provers, and the few notions they are said with, each written from the spec's own
words and not from the machine's definitions. -/

open Sys2Proof Sys2Proof.Machine

/-! ### Notions of the statements -/

namespace Sys2Proof.Claims

/-- The defined opcodes, as R79 lists them. -/
def definedOp (op : Nat) : Prop := op = 0x00 ∨ (0x10 ≤ op ∧ op ≤ 0x12) ∨ (0x20 ≤ op ∧ op ≤ 0x31)

/-- The opcodes of the three-register commands and SENT, which use RS2 (R73). -/
def usesRs2 (op : Nat) : Prop := op = 0x22 ∨ op = 0x23 ∨ op = 0x24 ∨ op = 0x2A ∨ op = 0x2C ∨ op = 0x2D

/-- One above the largest IMM6 a defined opcode admits (R72, R73, R77): 64, 32 or 16 for a rotate or shift, and 1, the
value 0 only, for a command that does not use IMM6. -/
def immLimit (op : Nat) : Nat :=
  if op = 0x28 ∨ op = 0x29 ∨ op = 0x2E ∨ op = 0x2F then 64
  else if op = 0x26 ∨ op = 0x27 then 32
  else if op = 0x30 ∨ op = 0x31 then 16
  else 1

/-- Every field the word's command does not use is 0, RSV too, and its rotation distance is in range (R73 to R77). -/
def fieldsAllowed (w : Word) : Prop :=
  rsvField w = 0 ∧
  ((opField w).toNat < 0x20 → rdField w = 0) ∧
  ((opField w).toNat < 0x22 → rs1Field w = 0) ∧
  (¬ usesRs2 (opField w).toNat → rs2Field w = 0) ∧
  ((opField w).toNat ≠ 0x2A → rs3Field w = 0) ∧
  (imm6Field w).toNat < immLimit (opField w).toNat

/-- `rotl_W(x, r)` as R7 writes it, on naturals. -/
def rotlNat (W x r : Nat) : Nat := ((x <<< r) ||| (x >>> (W - r))) % 2 ^ W

/-- `rotr_W(x, r)` as R7 writes it, on naturals. -/
def rotrNat (W x r : Nat) : Nat := ((x >>> r) ||| (x <<< (W - r))) % 2 ^ W

/-- `xtime` of R102 on naturals: `((b << 1) ^ (0x11B if b[7] = 1 else 0)) mod 256`. -/
def xtimeNat (b : Nat) : Nat := ((b <<< 1) ^^^ (if b.testBit 7 then 0x11B else 0)) % 256

/-- `gmul` of R102 on naturals: the XOR over the bits k of `b` that are 1 of `xtime^k(a)`. -/
def gmulNat (a b : Nat) : Nat :=
  ((List.range 8).filter b.testBit).foldl (fun sum k => sum ^^^ xtimeNat^[k] a) 0

/-- `prev_k` of R140: `prev_0` is the seed, `prev_{k+1} = Evolve(Enc(prev_k, key))`. -/
def chainValue (p : Params) (key : List Byte) (seed : Block) : Nat → Block
  | 0 => seed
  | k + 1 => evolve p (enc p key (chainValue p key seed k))

/-- `KS[q]` of R140: byte `q mod 16` of keystream block `q / 16`. -/
def keystream (p : Params) (key : List Byte) (seed : Block) (q : Nat) : Byte :=
  (enc p key (chainValue p key seed (q / 16)))[q % 16]'(by omega)

/-- `c3` of R172 on naturals below 2^32. -/
def sentinelNat (a k1 k2 : Nat) : Nat :=
  let c1 := rotrNat 32 (a ^^^ k1) 3
  let c2 := (c1 <<< 16) ^^^ k2
  (c1 ^^^ c2) &&& 0xFFFFFFFF

/-- The terminator test of R173 on a raw byte under a mask. -/
def terminates (p : Params) (mask raw : Byte) : Prop :=
  match p.nameNulTest with
  | .demasked => raw ^^^ mask = 0
  | .raw => raw = 0

/-- The host's own next event is taken now: no command is pending, or the host still has accesses before its completion (the
model's schedule, log entry 2). -/
def hostMoves (s : State) (e : HostEvent) (rest : List HostEvent) : Prop :=
  s.host = e :: rest ∧ (s.status.busy = false ∨ s.wait ≠ 0)

/-- Offsets of the read-write registers other than CTRL, STATUS and CMD (R24). -/
def plainOffset (a : Nat) : Prop :=
  a % 4 = 0 ∧ (a = 0x10 ∨ a = 0x14 ∨ a = 0x18 ∨ (0x20 ≤ a ∧ a < 0x60) ∨ (0x80 ≤ a ∧ a < 0xC0))

/-- The reserved offsets of R24: 0x1C, 0x60 to 0x7F and 0xC0 to 0xFF. -/
def reservedOffset (a : Nat) : Prop := a % 4 = 0 ∧ (a = 0x1C ∨ (0x60 ≤ a ∧ a < 0x80) ∨ (0xC0 ≤ a ∧ a < 0x100))

/-- Offsets whose write sets BERR while BUSY = 1 (R34): the read-write registers other than STATUS. -/
def guardedOffset (a : Nat) : Prop := a = 0x04 ∨ a = 0x0C ∨ plainOffset a

/-- The value at a width that is cut from a 32-bit value, as a bus write. -/
def writeEvent (w : Width) (a v : Word) : HostEvent :=
  match w with
  | .w8 => .write8 a (v.setWidth 8)
  | .w16 => .write16 a (v.setWidth 16)
  | .w32 => .write32 a v

/-- The bus's answer to a read of a width with a value of that width (R56, R57). -/
def readAnswer (w : Width) (v : Nat) : BusResponse :=
  match w with
  | .w8 => .data8 (BitVec.ofNat 8 v)
  | .w16 => .data16 (BitVec.ofNat 16 v)
  | .w32 => .data32 (BitVec.ofNat 32 v)

/-- A naturally aligned access of a width at DMEM offset `o`, wholly inside the window (R56 to R58). -/
def dmemAccess (w : Width) (a : Word) (o : Nat) : Prop :=
  a.toNat = 0x01000000 + o ∧ o % w.bytes = 0 ∧ o + w.bytes ≤ dmemBytes Config.params

/-- A misaligned, wrong-width or unmapped access (R231). -/
def badAccess (w : Width) (a : Nat) : Prop :=
  (a < 0x100 ∧ (w ≠ .w32 ∨ a % 4 ≠ 0)) ∨
  (0x100 ≤ a ∧ a < 0x01000000) ∨
  (0x01000000 ≤ a ∧ (a % w.bytes ≠ 0 ∨ 0x01000000 + dmemBytes Config.params < a + w.bytes))

/-- The commands that only read and write D registers and STATUS.VALID, and NOP (R224). -/
def registerOnly : Instr → Bool
  | .encb => false
  | .kstep => false
  | .chain => false
  | .dld16 _ => false
  | .dld32 _ => false
  | .dmask _ _ => false
  | _ => true

/-- `n` KSTEPs one after the other, each of which must succeed. -/
def ksteps : Nat → State → Option State
  | 0, s => some s
  | n + 1, s =>
    match exec .kstep s with
    | .next t => if t.status.err = 0#4 then ksteps n t else none
    | .fault _ => none
    | .refused _ => none

end Sys2Proof.Claims

open Sys2Proof.Claims

/-! ### Encoding -/

/-- Format F1 and the opcode map (R70, R71, R73): no bit of an operand is dropped. -/
def Obligations.DecodeOfEncodeIsTheCommand : Prop :=
  ∀ i : Instr, i.wellFormed = true → decode (encode i) = .cmd i

/-- Each word has one meaning (R73, R79): a word that decodes to a command is that command's encoding. -/
def Obligations.EncodeOfDecodeIsTheWord : Prop :=
  ∀ (w : Word) (i : Instr), decode w = .cmd i → i.wellFormed = true ∧ encode i = w

/-- R76: an undefined opcode raises E_ILLEGAL_OP with no other effect, whatever the other fields hold. -/
def Obligations.UndefinedOpcodeRaisesIllegal : Prop :=
  ∀ s : State, ¬ definedOp (opField s.cmd).toNat → ∃ t, engineStep s = .next t ∧ OnlyError 1 s t

/-- R74, R75, R77: a defined opcode with a nonzero unused field, a nonzero RSV or a rotate amount past the width raises
E_RESERVED with no other effect, and with all of them allowed the word is a command. -/
def Obligations.NonzeroUnusedFieldRaisesReserved : Prop :=
  ∀ s : State, definedOp (opField s.cmd).toNat →
    (¬ fieldsAllowed s.cmd → ∃ t, engineStep s = .next t ∧ OnlyError 2 s t) ∧
    (fieldsAllowed s.cmd → ∃ i, decode s.cmd = .cmd i)

/-- Words of the spec's examples (R80, 95_test_vectors.md section 5). -/
def Obligations.ExampleWordsDecode : Prop :=
  decode 0x00000000#32 = .cmd .nop ∧ decode 0x00000010#32 = .cmd .encb ∧ decode 0x00000012#32 = .cmd .chain ∧
  decode 0x00008B22#32 = .cmd (.dxor 3 1 2) ∧ decode 0x00300826#32 = .cmd (.drotl32 0 1 3#6) ∧
  decode 0x000E422A#32 = .cmd (.sent 2 0 1 7) ∧ decode 0x00003B2B#32 = .cmd (.dmask 3 7) ∧
  decode 0x02000826#32 = .reserved ∧ decode 0xFFFFFF13#32 = .illegal

/-! ### The step and the command protocol -/

/-- R201: with a command pending and the engine's turn come, the step is the decoded command's meaning, E_ILLEGAL_OP for an
illegal word, E_RESERVED for a reserved one. The host's turns before it are log entry 2's. -/
def Obligations.StepRunsThePendingCommand : Prop :=
  ∀ s : State, s.status.busy = true → (s.wait = 0 ∨ s.host = []) →
    (∀ i, decode s.cmd = .cmd i → step s = exec i s) ∧
    (decode s.cmd = .illegal → ∃ t, step s = .next t ∧ OnlyError 1 s t) ∧
    (decode s.cmd = .reserved → ∃ t, step s = .next t ∧ OnlyError 2 s t)

/-- R201: no step of the engine is enabled while BUSY = 0, so nothing happens without a host event. -/
def Obligations.IdleWithoutCommandOrEvent : Prop :=
  ∀ s : State, s.status.busy = false → s.host = [] → step s = .next s

/-- R200: a CMD write with BUSY = 0 is accepted. DONE falls and BERR stays, so IRQ is then IE & BERR (R225). -/
def Obligations.CmdWriteIssuesTheCommand : Prop :=
  ∀ (s : State) (w : Word) (rest : List HostEvent), s.status.busy = false → s.host = .write32 0x0C#32 w :: rest →
    ∃ t, step s = .next t ∧ t.cmd = w ∧ t.status.busy = true ∧ t.status.done = false ∧ t.status.err = 0#4 ∧
      t.status.valid = s.status.valid ∧ t.status.berr = s.status.berr ∧ t.ctrl = s.ctrl ∧ t.addr = s.addr ∧
      t.len = s.len ∧ t.dst = s.dst ∧ t.key = s.key ∧ t.iv = s.iv ∧ t.prev = s.prev ∧ t.d = s.d ∧ SameMem s t ∧
      t.irq = (s.ctrl.ie && s.status.berr) ∧ t.host = rest

/-- R201: a pending command eventually completes. The bound is the model's own field `wait` (log entry 2). The host may
not reset the block meanwhile (R251), and the command may meet the model fault. -/
def Obligations.PendingCommandCompletes : Prop :=
  ∀ s : State, s.status.busy = true → HostEvent.reset ∉ s.host →
    ∃ k, k ≤ s.wait + 1 ∧
      ((∃ t, Host.Core.run Sys2Proof.core k s = .next t ∧ t.status.busy = false ∧ t.status.done = true) ∨
        Host.Core.run Sys2Proof.core k s = .fault Fault.unwrittenRead)

/-- R63: host accesses while BUSY = 1. A write to a read-write register other than STATUS, or to DMEM, only sets BERR, and
IRQ is then IE (R225); a STATUS write is performed; a read of ID, CTRL, STATUS or CMD returns its value; a read of any other
register or of DMEM returns an unspecified value. The model's own choices here: that the host is next is its field `wait`
(log entry 2), the unspecified value is `Config.freeRead`, of which nothing is known (log entry 5), and a DMEM read answers
it where a byte is unwritten too, R63 read before R230 (log entry 6). -/
def Obligations.AccessesWhileBusy : Prop :=
  ∀ (s : State) (rest : List HostEvent), s.status.busy = true → s.wait ≠ 0 →
    (∀ a v : Word, guardedOffset a.toNat → s.host = .write32 a v :: rest →
      ∃ t, step s = .next t ∧ SameBlock s t ∧ t.status = { s.status with berr := true } ∧
        t.irq = s.ctrl.ie) ∧
    (∀ w a v o, dmemAccess w a o → s.host = writeEvent w a v :: rest →
      ∃ t, step s = .next t ∧ SameBlock s t ∧ t.status = { s.status with berr := true } ∧
        t.irq = s.ctrl.ie) ∧
    (∀ v : Word, s.host = .write32 0x08#32 v :: rest →
      ∃ t, step s = .next t ∧ SameBlock s t ∧ t.status.busy = true ∧
        t.status.done = (s.status.done && !v.getLsbD 1) ∧ t.status.berr = (s.status.berr && !v.getLsbD 3) ∧
        t.status.valid = s.status.valid ∧ t.status.err = s.status.err) ∧
    (∀ (a : Word) (v : Word), (a, v) ∈ [(0x00#32, 0x524B4431#32), (0x04#32, s.ctrl.word), (0x08#32, s.status.word),
        (0x0C#32, s.cmd)] → s.host = .read .w32 a :: rest →
      ∃ t, step s = .next t ∧ SameBlock s t ∧ t.status = s.status ∧ t.resp = some (.data32 v)) ∧
    (∀ a : Word, plainOffset a.toNat → s.host = .read .w32 a :: rest →
      ∃ t, step s = .next t ∧ SameBlock s t ∧ t.status = s.status ∧
        t.resp = some (.data32 (Config.freeRead s.draws))) ∧
    (∀ w a o, dmemAccess w a o → s.host = .read w a :: rest →
      ∃ t, step s = .next t ∧ SameBlock s t ∧ t.status = s.status ∧
        t.resp = some (readAnswer w (Config.freeRead s.draws).toNat))

/-- R36: a STATUS write clears DONE and BERR by its bits 1 and 3 and nothing else, with BUSY = 0 or 1, and never sets BERR;
a STATUS read has no side effect. IRQ is recomputed from the new DONE and BERR (R225), so it falls only when both are 0. The
value a read answers is R30's: BUSY [0], DONE [1], VALID [2], BERR [3], ERR [11:8]. -/
def Obligations.StatusWriteAcknowledges : Prop :=
  ∀ (s : State) (rest : List HostEvent),
    (∀ v : Word, hostMoves s (.write32 0x08#32 v) rest →
      ∃ t, step s = .next t ∧ SameBlock s t ∧ t.status.busy = s.status.busy ∧ t.status.valid = s.status.valid ∧
        t.status.err = s.status.err ∧
        t.status.done = (if v.getLsbD 1 then false else s.status.done) ∧
        t.status.berr = (if v.getLsbD 3 then false else s.status.berr) ∧
        t.irq = (s.ctrl.ie && ((if v.getLsbD 1 then false else s.status.done) ||
          (if v.getLsbD 3 then false else s.status.berr)))) ∧
    (hostMoves s (.read .w32 0x08#32) rest →
      ∃ t v, step s = .next t ∧ SameBlock s t ∧ t.status = s.status ∧ t.irq = s.irq ∧ t.resp = some (.data32 v) ∧
        v.toNat = s.status.busy.toNat + 2 * s.status.done.toNat + 4 * s.status.valid.toNat + 8 * s.status.berr.toNat +
          256 * s.status.err.toNat)

/-- R24, R27, R38 to R43: with BUSY = 0 a write goes to the register of its offset and reads back, CTRL its two fields, and
no other register changes. A CTRL write moves IRQ to IE & (DONE | BERR) (R29), so IE <- 0 masks without clearing (R225). -/
def Obligations.RegisterWriteReadsBack : Prop :=
  ∀ (s : State) (a v : Word) (rest : List HostEvent), s.status.busy = false →
    s.host = .write32 a v :: .read .w32 a :: rest →
    (plainOffset a.toNat → ∃ t u, step s = .next t ∧ step t = .next u ∧ u.resp = some (.data32 v) ∧
      t.status = s.status ∧ SameMem s t ∧
      (a.toNat = 0x10 → t.addr = v) ∧ (a.toNat = 0x14 → t.len = v) ∧ (a.toNat = 0x18 → t.dst = v) ∧
      (∀ i : Fin 8, a.toNat = 0x20 + 4 * i.val → t.key[i] = v) ∧
      (∀ i : Fin 4, a.toNat = 0x40 + 4 * i.val → t.iv[i] = v) ∧
      (∀ i : Fin 4, a.toNat = 0x50 + 4 * i.val → t.prev[i] = v) ∧
      ∀ b, b % 4 = 0 → b < 0x100 → b ≠ a.toNat → t.readReg (regAt (b / 4)) = s.readReg (regAt (b / 4))) ∧
    (a.toNat = 0x04 → ∃ t u, step s = .next t ∧ step t = .next u ∧ u.resp = some (.data32 (v &&& 3#32)) ∧
      t.status = s.status ∧ SameMem s t ∧ t.ctrl.ksz = v.getLsbD 0 ∧ t.ctrl.ie = v.getLsbD 1 ∧
      t.irq = (v.getLsbD 1 && (s.status.done || s.status.berr)) ∧
      ∀ b, b % 4 = 0 → b < 0x100 → b ≠ 0x04 → t.readReg (regAt (b / 4)) = s.readReg (regAt (b / 4)))

/-- R25, R26: a write to ID or to a reserved offset changes nothing in the block and does not set BERR; ID answers
0x524B4431 and a reserved offset 0. That a reserved offset answers 0 while BUSY = 1 too is log entry 7's reading. -/
def Obligations.IdAndReservedOffsets : Prop :=
  ∀ (s : State) (a v : Word) (rest : List HostEvent), (a.toNat = 0x00 ∨ reservedOffset a.toNat) →
    (hostMoves s (.write32 a v) rest → ∃ t, step s = .next t ∧ SameBlock s t ∧ t.status = s.status) ∧
    (hostMoves s (.read .w32 a) rest → ∃ t, step s = .next t ∧ SameBlock s t ∧ t.status = s.status ∧
      t.resp = some (.data32 (if a.toNat = 0x00 then 0x524B4431#32 else 0)))

/-- R44: DiLO and DiHI are the halves of D[i]; a write to one half leaves the other half and every other D register
unchanged; while BUSY = 1 the write is ignored and sets BERR (that the host is next then is log entry 2's `wait`). -/
def Obligations.DRegisterHalves : Prop :=
  ∀ (s : State) (i : Fin 8) (v : Word) (rest : List HostEvent),
    (s.status.busy = false → s.host = .write32 (BitVec.ofNat 32 (0x80 + 8 * i.val)) v :: rest →
      ∃ t, step s = .next t ∧ SameDExcept i s t ∧
        (t.readD i).toNat = (s.readD i).toNat / 2 ^ 32 * 2 ^ 32 + v.toNat) ∧
    (s.status.busy = false → s.host = .write32 (BitVec.ofNat 32 (0x84 + 8 * i.val)) v :: rest →
      ∃ t, step s = .next t ∧ SameDExcept i s t ∧
        (t.readD i).toNat = v.toNat * 2 ^ 32 + (s.readD i).toNat % 2 ^ 32) ∧
    (s.status.busy = false → s.host = .read .w32 (BitVec.ofNat 32 (0x80 + 8 * i.val)) :: rest →
      ∃ t, step s = .next t ∧ t.d = s.d ∧ t.resp = some (.data32 (BitVec.ofNat 32 ((s.readD i).toNat % 2 ^ 32)))) ∧
    (s.status.busy = false → s.host = .read .w32 (BitVec.ofNat 32 (0x84 + 8 * i.val)) :: rest →
      ∃ t, step s = .next t ∧ t.d = s.d ∧ t.resp = some (.data32 (BitVec.ofNat 32 ((s.readD i).toNat / 2 ^ 32)))) ∧
    (s.status.busy = true → s.wait ≠ 0 →
      (s.host = .write32 (BitVec.ofNat 32 (0x80 + 8 * i.val)) v :: rest ∨
        s.host = .write32 (BitVec.ofNat 32 (0x84 + 8 * i.val)) v :: rest) →
      ∃ t, step s = .next t ∧ t.d = s.d ∧ t.status.berr = true)

/-- R51, R56: a host DMEM write of 8, 16 or 32 bits puts the value into DMEM most significant byte first and
changes no other byte and no register; a read of written bytes answers the value whose byte `w.bytes - 1 - k`, counted from
the least significant, is the one at offset `o + k`, and changes nothing. -/
def Obligations.HostMemoryIsBigEndian : Prop :=
  ∀ (s : State) (w : Width) (a : Word) (o : Nat) (rest : List HostEvent), s.status.busy = false → dmemAccess w a o →
    (∀ v : Word, s.host = writeEvent w a v :: rest →
      ∃ t, step s = .next t ∧ t.status = s.status ∧ t.ctrl = s.ctrl ∧ t.cmd = s.cmd ∧ t.addr = s.addr ∧ t.len = s.len ∧
        t.dst = s.dst ∧ t.key = s.key ∧ t.iv = s.iv ∧ t.prev = s.prev ∧ t.d = s.d ∧
        (∀ k, k < w.bytes → t.mem.read (o + k) = some (BitVec.ofNat 8 (v.toNat / 256 ^ (w.bytes - 1 - k)))) ∧
        (∀ q, q < o ∨ o + w.bytes ≤ q → t.mem.read q = s.mem.read q)) ∧
    (∀ bytes : List Byte, bytes.length = w.bytes →
      (∀ k (hk : k < bytes.length), s.mem.read (o + k) = some bytes[k]) → s.host = .read w a :: rest →
      ∃ t v, step s = .next t ∧ SameBlock s t ∧ t.status = s.status ∧ t.resp = some (readAnswer w v) ∧
        v < 256 ^ w.bytes ∧
        ∀ k (hk : k < bytes.length), v / 256 ^ (w.bytes - 1 - k) % 256 = bytes[k].toNat)

/-- R230: with BUSY = 0 a host read of DMEM that touches an unwritten byte is the model fault. -/
def Obligations.HostReadOfUnwrittenByteFaults : Prop :=
  ∀ (s : State) (w : Width) (a : Word) (o : Nat) (rest : List HostEvent), s.status.busy = false → dmemAccess w a o →
    s.host = .read w a :: rest → (∃ k, k < w.bytes ∧ s.mem.read (o + k) = none) →
    step s = .fault .unwrittenRead

/-- R231: a misaligned, wrong-width or unmapped access changes nothing in the block, BERR and ERR included, and answers a
bus error. That this holds of a write while BUSY = 1 too, a bus error decided before R63's ignored write, is the model's
reading (log entry 13). -/
def Obligations.BusErrorChangesNothing : Prop :=
  ∀ (s : State) (w : Width) (a v : Word) (rest : List HostEvent), badAccess w a.toNat →
    (hostMoves s (.read w a) rest ∨ hostMoves s (writeEvent w a v) rest) →
    ∃ t, step s = .next t ∧ SameBlock s t ∧ t.status = s.status ∧ t.irq = s.irq ∧ t.resp = some .busError

/-- R225 at a completion: after the engine's step IRQ is CTRL.IE, whatever the command and its error code. -/
def Obligations.CompletionRaisesIrqWhenEnabled : Prop :=
  ∀ (i : Instr) (s t : State), exec i s = .next t → t.irq = s.ctrl.ie ∧ t.status.berr = s.status.berr

/-! ### Reset and the invariant -/

/-- R47: the reset table. -/
def Obligations.ResetValues : Prop :=
  State.reset.readReg .id = 0x524B4431#32 ∧
  State.reset.ctrl.ksz = fixedKeyIs256 Config.params.fixedKey ∧ State.reset.ctrl.ie = false ∧
  State.reset.status = ⟨false, false, false, false, 0#4⟩ ∧
  State.reset.cmd = 0 ∧ State.reset.addr = 0 ∧ State.reset.len = 0 ∧ State.reset.dst = 0 ∧
  (∀ n : Fin 32, State.reset.keyByte n = fixedKeyByte Config.params.fixedKey n.val) ∧
  State.reset.ivBytes = Config.params.fixedIv ∧
  (∀ i : Fin 4, State.reset.prev[i] = 0) ∧ (∀ r, State.reset.readD r = 0) ∧
  (∀ o, State.reset.mem.read o = none) ∧ State.reset.irq = false

/-- R251, R250: a reset, with a command pending or not, leaves exactly the reset state of the block. -/
def Obligations.ResetEventGivesTheResetState : Prop :=
  ∀ (s : State) (rest : List HostEvent), hostMoves s .reset rest →
    ∃ t, step s = .next t ∧ t.status = State.reset.status ∧ SameBlock State.reset t

/-- The invariant holds after reset. -/
def Obligations.ResetMeetsTheInvariant : Prop := State.reset.Inv

/-- Every step, the engine's or the host's, keeps the invariant. -/
def Obligations.StepKeepsTheInvariant : Prop :=
  ∀ s t : State, s.Inv → step s = .next t → t.Inv

/-! ### All commands -/

/-- No step is refused: every command has its meaning (log entry 11). -/
def Obligations.NoStepIsRefused : Prop :=
  ∀ (s : State) (r : Refusal), step s ≠ .refused r ∧ ∀ i, exec i s ≠ .refused r

/-- R224: only the commands that read DMEM can meet the model fault, and with NOP the register-only commands cannot fail
once decoded. -/
def Obligations.RegisterCommandsNeverFail : Prop :=
  ∀ (i : Instr) (s : State),
    (registerOnly i = true → i.wellFormed = true → ∃ t, exec i s = .next t ∧ t.status.err = 0#4) ∧
    (∀ f, exec i s = .fault f → registerOnly i = false ∧ f = .unwrittenRead)

/-- R222: a raised error leaves every register, D register, STATUS.VALID and DMEM byte as before, completes with its code,
and the same command in that state gives the same error. -/
def Obligations.ErrorsArePrecise : Prop :=
  ∀ (i : Instr) (s t : State), exec i s = .next t → t.status.err ≠ 0#4 →
    OnlyError t.status.err.toNat s t ∧ ∃ u, exec i t = .next u ∧ u.status.err = t.status.err

/-- R33: STATUS.VALID is written only by a successfully completed SENT, with 1 when b == c3 and 0 otherwise. -/
def Obligations.OnlySentWritesValid : Prop :=
  ∀ (i : Instr) (s t : State), exec i s = .next t →
    ((∀ rd a b k, i ≠ .sent rd a b k) ∨ t.status.err ≠ 0#4 → t.status.valid = s.status.valid) ∧
    (∀ rd a b k, i = .sent rd a b k → t.status.err = 0#4 →
      t.status.valid = decide ((s.readD b).toNat % 2 ^ 32 =
        sentinelNat ((s.readD a).toNat % 2 ^ 32) ((s.readD k).toNat % 2 ^ 32) ((s.readD k).toNat / 2 ^ 32)))

/-- R40 to R42, R37, R27: no command writes DST, KEY, IV, CMD or CTRL. -/
def Obligations.CommandsLeaveFixedRegisters : Prop :=
  ∀ (i : Instr) (s t : State), exec i s = .next t → SameFixed s t

/-- R23, R38, R39, R43, R50: which commands can write D, ADDR, LEN, PREV and DMEM. -/
def Obligations.CommandsTouchOnlyTheirState : Prop :=
  ∀ (i : Instr) (s t : State), exec i s = .next t →
    (i = .nop ∨ i = .encb ∨ i = .kstep ∨ i = .chain → t.d = s.d) ∧
    (i ≠ .kstep → i ≠ .chain → t.prev = s.prev) ∧
    (i ≠ .kstep → t.len = s.len) ∧
    (i = .encb ∨ i = .chain ∨ registerOnly i = true → t.addr = s.addr) ∧
    ((∀ rd m, i ≠ .dmask rd m) → i ≠ .encb → i ≠ .kstep → i ≠ .chain → SameMem s t)

/-! ### Register commands -/

/-- NOP (R202): nothing but the completion protocol. -/
def Obligations.NopOnlyCompletes : Prop :=
  ∀ s : State, ∃ t, exec .nop s = .next t ∧ OnlyError 0 s t

/-- DXOR, DAND, DOR (R164, R180, R181): result and frame. -/
def Obligations.LogicalOperatorsResult : Prop :=
  ∀ (s : State) (rd a b : DReg),
    (∃ t, exec (.dxor rd a b) s = .next t ∧ OnlyD rd s t ∧ (t.readD rd).toNat = (s.readD a).toNat ^^^ (s.readD b).toNat) ∧
    (∃ t, exec (.dand rd a b) s = .next t ∧ OnlyD rd s t ∧ (t.readD rd).toNat = (s.readD a).toNat &&& (s.readD b).toNat) ∧
    (∃ t, exec (.dor rd a b) s = .next t ∧ OnlyD rd s t ∧ (t.readD rd).toNat = (s.readD a).toNat ||| (s.readD b).toNat)

/-- DCAT16, DCAT32, DFOLD16 (R165 to R167): result and frame. -/
def Obligations.ConcatenationAndFoldResult : Prop :=
  ∀ (s : State) (rd a b : DReg),
    (∃ t, exec (.dcat16 rd a b) s = .next t ∧ OnlyD rd s t ∧
      (t.readD rd).toNat = (s.readD a).toNat % 2 ^ 16 * 2 ^ 16 + (s.readD b).toNat % 2 ^ 16) ∧
    (∃ t, exec (.dcat32 rd a b) s = .next t ∧ OnlyD rd s t ∧
      (t.readD rd).toNat = (s.readD a).toNat % 2 ^ 32 * 2 ^ 32 + (s.readD b).toNat % 2 ^ 32) ∧
    (∃ t, exec (.dfold16 rd a) s = .next t ∧ OnlyD rd s t ∧
      (t.readD rd).toNat = ((s.readD a).toNat / 2 ^ 16 % 2 ^ 16) ^^^ ((s.readD a).toNat % 2 ^ 16))

/-- DROTL32, DROTR32 (R168, R169): the rotation of R7 on the low word, zero-extended. A distance from 32 on
stands in no command that a word decodes to; that `exec` raises E_RESERVED for such a term is the model's choice (log entry 15).
R77's rule for the word itself is NonzeroUnusedFieldRaisesReserved. -/
def Obligations.Rotate32Result : Prop :=
  ∀ (s : State) (rd a : DReg) (r : Imm6),
    (r.toNat < 32 →
      (∃ t, exec (.drotl32 rd a r) s = .next t ∧ OnlyD rd s t ∧
        (t.readD rd).toNat = rotlNat 32 ((s.readD a).toNat % 2 ^ 32) r.toNat) ∧
      (∃ t, exec (.drotr32 rd a r) s = .next t ∧ OnlyD rd s t ∧
        (t.readD rd).toNat = rotrNat 32 ((s.readD a).toNat % 2 ^ 32) r.toNat)) ∧
    (32 ≤ r.toNat →
      (∃ t, exec (.drotl32 rd a r) s = .next t ∧ OnlyError 2 s t) ∧
      (∃ t, exec (.drotr32 rd a r) s = .next t ∧ OnlyError 2 s t))

/-- DROTL16, DROTR16 (R184, R185): the rotation of R7 on the low half, zero-extended. A distance from 16 on
stands in no command that a word decodes to; that `exec` raises E_RESERVED for such a term is the model's choice (log entry 15).
R77's rule for the word itself is NonzeroUnusedFieldRaisesReserved. -/
def Obligations.Rotate16Result : Prop :=
  ∀ (s : State) (rd a : DReg) (r : Imm6),
    (r.toNat < 16 →
      (∃ t, exec (.drotl16 rd a r) s = .next t ∧ OnlyD rd s t ∧
        (t.readD rd).toNat = rotlNat 16 ((s.readD a).toNat % 2 ^ 16) r.toNat) ∧
      (∃ t, exec (.drotr16 rd a r) s = .next t ∧ OnlyD rd s t ∧
        (t.readD rd).toNat = rotrNat 16 ((s.readD a).toNat % 2 ^ 16) r.toNat)) ∧
    (16 ≤ r.toNat →
      (∃ t, exec (.drotl16 rd a r) s = .next t ∧ OnlyError 2 s t) ∧
      (∃ t, exec (.drotr16 rd a r) s = .next t ∧ OnlyError 2 s t))

/-- DROTL64, DROTR64 (R170, R171): the rotation of R7 by 0..63. -/
def Obligations.Rotate64Result : Prop :=
  ∀ (s : State) (rd a : DReg) (r : Imm6),
    (∃ t, exec (.drotl64 rd a r) s = .next t ∧ OnlyD rd s t ∧
      (t.readD rd).toNat = rotlNat 64 (s.readD a).toNat r.toNat) ∧
    (∃ t, exec (.drotr64 rd a r) s = .next t ∧ OnlyD rd s t ∧
      (t.readD rd).toNat = rotrNat 64 (s.readD a).toNat r.toNat)

/-- DSHL64, DSHR64 (R182, R183): logical shifts by 0..63. -/
def Obligations.Shift64Result : Prop :=
  ∀ (s : State) (rd a : DReg) (r : Imm6),
    (∃ t, exec (.dshl64 rd a r) s = .next t ∧ OnlyD rd s t ∧
      (t.readD rd).toNat = (s.readD a).toNat * 2 ^ r.toNat % 2 ^ 64) ∧
    (∃ t, exec (.dshr64 rd a r) s = .next t ∧ OnlyD rd s t ∧
      (t.readD rd).toNat = (s.readD a).toNat / 2 ^ r.toNat)

/-- R81: the effects of the pseudo-instructions. -/
def Obligations.PseudoInstructionEffects : Prop :=
  ∀ (s : State) (rd a : DReg),
    (∃ t, exec (dmov rd a) s = .next t ∧ OnlyD rd s t ∧ t.readD rd = s.readD a) ∧
    (∃ t, exec (dclr rd) s = .next t ∧ OnlyD rd s t ∧ t.readD rd = 0) ∧
    (∃ t, exec (dzext32 rd a) s = .next t ∧ OnlyD rd s t ∧ (t.readD rd).toNat = (s.readD a).toNat % 2 ^ 32) ∧
    (∃ t, exec (dswap32 rd a) s = .next t ∧ OnlyD rd s t ∧
      (t.readD rd).toNat = (s.readD a).toNat % 2 ^ 32 * 2 ^ 32 + (s.readD a).toNat / 2 ^ 32)

/-- R195: every rotation is a bijection: rotating right by the distance it was rotated left gives the value back. -/
def Obligations.RotationsAreInverse : Prop :=
  (∀ (x : DWord) (r : Nat), r < 64 → rotr (rotl x r) r = x ∧ rotl (rotr x r) r = x) ∧
  (∀ (x : Word) (r : Nat), r < 32 → rotr (rotl x r) r = x ∧ rotl (rotr x r) r = x) ∧
  (∀ (x : Half) (r : Nat), r < 16 → rotr (rotl x r) r = x ∧ rotl (rotr x r) r = x)

/-- SENT (R172): c3 to D[RD], VALID = (b == c3), and the rest unchanged. -/
def Obligations.SentinelResult : Prop :=
  ∀ (s : State) (rd a b k : DReg), ∃ t, exec (.sent rd a b k) s = .next t ∧ SameFixed s t ∧ Completed 0 s t ∧
    SameDExcept rd s t ∧ SameMem s t ∧ t.addr = s.addr ∧ t.len = s.len ∧ t.prev = s.prev ∧
    (t.readD rd).toNat =
      sentinelNat ((s.readD a).toNat % 2 ^ 32) ((s.readD k).toNat % 2 ^ 32) ((s.readD k).toNat / 2 ^ 32) ∧
    (t.status.valid = true ↔ (s.readD b).toNat % 2 ^ 32 =
      sentinelNat ((s.readD a).toNat % 2 ^ 32) ((s.readD k).toNat % 2 ^ 32) ((s.readD k).toNat / 2 ^ 32))

/-- R172: for a fixed first word and fixed K1, K2, exactly one of the 2^32 second words is valid. The second word is in a
register of its own: with RS2 = RS1 or RS2 = RS3 the other operands cannot be kept while it varies, and SentinelResult says
what those forms do. -/
def Obligations.SentinelAcceptsOneWord : Prop :=
  ∀ (s : State) (rd a b k : DReg), b ≠ a → b ≠ k →
    ∃ w, w < 2 ^ 32 ∧ ∀ v : DWord,
      ∃ u, exec (.sent rd a b k) (s.writeD b v) = .next u ∧ (u.status.valid = true ↔ v.toNat % 2 ^ 32 = w)

/-! ### Loads and names -/

/-- DLD16, DLD32 (R162, R163): on written bytes in range, the big-endian value and the cursor's advance. -/
def Obligations.StreamLoadsResult : Prop :=
  ∀ (s : State) (rd : DReg),
    (∀ b0 b1 : Byte, s.addr.toNat + 2 ≤ dmemBytes Config.params → s.mem.read s.addr.toNat = some b0 →
      s.mem.read (s.addr.toNat + 1) = some b1 →
      ∃ t, exec (.dld16 rd) s = .next t ∧ SameFixed s t ∧ Completed 0 s t ∧ t.status.valid = s.status.valid ∧
        SameDExcept rd s t ∧ SameMem s t ∧ t.len = s.len ∧ t.prev = s.prev ∧ t.addr.toNat = s.addr.toNat + 2 ∧
        (t.readD rd).toNat = 256 * b0.toNat + b1.toNat) ∧
    (∀ b0 b1 b2 b3 : Byte, s.addr.toNat + 4 ≤ dmemBytes Config.params → s.mem.read s.addr.toNat = some b0 →
      s.mem.read (s.addr.toNat + 1) = some b1 → s.mem.read (s.addr.toNat + 2) = some b2 →
      s.mem.read (s.addr.toNat + 3) = some b3 →
      ∃ t, exec (.dld32 rd) s = .next t ∧ SameFixed s t ∧ Completed 0 s t ∧ t.status.valid = s.status.valid ∧
        SameDExcept rd s t ∧ SameMem s t ∧ t.len = s.len ∧ t.prev = s.prev ∧ t.addr.toNat = s.addr.toNat + 4 ∧
        (t.readD rd).toNat = 2 ^ 24 * b0.toNat + 2 ^ 16 * b1.toNat + 256 * b2.toNat + b3.toNat)

/-- DLD16, DLD32 (R54, R52): out of range E_RANGE and nothing else, in range with an unwritten byte the model fault. -/
def Obligations.StreamLoadsStop : Prop :=
  ∀ (s : State) (rd : DReg) (n : Nat) (i : Instr), (n = 2 ∧ i = .dld16 rd) ∨ (n = 4 ∧ i = .dld32 rd) →
    (dmemBytes Config.params < s.addr.toNat + n → ∃ t, exec i s = .next t ∧ OnlyError 3 s t) ∧
    (s.addr.toNat + n ≤ dmemBytes Config.params → (∃ k, k < n ∧ s.mem.read (s.addr.toNat + k) = none) →
      exec i s = .fault .unwrittenRead)

/-- DMASK (R173): `raw` is the name before its terminator, or 64 bytes without one. The demasked bytes go to DST, the
result is consumed in [63:32] and the length in [31:0], the cursor advances by the bytes consumed. -/
def Obligations.NameDemaskResult : Prop :=
  ∀ (s : State) (rd m : DReg) (raw : List Byte) (consumed : Nat),
    (∀ k (hk : k < raw.length), s.mem.read (s.addr.toNat + k) = some raw[k]) →
    (∀ b ∈ raw, ¬ terminates Config.params ((s.readD m).setWidth 8) b) →
    ((raw.length = 64 ∧ consumed = 64) ∨
      (raw.length < 64 ∧ consumed = raw.length + 1 ∧
        ∃ z, s.mem.read (s.addr.toNat + raw.length) = some z ∧ terminates Config.params ((s.readD m).setWidth 8) z)) →
    s.addr.toNat + consumed ≤ dmemBytes Config.params → s.dst.toNat + raw.length ≤ dmemBytes Config.params →
    ∃ t, exec (.dmask rd m) s = .next t ∧ SameFixed s t ∧ Completed 0 s t ∧ t.status.valid = s.status.valid ∧
      SameDExcept rd s t ∧ t.len = s.len ∧ t.prev = s.prev ∧ t.addr.toNat = s.addr.toNat + consumed ∧
      (t.readD rd).toNat = consumed * 2 ^ 32 + raw.length ∧
      (∀ k (hk : k < raw.length), t.mem.read (s.dst.toNat + k) = some (raw[k] ^^^ (s.readD m).setWidth 8)) ∧
      (∀ q, q < s.dst.toNat ∨ s.dst.toNat + raw.length ≤ q → t.mem.read q = s.mem.read q)

/-- DMASK (R173, R223): a name that runs out of DMEM before its terminator, or whose destination leaves DMEM, raises
E_RANGE and changes nothing; an unwritten byte that must be read is the model fault. `raw` is what the scan reads before
that. -/
def Obligations.NameDemaskStops : Prop :=
  ∀ (s : State) (rd m : DReg) (raw : List Byte),
    (∀ k (hk : k < raw.length), s.mem.read (s.addr.toNat + k) = some raw[k]) →
    (∀ b ∈ raw, ¬ terminates Config.params ((s.readD m).setWidth 8) b) →
    (raw.length < 64 → dmemBytes Config.params ≤ s.addr.toNat + raw.length →
      ∃ t, exec (.dmask rd m) s = .next t ∧ OnlyError 3 s t) ∧
    (raw.length < 64 → s.addr.toNat + raw.length < dmemBytes Config.params →
      s.mem.read (s.addr.toNat + raw.length) = none → exec (.dmask rd m) s = .fault .unwrittenRead) ∧
    ((raw.length = 64 ∨ (raw.length < 64 ∧ s.addr.toNat + raw.length < dmemBytes Config.params ∧
        ∃ z, s.mem.read (s.addr.toNat + raw.length) = some z ∧
          terminates Config.params ((s.readD m).setWidth 8) z)) →
      dmemBytes Config.params < s.dst.toNat + raw.length →
      ∃ t, exec (.dmask rd m) s = .next t ∧ OnlyError 3 s t)

/-! ### The cipher -/

/-- R107: the words of a key schedule, for 4 and 8 key words and any round count that holds the key. -/
def Obligations.KeyExpansionRecurrence : Prop :=
  ∀ (p : Params) (key : List Byte) (nk nr : Nat), key.length = 4 * nk → (nk = 4 ∨ nk = 8) → 1 ≤ nr →
    (keyExpansion p key nr).length = 4 * (nr + 1) ∧
    (∀ i, i < nk → ∀ k : Fin 4, ((keyExpansion p key nr).getD i zeroKWord)[k] = key.getD (4 * i + k.val) 0) ∧
    (∀ i, nk ≤ i → i < 4 * (nr + 1) → ∀ k : Fin 4,
      let w := fun j => (keyExpansion p key nr).getD j zeroKWord
      (w i)[k] = (w (i - nk))[k] ^^^
        (if i % nk = 0 then p.sbox ((w (i - 1))[(k.val + 1) % 4]'(by omega)) ^^^ (if k = 0 then p.rcon (i / nk) else 0)
        else if nk = 8 ∧ i % 8 = 4 then p.sbox (w (i - 1))[k]
        else (w (i - 1))[k]))

/-- R102 on naturals, then R104, R109, R110, R111 in row and column form, state byte `s[r][c]` at `r + 4c` (R108). -/
def Obligations.RoundFunctionsByRowAndColumn : Prop :=
  (∀ b : Byte, (xtime b).toNat = xtimeNat b.toNat) ∧
  (∀ a b : Byte, (gmul a b).toNat = gmulNat a.toNat b.toNat) ∧
  ∀ (p : Params) (w : List KWord) (rnd : Nat) (s : Block) (r c : Fin 4),
    let at' := fun (b : Block) (r c : Fin 4) => b[r.val + 4 * c.val]'(by omega)
    let x := fun row : Fin 4 => (at' s row c).toNat
    at' (subBytes p s) r c = p.sbox (at' s r c) ∧
    at' (shiftRows s) r c = at' s r (c + r) ∧
    at' (addRoundKey w rnd s) r c = at' s r c ^^^ (w.getD (4 * rnd + c.val) zeroKWord)[r] ∧
    (at' (mixColumns s) 0 c).toNat = gmulNat (x 0) 2 ^^^ gmulNat (x 1) 3 ^^^ x 2 ^^^ x 3 ∧
    (at' (mixColumns s) 1 c).toNat = x 0 ^^^ gmulNat (x 1) 2 ^^^ gmulNat (x 2) 3 ^^^ x 3 ∧
    (at' (mixColumns s) 2 c).toNat = x 0 ^^^ x 1 ^^^ gmulNat (x 2) 2 ^^^ gmulNat (x 3) 3 ∧
    (at' (mixColumns s) 3 c).toNat = gmulNat (x 0) 3 ^^^ x 1 ^^^ x 2 ^^^ gmulNat (x 3) 2

/-- R100, R101, R120: one key mix, Nr - 1 full rounds in order, one final round; Nr is 10 for a 16-byte key and NR256 for a
32-byte key. -/
def Obligations.CipherIsItsRounds : Prop :=
  ∀ (p : Params) (key : List Byte) (blk : Block) (nr : Nat),
    (key.length = 16 ∧ nr = 10) ∨ (key.length = 32 ∧ nr = (match p.nr256 with | .fourteen => 14 | .ten => 10)) →
    enc p key blk =
      let w := keyExpansion p key nr
      let full := (List.range' 1 (nr - 1)).foldl
        (fun s rnd => addRoundKey w rnd (mixColumns (shiftRows (subBytes p s)))) (addRoundKey w 0 blk)
      addRoundKey w nr (shiftRows (subBytes p full))

/-- R28, R41, R42, R43: the active key is KEYB[0..15] with KSZ = 0 and KEYB[0..31] with KSZ = 1; KEYB, IVB and PREVB have
byte 4i + k in bits [31 - 8k : 24 - 8k] of KEYi, IVi and PREVi, most significant byte first (R51). -/
def Obligations.ActiveKeyBytes : Prop :=
  ∀ s : State, s.activeKey.length = (if s.ctrl.ksz then 32 else 16) ∧
    (∀ (i : Fin 8) (k : Fin 4), 4 * i.val + k.val < s.activeKey.length →
      (s.activeKey.getD (4 * i.val + k.val) 0).toNat = s.key[i].toNat / 2 ^ (24 - 8 * k.val) % 256) ∧
    ∀ i k : Fin 4,
      (s.ivBytes[4 * i.val + k.val]'(by omega)).toNat = s.iv[i].toNat / 2 ^ (24 - 8 * k.val) % 256 ∧
      (s.prevBytes[4 * i.val + k.val]'(by omega)).toNat = s.prev[i].toNat / 2 ^ (24 - 8 * k.val) % 256

/-- ENCB (R121): on written source bytes with both ranges in DMEM; overlapping ranges encrypt the original source (R66). -/
def Obligations.EncbResult : Prop :=
  ∀ (s : State) (blk : Block), s.addr.toNat + 16 ≤ dmemBytes Config.params → s.dst.toNat + 16 ≤ dmemBytes Config.params →
    (∀ k : Fin 16, s.mem.read (s.addr.toNat + k.val) = some blk[k]) →
    ∃ t, exec .encb s = .next t ∧ SameFixed s t ∧ Completed 0 s t ∧ t.status.valid = s.status.valid ∧ t.d = s.d ∧
      t.addr = s.addr ∧ t.len = s.len ∧ t.prev = s.prev ∧
      (∀ k : Fin 16, t.mem.read (s.dst.toNat + k.val) = some (enc Config.params s.activeKey blk)[k]) ∧
      (∀ q, q < s.dst.toNat ∨ s.dst.toNat + 16 ≤ q → t.mem.read q = s.mem.read q)

/-- ENCB (R121, R223): either range outside DMEM raises E_RANGE and changes nothing, even with unwritten source bytes; both
inside with an unwritten source byte is the model fault. -/
def Obligations.EncbStops : Prop :=
  ∀ s : State,
    (dmemBytes Config.params < s.addr.toNat + 16 ∨ dmemBytes Config.params < s.dst.toNat + 16 →
      ∃ t, exec .encb s = .next t ∧ OnlyError 3 s t) ∧
    (s.addr.toNat + 16 ≤ dmemBytes Config.params → s.dst.toNat + 16 ≤ dmemBytes Config.params →
      (∃ k, k < 16 ∧ s.mem.read (s.addr.toNat + k) = none) → exec .encb s = .fault .unwrittenRead)

/-! ### The keystream chain -/

/-- R131: the evolution function byte by byte, on naturals. -/
def Obligations.EvolveByteFormula : Prop :=
  ∀ (p : Params) (ks : Block) (pos : Fin 16),
    let phase := match p.evolvePhase with | .before => 0 | .after => 8
    let t := p.evolveT64.toNat / 2 ^ ((8 * pos.val + phase) % 64) % 256
    let v := ks[pos].toNat ^^^ t ^^^ (31 * pos.val)
    let v' := if p.evolveWide then v else v % 256
    (evolve p ks)[pos] = p.sbox (BitVec.ofNat 8 (v' / 32 ||| 8 * v'))

/-- R133: the bit transform is a rotation by 3 below 256; with EVOLVE_WIDE the value has bit 8 set exactly at positions 9
to 15, where the rotation of the low byte gets 0x08 set, and without it the transform is that rotation everywhere; the two
settings agree at positions 0 to 8 and differ at 9 to 15 exactly when bit 0 of the value is 0. -/
def Obligations.EvolveBitTransform : Prop :=
  ∀ (p : Params) (pos : Nat) (k : Byte), pos < 16 →
    let wide := evolveValue { p with evolveWide := true } pos k
    let narrow := evolveValue { p with evolveWide := false } pos k
    (∀ v, v < 256 → (evolveBits v).toNat = rotlNat 8 v 3) ∧
    (wide.testBit 8 = true ↔ 9 ≤ pos) ∧
    (9 ≤ pos → (evolveBits wide).toNat = (rotlNat 8 (wide % 256) 3 ||| 0x08)) ∧
    ((evolveBits narrow).toNat = rotlNat 8 narrow 3) ∧
    (pos ≤ 8 → evolveBits wide = evolveBits narrow) ∧
    (9 ≤ pos → (evolveBits wide ≠ evolveBits narrow ↔ (wide % 256).testBit 0 = false))

/-- KSTEP (R138): one chunk of min(16, LEN) written bytes in range. -/
def Obligations.KstepResult : Prop :=
  ∀ (s : State) (chunk : List Byte), s.len.toNat ≠ 0 → chunk.length = min 16 s.len.toNat →
    s.addr.toNat + chunk.length ≤ dmemBytes Config.params →
    (∀ k (hk : k < chunk.length), s.mem.read (s.addr.toNat + k) = some chunk[k]) →
    ∃ t, exec .kstep s = .next t ∧ SameFixed s t ∧ Completed 0 s t ∧ t.status.valid = s.status.valid ∧ t.d = s.d ∧
      t.addr.toNat = s.addr.toNat + chunk.length ∧ t.len.toNat = s.len.toNat - chunk.length ∧
      t.prevBytes = evolve Config.params (enc Config.params s.activeKey s.prevBytes) ∧
      (∀ k (hk : k < chunk.length), t.mem.read (s.addr.toNat + k) =
        some (chunk[k] ^^^ (enc Config.params s.activeKey s.prevBytes).toList.getD k 0)) ∧
      (∀ q, q < s.addr.toNat ∨ s.addr.toNat + chunk.length ≤ q → t.mem.read q = s.mem.read q)

/-- KSTEP (R138, R223): LEN = 0 raises E_LEN, before the range check; a chunk outside DMEM raises E_RANGE; an unwritten byte
of a chunk in range is the model fault. -/
def Obligations.KstepStops : Prop :=
  ∀ s : State,
    (s.len = 0 → ∃ t, exec .kstep s = .next t ∧ OnlyError 4 s t) ∧
    (s.len ≠ 0 → dmemBytes Config.params < s.addr.toNat + min 16 s.len.toNat →
      ∃ t, exec .kstep s = .next t ∧ OnlyError 3 s t) ∧
    (s.len ≠ 0 → s.addr.toNat + min 16 s.len.toNat ≤ dmemBytes Config.params →
      (∃ k, k < min 16 s.len.toNat ∧ s.mem.read (s.addr.toNat + k) = none) → exec .kstep s = .fault .unwrittenRead)

/-- CHAIN with LEN <= 256 (R134, R139, R140): every byte of the buffer is XORed with the keystream, PREV is the last chain
value, and the rest is unchanged; LEN = 0 changes no byte and leaves PREV = IV. -/
def Obligations.ChainSmallResult : Prop :=
  ∀ (s : State) (buf : List Byte), buf.length = s.len.toNat → s.len.toNat ≤ 256 →
    s.addr.toNat + buf.length ≤ dmemBytes Config.params →
    (∀ k (hk : k < buf.length), s.mem.read (s.addr.toNat + k) = some buf[k]) →
    ∃ t, exec .chain s = .next t ∧ SameFixed s t ∧ Completed 0 s t ∧ t.status.valid = s.status.valid ∧ t.d = s.d ∧
      t.addr = s.addr ∧ t.len = s.len ∧
      t.prevBytes = chainValue Config.params s.activeKey s.ivBytes ((buf.length + 15) / 16) ∧
      (∀ k (hk : k < buf.length), t.mem.read (s.addr.toNat + k) =
        some (buf[k] ^^^ keystream Config.params s.activeKey s.ivBytes k)) ∧
      (∀ q, q < s.addr.toNat ∨ s.addr.toNat + buf.length ≤ q → t.mem.read q = s.mem.read q)

/-- CHAIN with LEN > 256 (R136, R137, R139, R141): only the sampled bytes `16*i + j` need be written, they alone change,
slot `i*step + j` of the keystream goes to them, and PREV is the chain value after 16 blocks. -/
def Obligations.ChainLargeResult : Prop :=
  ∀ (s : State) (n nc step : Nat), 256 < s.len.toNat → n = s.len.toNat / 16 → nc = min n 256 → step = max 1 (256 / n) →
    s.addr.toNat + s.len.toNat ≤ dmemBytes Config.params →
    (∀ i j, i < nc → j < step → ∃ b, s.mem.read (s.addr.toNat + (16 * i + j)) = some b) →
    ∃ t, exec .chain s = .next t ∧ SameFixed s t ∧ Completed 0 s t ∧ t.status.valid = s.status.valid ∧ t.d = s.d ∧
      t.addr = s.addr ∧ t.len = s.len ∧ t.prevBytes = chainValue Config.params s.activeKey s.ivBytes 16 ∧
      (∀ i j b, i < nc → j < step → s.mem.read (s.addr.toNat + (16 * i + j)) = some b →
        t.mem.read (s.addr.toNat + (16 * i + j)) =
          some (b ^^^ keystream Config.params s.activeKey s.ivBytes (i * step + j))) ∧
      (∀ q, (∀ i j, i < nc → j < step → q ≠ s.addr.toNat + (16 * i + j)) → t.mem.read q = s.mem.read q)

/-- CHAIN (R139): the whole buffer is range-checked on both paths; an unwritten byte that its path reads is the model
fault. -/
def Obligations.ChainStops : Prop :=
  ∀ s : State,
    (dmemBytes Config.params < s.addr.toNat + s.len.toNat → ∃ t, exec .chain s = .next t ∧ OnlyError 3 s t) ∧
    (s.addr.toNat + s.len.toNat ≤ dmemBytes Config.params → s.len.toNat ≤ 256 →
      (∃ k, k < s.len.toNat ∧ s.mem.read (s.addr.toNat + k) = none) → exec .chain s = .fault .unwrittenRead) ∧
    (s.addr.toNat + s.len.toNat ≤ dmemBytes Config.params → 256 < s.len.toNat →
      (∃ i j, i < min (s.len.toNat / 16) 256 ∧ j < max 1 (256 / (s.len.toNat / 16)) ∧
        s.mem.read (s.addr.toNat + (16 * i + j)) = none) → exec .chain s = .fault .unwrittenRead)

/-- R135, R141: CHAIN is an involution on DMEM, on both paths: a second CHAIN on the same buffer restores every byte. -/
def Obligations.ChainTwiceRestoresMemory : Prop :=
  ∀ s t : State, exec .chain s = .next t → t.status.err = 0#4 →
    ∃ u, exec .chain t = .next u ∧ u.status.err = 0#4 ∧ SameMem s u ∧ u.prev = t.prev

/-- R138, last paragraph: KSTEPs from PREV = IV until LEN = 0 compute what CHAIN computes on a buffer of at most 256 bytes:
the same DMEM and the same PREV. -/
def Obligations.KstepsComputeTheChain : Prop :=
  ∀ s t : State, s.len.toNat ≤ 256 → s.prevBytes = s.ivBytes → exec .chain s = .next t → t.status.err = 0#4 →
    ∃ u, ksteps ((s.len.toNat + 15) / 16) s = some u ∧ u.len = 0 ∧ u.addr.toNat = s.addr.toNat + s.len.toNat ∧
      u.prevBytes = t.prevBytes ∧ SameMem t u

/-- R135, R140: the keystream does not depend on the data: two states that differ in DMEM, D, ADDR, DST and STATUS only get
the same PREV from CHAIN. -/
def Obligations.ChainValueIndependentOfData : Prop :=
  ∀ s s' t t' : State, s.len = s'.len → s.key = s'.key → s.iv = s'.iv → s.ctrl.ksz = s'.ctrl.ksz →
    exec .chain s = .next t → exec .chain s' = .next t' → t.status.err = 0#4 → t'.status.err = 0#4 →
    t.prevBytes = t'.prevBytes

/-- R136: the sampled positions of a large buffer are distinct, at most 256, slot `i*step + j` is `16*i + j`, and all lie
below `16*nc`, which is at most the length. -/
def Obligations.SampleGeometry : Prop :=
  ∀ (L n nc step : Nat), 256 < L → n = L / 16 → nc = min n 256 → step = max 1 (256 / n) →
    16 ≤ n ∧ step ≤ 16 ∧ (samplePositions L).length = nc * step ∧ nc * step ≤ 256 ∧ (samplePositions L).Nodup ∧
    (∀ i j, i < nc → j < step → (samplePositions L)[i * step + j]? = some (16 * i + j)) ∧
    (∀ q ∈ samplePositions L, q < 16 * nc) ∧ 16 * nc ≤ L
end

