-- ==== Sys2Proof/Laws/Operands.lean ====
section
/-! SUPPORT. The operand forms as naturals, and the rotations bit by bit. -/

namespace Sys2Proof.Machine

theorem low16_toNat (x : DWord) : (low16 x).toNat = x.toNat % 2 ^ 16 := by simp [low16]

theorem low32_toNat (x : DWord) : (low32 x).toNat = x.toNat % 2 ^ 32 := by simp [low32]

theorem high16_toNat (x : DWord) : (high16 x).toNat = x.toNat / 2 ^ 16 % 2 ^ 16 := by
  simp [high16, Nat.shiftRight_eq_div_pow]

theorem high32_toNat (x : DWord) : (high32 x).toNat = x.toNat / 2 ^ 32 := by
  simp [high32, Nat.shiftRight_eq_div_pow]
  omega

theorem zext64_toNat (x : BitVec w) (h : w ≤ 64) : (zext64 x).toNat = x.toNat := by
  have := x.isLt
  have : 2 ^ w ≤ 2 ^ 64 := Nat.pow_le_pow_right (by omega) h
  simp [zext64]
  omega

theorem append_toNat (x : BitVec n) (y : BitVec m) : (x ++ y).toNat = x.toNat * 2 ^ m + y.toNat := by
  rw [BitVec.toNat_append, Nat.shiftLeft_eq, Nat.mul_comm, Nat.two_pow_add_eq_or_of_lt y.isLt]

theorem shiftRight_lt_two_pow {x w : Nat} (h : x < 2 ^ w) (r : Nat) : x >>> r < 2 ^ w := by
  rw [Nat.shiftRight_eq_div_pow]
  exact lt_of_le_of_lt (Nat.div_le_self _ _) h

/-- R7's formula for the left rotation. -/
theorem rotl_toNat (x : BitVec w) (r : Nat) :
    (rotl x r).toNat = ((x.toNat <<< r) ||| (x.toNat >>> (w - r))) % 2 ^ w := by
  simp [rotl, Nat.or_mod_two_pow, Nat.mod_eq_of_lt (shiftRight_lt_two_pow x.isLt (w - r))]

/-- R7's formula for the right rotation. -/
theorem rotr_toNat (x : BitVec w) (r : Nat) :
    (rotr x r).toNat = ((x.toNat >>> r) ||| (x.toNat <<< (w - r))) % 2 ^ w := by
  simp [rotr, Nat.or_mod_two_pow, Nat.mod_eq_of_lt (shiftRight_lt_two_pow x.isLt r)]

/-- Bit `j` of a left rotation. -/
theorem rotl_getLsbD (x : BitVec w) (r j : Nat) (h : r ≤ w) (hj : j < w) :
    (rotl x r).getLsbD j = if j < r then x.getLsbD (w - r + j) else x.getLsbD (j - r) := by
  simp only [rotl, BitVec.getLsbD_or, BitVec.getLsbD_shiftLeft, BitVec.getLsbD_ushiftRight]
  split
  · simp [*]
  · rw [BitVec.getLsbD_of_ge x (w - r + j) (by omega)]
    simp [*]

/-- Bit `j` of a right rotation. -/
theorem rotr_getLsbD (x : BitVec w) (r j : Nat) (h : r ≤ w) (hj : j < w) :
    (rotr x r).getLsbD j = if j < w - r then x.getLsbD (r + j) else x.getLsbD (j - (w - r)) := by
  simp only [rotr, BitVec.getLsbD_or, BitVec.getLsbD_shiftLeft, BitVec.getLsbD_ushiftRight]
  split
  · simp [*]
  · rw [BitVec.getLsbD_of_ge x (r + j) (by omega)]
    simp [*]

/-! ### Halves of a 64-bit register -/

@[simp] theorem low32_append (hi lo : Word) : low32 (hi ++ lo) = lo := by
  apply BitVec.eq_of_toNat_eq
  have := lo.isLt
  rw [low32_toNat, append_toNat]
  omega

@[simp] theorem high32_append (hi lo : Word) : high32 (hi ++ lo) = hi := by
  apply BitVec.eq_of_toNat_eq
  have := lo.isLt
  rw [high32_toNat, append_toNat]
  omega

/-- The terminator test of R173, by the parameter. -/
theorem isTerminator_iff (t : NameNulTest) (raw mask : Byte) :
    isTerminator t raw (raw ^^^ mask) = true ↔ (match t with | .demasked => raw = mask | .raw => raw = 0#8) := by
  cases t <;> simp [isTerminator]

theorem low8_eq_setWidth (x : DWord) : low8 x = x.setWidth 8 := by
  apply BitVec.eq_of_toNat_eq
  simp [low8]

end Sys2Proof.Machine
end

