-- ==== Sys2Proof/Laws/Memory.lean ====
section
/-! SUPPORT. The laws of DMEM: a read after a write, the canonical form kept by every operation, and what `scatter` and
`gather` do. -/

namespace Sys2Proof.Machine

/-! ### One byte -/

@[simp] theorem Memory.read_nil (o : Nat) : Memory.read [] o = none := rfl

theorem Memory.read_cons (a : Nat) (b : Byte) (m : Memory) (o : Nat) :
    Memory.read ((a, b) :: m) o = if a = o then some b else m.read o := rfl

/-- A byte just written reads back (R53). -/
@[simp] theorem Memory.read_write_same (m : Memory) (o : Nat) (v : Byte) : (m.write o v).read o = some v := by
  induction m with
  | nil => simp [Memory.write, Memory.read]
  | cons c rest ih =>
    obtain ⟨a, b⟩ := c
    simp only [Memory.write]
    split
    · simp [Memory.read]
    · split
      · simp [Memory.read]
      · rename_i h1 h2
        simp [Memory.read, Ne.symm h2, ih]

/-- A write leaves every other byte (R53). -/
theorem Memory.read_write_other (m : Memory) (o q : Nat) (v : Byte) (h : q ≠ o) : (m.write o v).read q = m.read q := by
  induction m with
  | nil => simp [Memory.write, Memory.read, Ne.symm h]
  | cons c rest ih =>
    obtain ⟨a, b⟩ := c
    simp only [Memory.write]
    split
    · simp [Memory.read, Ne.symm h]
    · split
      · rename_i h1 h2
        simp [Memory.read, ← h2, Ne.symm h]
      · simp [Memory.read, ih]

theorem Memory.read_write (m : Memory) (o q : Nat) (v : Byte) :
    (m.write o v).read q = if q = o then some v else m.read q := by
  split
  · rename_i h; simp [h]
  · rename_i h; exact m.read_write_other o q v h

/-! ### The canonical form -/

/-- Every offset of a canonical memory after its first entry is above it. -/
theorem Memory.wf_cons_iff (a : Nat) (b : Byte) (m : Memory) :
    Memory.wf ((a, b) :: m) = true ↔ (∀ c ∈ m.head?, a < c.1) ∧ m.wf = true := by
  cases m with
  | nil => simp [Memory.wf]
  | cons c rest => obtain ⟨x, y⟩ := c; simp [Memory.wf]

/-- The first offset after a write is the smaller of the written one and the first before it. -/
theorem Memory.head_write (m : Memory) (o : Nat) (v : Byte) :
    ∀ c ∈ (m.write o v).head?, c.1 = o ∨ ∃ d ∈ m.head?, c.1 = d.1 := by
  cases m with
  | nil => simp [Memory.write]
  | cons c rest =>
    obtain ⟨a, b⟩ := c
    simp only [Memory.write]
    split
    · simp
    · split <;> simp_all

/-- A write keeps the canonical form. -/
theorem Memory.wf_write (m : Memory) (o : Nat) (v : Byte) (h : m.wf = true) : (m.write o v).wf = true := by
  induction m with
  | nil => rfl
  | cons c rest ih =>
    obtain ⟨a, b⟩ := c
    have hc := (Memory.wf_cons_iff a b rest).1 h
    simp only [Memory.write]
    split
    · rename_i hlt
      exact (Memory.wf_cons_iff o v _).2 ⟨by simpa using hlt, h⟩
    · rename_i hge
      split
      · rename_i heq
        subst heq
        exact (Memory.wf_cons_iff o v rest).2 hc
      · rename_i hne
        refine (Memory.wf_cons_iff a b _).2 ⟨?_, ih hc.2⟩
        intro c hmem
        rcases Memory.head_write rest o v c hmem with e | ⟨d, hd, e⟩
        · omega
        · have := hc.1 d hd
          omega

/-- `scatter` keeps the canonical form. -/
theorem Memory.wf_scatter (offsets : List Nat) (bytes : List Byte) (m : Memory) (h : m.wf = true) :
    (m.scatter offsets bytes).wf = true := by
  induction offsets generalizing m bytes with
  | nil => exact h
  | cons o rest ih =>
    cases bytes with
    | nil => exact h
    | cons b bs => exact ih bs _ (m.wf_write o b h)

/-- `writeBytes` keeps the canonical form. -/
theorem Memory.wf_writeBytes (m : Memory) (a : Nat) (bytes : List Byte) (h : m.wf = true) :
    (m.writeBytes a bytes).wf = true :=
  Memory.wf_scatter _ _ m h

/-! ### Many bytes -/

/-- `scatter` leaves a byte at none of its offsets. -/
theorem Memory.read_scatter_other (offsets : List Nat) (bytes : List Byte) (m : Memory) (q : Nat) (h : q ∉ offsets) :
    (m.scatter offsets bytes).read q = m.read q := by
  induction offsets generalizing m bytes with
  | nil => rfl
  | cons o rest ih =>
    cases bytes with
    | nil => rfl
    | cons b bs =>
      rw [List.mem_cons, not_or] at h
      rw [Memory.scatter, ih bs _ h.2, Memory.read_write_other _ _ _ _ h.1]

/-- `scatter` puts the k-th byte at the k-th of distinct offsets. -/
theorem Memory.read_scatter_at (offsets : List Nat) (bytes : List Byte) (m : Memory) (k : Nat)
    (hd : offsets.Nodup) (hk : k < offsets.length) (hb : k < bytes.length) :
    (m.scatter offsets bytes).read offsets[k] = some bytes[k] := by
  induction offsets generalizing m bytes k with
  | nil => simp at hk
  | cons o rest ih =>
    cases bytes with
    | nil => simp at hb
    | cons b bs =>
      rw [List.nodup_cons] at hd
      cases k with
      | zero => simp [Memory.scatter, Memory.read_scatter_other _ _ _ _ hd.1]
      | succ k =>
        simp only [Memory.scatter, List.getElem_cons_succ]
        exact ih bs _ k hd.2 (by simpa using hk) (by simpa using hb)

/-- `gather` succeeds exactly with the list of the bytes at the offsets. -/
theorem Memory.gather_eq_some_iff (m : Memory) (offsets : List Nat) (bytes : List Byte) :
    m.gather offsets = some bytes ↔ offsets.map m.read = bytes.map some := by
  induction offsets generalizing bytes with
  | nil => cases bytes <;> simp [Memory.gather]
  | cons o rest ih =>
    cases hr : m.read o with
    | none => cases bytes <;> simp [Memory.gather, hr]
    | some b =>
      cases hg : m.gather rest with
      | none =>
        have hn : ∀ bs : List Byte, rest.map m.read ≠ bs.map some := fun bs e => by simpa [hg] using (ih bs).2 e
        cases bytes <;> simp [Memory.gather, hr, hg, hn]
      | some bs =>
        have := (ih bs).1 hg
        cases bytes with
        | nil => simp [Memory.gather, hr, hg]
        | cons c cs =>
          simp only [Memory.gather, hr, hg, Option.some.injEq, List.cons.injEq, List.map_cons, this]
          exact and_congr_right fun _ => (List.map_injective_iff.2 (Option.some_injective _)).eq_iff.symm

/-- `gather` fails exactly where one of the bytes is unwritten. -/
theorem Memory.gather_eq_none_iff (m : Memory) (offsets : List Nat) :
    m.gather offsets = none ↔ ∃ o ∈ offsets, m.read o = none := by
  induction offsets with
  | nil => simp [Memory.gather]
  | cons o rest ih =>
    cases hr : m.read o <;> cases hg : m.gather rest <;> simp_all [Memory.gather]

theorem Memory.gather_length {m : Memory} {offsets : List Nat} {bytes : List Byte} (h : m.gather offsets = some bytes) :
    bytes.length = offsets.length := by
  simpa using (congrArg List.length ((m.gather_eq_some_iff _ _).1 h)).symm

/-- The k-th byte `gather` returns is the byte at the k-th offset. -/
theorem Memory.gather_getElem {m : Memory} {offsets : List Nat} {bytes : List Byte} (h : m.gather offsets = some bytes)
    (k : Nat) (hk : k < offsets.length) (hb : k < bytes.length) : m.read offsets[k] = some bytes[k] := by
  have := congrArg (·[k]?) ((m.gather_eq_some_iff _ _).1 h)
  simpa [hk, hb] using this

/-- `gather` returns given bytes where each stands at its offset. -/
theorem Memory.gather_of_getElem {m : Memory} {offsets : List Nat} {bytes : List Byte}
    (hl : bytes.length = offsets.length)
    (h : ∀ k (hk : k < offsets.length), m.read offsets[k] = some (bytes[k]'(hl ▸ hk))) :
    m.gather offsets = some bytes := by
  refine (m.gather_eq_some_iff _ _).2 (List.ext_getElem (by simp [hl]) fun k h1 h2 => ?_)
  simpa using h k (by simpa using h1)

/-! ### Consecutive bytes -/

/-- The bytes `writeBytes` writes read back (R53). -/
theorem Memory.read_writeBytes_at (m : Memory) (a : Nat) (bytes : List Byte) (k : Nat) (hk : k < bytes.length) :
    (m.writeBytes a bytes).read (a + k) = some bytes[k] := by
  have := Memory.read_scatter_at (List.range' a bytes.length) bytes m k List.nodup_range' (by simpa using hk) hk
  simpa [Memory.writeBytes] using this

/-- `writeBytes` leaves every byte outside its range (R53). -/
theorem Memory.read_writeBytes_other (m : Memory) (a : Nat) (bytes : List Byte) (q : Nat)
    (h : q < a ∨ a + bytes.length ≤ q) : (m.writeBytes a bytes).read q = m.read q := by
  refine Memory.read_scatter_other _ _ m q ?_
  rw [List.mem_range'_1]
  omega

/-- `readBytes` returns given bytes exactly where each stands at its offset (R52). -/
theorem Memory.readBytes_eq_some_iff (m : Memory) (a n : Nat) (bytes : List Byte) :
    m.readBytes a n = some bytes ↔ bytes.length = n ∧ ∀ k (hk : k < bytes.length), m.read (a + k) = some bytes[k] := by
  constructor
  · intro h
    have hl : bytes.length = n := by simpa using Memory.gather_length h
    refine ⟨hl, fun k hk => ?_⟩
    have := Memory.gather_getElem h k (by simpa [← hl] using hk) hk
    simpa using this
  · rintro ⟨hl, h⟩
    refine Memory.gather_of_getElem (by simpa using hl) fun k hk => ?_
    simpa using h k (by simpa [hl] using hk)

/-- `readBytes` fails exactly where a byte of the range is unwritten (R52, R55). -/
theorem Memory.readBytes_eq_none_iff (m : Memory) (a n : Nat) :
    m.readBytes a n = none ↔ ∃ k, k < n ∧ m.read (a + k) = none := by
  rw [Memory.readBytes, Memory.gather_eq_none_iff]
  constructor
  · rintro ⟨o, ho, hr⟩
    rw [List.mem_range'_1] at ho
    exact ⟨o - a, by omega, by rwa [Nat.add_sub_cancel' ho.1]⟩
  · rintro ⟨k, hk, hr⟩
    exact ⟨a + k, by rw [List.mem_range'_1]; omega, hr⟩

end Sys2Proof.Machine
end

