-- ==== Sys2Proof/Laws/State.lean ====
section
/-! SUPPORT. One lemma per field per named update of State, and the flags of a completed STATUS. -/

namespace Sys2Proof.Machine

/-! ### `writeD` -/

@[simp] theorem State.writeD_ctrl (s : State) (r : DReg) (v : DWord) : (s.writeD r v).ctrl = s.ctrl := rfl
@[simp] theorem State.writeD_status (s : State) (r : DReg) (v : DWord) : (s.writeD r v).status = s.status := rfl
@[simp] theorem State.writeD_cmd (s : State) (r : DReg) (v : DWord) : (s.writeD r v).cmd = s.cmd := rfl
@[simp] theorem State.writeD_addr (s : State) (r : DReg) (v : DWord) : (s.writeD r v).addr = s.addr := rfl
@[simp] theorem State.writeD_len (s : State) (r : DReg) (v : DWord) : (s.writeD r v).len = s.len := rfl
@[simp] theorem State.writeD_dst (s : State) (r : DReg) (v : DWord) : (s.writeD r v).dst = s.dst := rfl
@[simp] theorem State.writeD_key (s : State) (r : DReg) (v : DWord) : (s.writeD r v).key = s.key := rfl
@[simp] theorem State.writeD_iv (s : State) (r : DReg) (v : DWord) : (s.writeD r v).iv = s.iv := rfl
@[simp] theorem State.writeD_prev (s : State) (r : DReg) (v : DWord) : (s.writeD r v).prev = s.prev := rfl
@[simp] theorem State.writeD_d (s : State) (r : DReg) (v : DWord) : (s.writeD r v).d = s.d.set r.val v := rfl
@[simp] theorem State.writeD_mem (s : State) (r : DReg) (v : DWord) : (s.writeD r v).mem = s.mem := rfl
@[simp] theorem State.writeD_host (s : State) (r : DReg) (v : DWord) : (s.writeD r v).host = s.host := rfl
@[simp] theorem State.writeD_resp (s : State) (r : DReg) (v : DWord) : (s.writeD r v).resp = s.resp := rfl
@[simp] theorem State.writeD_wait (s : State) (r : DReg) (v : DWord) : (s.writeD r v).wait = s.wait := rfl
@[simp] theorem State.writeD_draws (s : State) (r : DReg) (v : DWord) : (s.writeD r v).draws = s.draws := rfl

/-! ### `setMem` -/

@[simp] theorem State.setMem_ctrl (s : State) (m : Memory) : (s.setMem m).ctrl = s.ctrl := rfl
@[simp] theorem State.setMem_status (s : State) (m : Memory) : (s.setMem m).status = s.status := rfl
@[simp] theorem State.setMem_cmd (s : State) (m : Memory) : (s.setMem m).cmd = s.cmd := rfl
@[simp] theorem State.setMem_addr (s : State) (m : Memory) : (s.setMem m).addr = s.addr := rfl
@[simp] theorem State.setMem_len (s : State) (m : Memory) : (s.setMem m).len = s.len := rfl
@[simp] theorem State.setMem_dst (s : State) (m : Memory) : (s.setMem m).dst = s.dst := rfl
@[simp] theorem State.setMem_key (s : State) (m : Memory) : (s.setMem m).key = s.key := rfl
@[simp] theorem State.setMem_iv (s : State) (m : Memory) : (s.setMem m).iv = s.iv := rfl
@[simp] theorem State.setMem_prev (s : State) (m : Memory) : (s.setMem m).prev = s.prev := rfl
@[simp] theorem State.setMem_d (s : State) (m : Memory) : (s.setMem m).d = s.d := rfl
@[simp] theorem State.setMem_mem (s : State) (m : Memory) : (s.setMem m).mem = m := rfl
@[simp] theorem State.setMem_host (s : State) (m : Memory) : (s.setMem m).host = s.host := rfl
@[simp] theorem State.setMem_resp (s : State) (m : Memory) : (s.setMem m).resp = s.resp := rfl
@[simp] theorem State.setMem_wait (s : State) (m : Memory) : (s.setMem m).wait = s.wait := rfl
@[simp] theorem State.setMem_draws (s : State) (m : Memory) : (s.setMem m).draws = s.draws := rfl

/-! ### `setPrev` -/

@[simp] theorem State.setPrev_ctrl (s : State) (b : Block) : (s.setPrev b).ctrl = s.ctrl := rfl
@[simp] theorem State.setPrev_status (s : State) (b : Block) : (s.setPrev b).status = s.status := rfl
@[simp] theorem State.setPrev_cmd (s : State) (b : Block) : (s.setPrev b).cmd = s.cmd := rfl
@[simp] theorem State.setPrev_addr (s : State) (b : Block) : (s.setPrev b).addr = s.addr := rfl
@[simp] theorem State.setPrev_len (s : State) (b : Block) : (s.setPrev b).len = s.len := rfl
@[simp] theorem State.setPrev_dst (s : State) (b : Block) : (s.setPrev b).dst = s.dst := rfl
@[simp] theorem State.setPrev_key (s : State) (b : Block) : (s.setPrev b).key = s.key := rfl
@[simp] theorem State.setPrev_iv (s : State) (b : Block) : (s.setPrev b).iv = s.iv := rfl
@[simp] theorem State.setPrev_prev (s : State) (b : Block) : (s.setPrev b).prev = groupOfBytes b := rfl
@[simp] theorem State.setPrev_d (s : State) (b : Block) : (s.setPrev b).d = s.d := rfl
@[simp] theorem State.setPrev_mem (s : State) (b : Block) : (s.setPrev b).mem = s.mem := rfl
@[simp] theorem State.setPrev_host (s : State) (b : Block) : (s.setPrev b).host = s.host := rfl
@[simp] theorem State.setPrev_resp (s : State) (b : Block) : (s.setPrev b).resp = s.resp := rfl
@[simp] theorem State.setPrev_wait (s : State) (b : Block) : (s.setPrev b).wait = s.wait := rfl
@[simp] theorem State.setPrev_draws (s : State) (b : Block) : (s.setPrev b).draws = s.draws := rfl

/-! ### `advance` -/

@[simp] theorem State.advance_ctrl (s : State) (n : Nat) : (s.advance n).ctrl = s.ctrl := rfl
@[simp] theorem State.advance_status (s : State) (n : Nat) : (s.advance n).status = s.status := rfl
@[simp] theorem State.advance_cmd (s : State) (n : Nat) : (s.advance n).cmd = s.cmd := rfl
@[simp] theorem State.advance_addr (s : State) (n : Nat) : (s.advance n).addr = s.addr + BitVec.ofNat 32 n := rfl
@[simp] theorem State.advance_len (s : State) (n : Nat) : (s.advance n).len = s.len := rfl
@[simp] theorem State.advance_dst (s : State) (n : Nat) : (s.advance n).dst = s.dst := rfl
@[simp] theorem State.advance_key (s : State) (n : Nat) : (s.advance n).key = s.key := rfl
@[simp] theorem State.advance_iv (s : State) (n : Nat) : (s.advance n).iv = s.iv := rfl
@[simp] theorem State.advance_prev (s : State) (n : Nat) : (s.advance n).prev = s.prev := rfl
@[simp] theorem State.advance_d (s : State) (n : Nat) : (s.advance n).d = s.d := rfl
@[simp] theorem State.advance_mem (s : State) (n : Nat) : (s.advance n).mem = s.mem := rfl
@[simp] theorem State.advance_host (s : State) (n : Nat) : (s.advance n).host = s.host := rfl
@[simp] theorem State.advance_resp (s : State) (n : Nat) : (s.advance n).resp = s.resp := rfl
@[simp] theorem State.advance_wait (s : State) (n : Nat) : (s.advance n).wait = s.wait := rfl
@[simp] theorem State.advance_draws (s : State) (n : Nat) : (s.advance n).draws = s.draws := rfl

/-! ### `consumeLen` -/

@[simp] theorem State.consumeLen_ctrl (s : State) (n : Nat) : (s.consumeLen n).ctrl = s.ctrl := rfl
@[simp] theorem State.consumeLen_status (s : State) (n : Nat) : (s.consumeLen n).status = s.status := rfl
@[simp] theorem State.consumeLen_cmd (s : State) (n : Nat) : (s.consumeLen n).cmd = s.cmd := rfl
@[simp] theorem State.consumeLen_addr (s : State) (n : Nat) : (s.consumeLen n).addr = s.addr := rfl
@[simp] theorem State.consumeLen_len (s : State) (n : Nat) : (s.consumeLen n).len = s.len - BitVec.ofNat 32 n := rfl
@[simp] theorem State.consumeLen_dst (s : State) (n : Nat) : (s.consumeLen n).dst = s.dst := rfl
@[simp] theorem State.consumeLen_key (s : State) (n : Nat) : (s.consumeLen n).key = s.key := rfl
@[simp] theorem State.consumeLen_iv (s : State) (n : Nat) : (s.consumeLen n).iv = s.iv := rfl
@[simp] theorem State.consumeLen_prev (s : State) (n : Nat) : (s.consumeLen n).prev = s.prev := rfl
@[simp] theorem State.consumeLen_d (s : State) (n : Nat) : (s.consumeLen n).d = s.d := rfl
@[simp] theorem State.consumeLen_mem (s : State) (n : Nat) : (s.consumeLen n).mem = s.mem := rfl
@[simp] theorem State.consumeLen_host (s : State) (n : Nat) : (s.consumeLen n).host = s.host := rfl
@[simp] theorem State.consumeLen_resp (s : State) (n : Nat) : (s.consumeLen n).resp = s.resp := rfl
@[simp] theorem State.consumeLen_wait (s : State) (n : Nat) : (s.consumeLen n).wait = s.wait := rfl
@[simp] theorem State.consumeLen_draws (s : State) (n : Nat) : (s.consumeLen n).draws = s.draws := rfl

/-! ### `setValid` -/

@[simp] theorem State.setValid_ctrl (s : State) (v : Bool) : (s.setValid v).ctrl = s.ctrl := rfl
@[simp] theorem State.setValid_status (s : State) (v : Bool) : (s.setValid v).status = { s.status with valid := v } := rfl
@[simp] theorem State.setValid_cmd (s : State) (v : Bool) : (s.setValid v).cmd = s.cmd := rfl
@[simp] theorem State.setValid_addr (s : State) (v : Bool) : (s.setValid v).addr = s.addr := rfl
@[simp] theorem State.setValid_len (s : State) (v : Bool) : (s.setValid v).len = s.len := rfl
@[simp] theorem State.setValid_dst (s : State) (v : Bool) : (s.setValid v).dst = s.dst := rfl
@[simp] theorem State.setValid_key (s : State) (v : Bool) : (s.setValid v).key = s.key := rfl
@[simp] theorem State.setValid_iv (s : State) (v : Bool) : (s.setValid v).iv = s.iv := rfl
@[simp] theorem State.setValid_prev (s : State) (v : Bool) : (s.setValid v).prev = s.prev := rfl
@[simp] theorem State.setValid_d (s : State) (v : Bool) : (s.setValid v).d = s.d := rfl
@[simp] theorem State.setValid_mem (s : State) (v : Bool) : (s.setValid v).mem = s.mem := rfl
@[simp] theorem State.setValid_host (s : State) (v : Bool) : (s.setValid v).host = s.host := rfl
@[simp] theorem State.setValid_resp (s : State) (v : Bool) : (s.setValid v).resp = s.resp := rfl
@[simp] theorem State.setValid_wait (s : State) (v : Bool) : (s.setValid v).wait = s.wait := rfl
@[simp] theorem State.setValid_draws (s : State) (v : Bool) : (s.setValid v).draws = s.draws := rfl

/-! ### `finish` -/

@[simp] theorem State.finish_ctrl (s : State) (c : BitVec 4) : (s.finish c).ctrl = s.ctrl := rfl
@[simp] theorem State.finish_status (s : State) (c : BitVec 4) : (s.finish c).status = s.status.completed c := rfl
@[simp] theorem State.finish_cmd (s : State) (c : BitVec 4) : (s.finish c).cmd = s.cmd := rfl
@[simp] theorem State.finish_addr (s : State) (c : BitVec 4) : (s.finish c).addr = s.addr := rfl
@[simp] theorem State.finish_len (s : State) (c : BitVec 4) : (s.finish c).len = s.len := rfl
@[simp] theorem State.finish_dst (s : State) (c : BitVec 4) : (s.finish c).dst = s.dst := rfl
@[simp] theorem State.finish_key (s : State) (c : BitVec 4) : (s.finish c).key = s.key := rfl
@[simp] theorem State.finish_iv (s : State) (c : BitVec 4) : (s.finish c).iv = s.iv := rfl
@[simp] theorem State.finish_prev (s : State) (c : BitVec 4) : (s.finish c).prev = s.prev := rfl
@[simp] theorem State.finish_d (s : State) (c : BitVec 4) : (s.finish c).d = s.d := rfl
@[simp] theorem State.finish_mem (s : State) (c : BitVec 4) : (s.finish c).mem = s.mem := rfl
@[simp] theorem State.finish_host (s : State) (c : BitVec 4) : (s.finish c).host = s.host := rfl
@[simp] theorem State.finish_resp (s : State) (c : BitVec 4) : (s.finish c).resp = s.resp := rfl
@[simp] theorem State.finish_wait (s : State) (c : BitVec 4) : (s.finish c).wait = s.wait := rfl
@[simp] theorem State.finish_draws (s : State) (c : BitVec 4) : (s.finish c).draws = s.draws := rfl

/-! ### `respond` -/

@[simp] theorem State.respond_ctrl (s : State) (r : BusResponse) : (s.respond r).ctrl = s.ctrl := rfl
@[simp] theorem State.respond_status (s : State) (r : BusResponse) : (s.respond r).status = s.status := rfl
@[simp] theorem State.respond_cmd (s : State) (r : BusResponse) : (s.respond r).cmd = s.cmd := rfl
@[simp] theorem State.respond_addr (s : State) (r : BusResponse) : (s.respond r).addr = s.addr := rfl
@[simp] theorem State.respond_len (s : State) (r : BusResponse) : (s.respond r).len = s.len := rfl
@[simp] theorem State.respond_dst (s : State) (r : BusResponse) : (s.respond r).dst = s.dst := rfl
@[simp] theorem State.respond_key (s : State) (r : BusResponse) : (s.respond r).key = s.key := rfl
@[simp] theorem State.respond_iv (s : State) (r : BusResponse) : (s.respond r).iv = s.iv := rfl
@[simp] theorem State.respond_prev (s : State) (r : BusResponse) : (s.respond r).prev = s.prev := rfl
@[simp] theorem State.respond_d (s : State) (r : BusResponse) : (s.respond r).d = s.d := rfl
@[simp] theorem State.respond_mem (s : State) (r : BusResponse) : (s.respond r).mem = s.mem := rfl
@[simp] theorem State.respond_host (s : State) (r : BusResponse) : (s.respond r).host = s.host := rfl
@[simp] theorem State.respond_resp (s : State) (r : BusResponse) : (s.respond r).resp = some r := rfl
@[simp] theorem State.respond_wait (s : State) (r : BusResponse) : (s.respond r).wait = s.wait := rfl
@[simp] theorem State.respond_draws (s : State) (r : BusResponse) : (s.respond r).draws = s.draws := rfl

/-! ### `ignoreWrite` -/

@[simp] theorem State.ignoreWrite_ctrl (s : State) : s.ignoreWrite.ctrl = s.ctrl := rfl
@[simp] theorem State.ignoreWrite_status (s : State) : s.ignoreWrite.status = s.status.misused := rfl
@[simp] theorem State.ignoreWrite_cmd (s : State) : s.ignoreWrite.cmd = s.cmd := rfl
@[simp] theorem State.ignoreWrite_addr (s : State) : s.ignoreWrite.addr = s.addr := rfl
@[simp] theorem State.ignoreWrite_len (s : State) : s.ignoreWrite.len = s.len := rfl
@[simp] theorem State.ignoreWrite_dst (s : State) : s.ignoreWrite.dst = s.dst := rfl
@[simp] theorem State.ignoreWrite_key (s : State) : s.ignoreWrite.key = s.key := rfl
@[simp] theorem State.ignoreWrite_iv (s : State) : s.ignoreWrite.iv = s.iv := rfl
@[simp] theorem State.ignoreWrite_prev (s : State) : s.ignoreWrite.prev = s.prev := rfl
@[simp] theorem State.ignoreWrite_d (s : State) : s.ignoreWrite.d = s.d := rfl
@[simp] theorem State.ignoreWrite_mem (s : State) : s.ignoreWrite.mem = s.mem := rfl
@[simp] theorem State.ignoreWrite_host (s : State) : s.ignoreWrite.host = s.host := rfl
@[simp] theorem State.ignoreWrite_resp (s : State) : s.ignoreWrite.resp = s.resp := rfl
@[simp] theorem State.ignoreWrite_wait (s : State) : s.ignoreWrite.wait = s.wait := rfl
@[simp] theorem State.ignoreWrite_draws (s : State) : s.ignoreWrite.draws = s.draws := rfl

/-! ### `issue` -/

@[simp] theorem State.issue_ctrl (s : State) (w : Word) : (s.issue w).ctrl = s.ctrl := rfl
@[simp] theorem State.issue_status (s : State) (w : Word) : (s.issue w).status = s.status.issued := rfl
@[simp] theorem State.issue_cmd (s : State) (w : Word) : (s.issue w).cmd = w := rfl
@[simp] theorem State.issue_addr (s : State) (w : Word) : (s.issue w).addr = s.addr := rfl
@[simp] theorem State.issue_len (s : State) (w : Word) : (s.issue w).len = s.len := rfl
@[simp] theorem State.issue_dst (s : State) (w : Word) : (s.issue w).dst = s.dst := rfl
@[simp] theorem State.issue_key (s : State) (w : Word) : (s.issue w).key = s.key := rfl
@[simp] theorem State.issue_iv (s : State) (w : Word) : (s.issue w).iv = s.iv := rfl
@[simp] theorem State.issue_prev (s : State) (w : Word) : (s.issue w).prev = s.prev := rfl
@[simp] theorem State.issue_d (s : State) (w : Word) : (s.issue w).d = s.d := rfl
@[simp] theorem State.issue_mem (s : State) (w : Word) : (s.issue w).mem = s.mem := rfl
@[simp] theorem State.issue_host (s : State) (w : Word) : (s.issue w).host = s.host := rfl
@[simp] theorem State.issue_resp (s : State) (w : Word) : (s.issue w).resp = s.resp := rfl
@[simp] theorem State.issue_wait (s : State) (w : Word) : (s.issue w).wait = Config.freeWait s.draws := rfl
@[simp] theorem State.issue_draws (s : State) (w : Word) : (s.issue w).draws = s.draws + 1 := rfl

/-! ### `pending` -/

@[simp] theorem State.pending_ctrl (s : State) (w : Word) : (s.pending w).ctrl = s.ctrl := rfl
@[simp] theorem State.pending_status (s : State) (w : Word) : (s.pending w).status = s.status.issued := rfl
@[simp] theorem State.pending_cmd (s : State) (w : Word) : (s.pending w).cmd = w := rfl
@[simp] theorem State.pending_addr (s : State) (w : Word) : (s.pending w).addr = s.addr := rfl
@[simp] theorem State.pending_len (s : State) (w : Word) : (s.pending w).len = s.len := rfl
@[simp] theorem State.pending_dst (s : State) (w : Word) : (s.pending w).dst = s.dst := rfl
@[simp] theorem State.pending_key (s : State) (w : Word) : (s.pending w).key = s.key := rfl
@[simp] theorem State.pending_iv (s : State) (w : Word) : (s.pending w).iv = s.iv := rfl
@[simp] theorem State.pending_prev (s : State) (w : Word) : (s.pending w).prev = s.prev := rfl
@[simp] theorem State.pending_d (s : State) (w : Word) : (s.pending w).d = s.d := rfl
@[simp] theorem State.pending_mem (s : State) (w : Word) : (s.pending w).mem = s.mem := rfl
@[simp] theorem State.pending_host (s : State) (w : Word) : (s.pending w).host = s.host := rfl
@[simp] theorem State.pending_resp (s : State) (w : Word) : (s.pending w).resp = s.resp := rfl
@[simp] theorem State.pending_wait (s : State) (w : Word) : (s.pending w).wait = 0 := rfl
@[simp] theorem State.pending_draws (s : State) (w : Word) : (s.pending w).draws = s.draws := rfl

/-! ### STATUS -/

@[simp] theorem Status.completed_busy (st : Status) (c : BitVec 4) : (st.completed c).busy = false := rfl
@[simp] theorem Status.completed_done (st : Status) (c : BitVec 4) : (st.completed c).done = true := rfl
@[simp] theorem Status.completed_valid (st : Status) (c : BitVec 4) : (st.completed c).valid = st.valid := rfl
@[simp] theorem Status.completed_berr (st : Status) (c : BitVec 4) : (st.completed c).berr = st.berr := rfl
@[simp] theorem Status.completed_err (st : Status) (c : BitVec 4) : (st.completed c).err = c := rfl

@[simp] theorem Status.issued_busy (st : Status) : (st.issued).busy = true := rfl
@[simp] theorem Status.issued_done (st : Status) : (st.issued).done = false := rfl
@[simp] theorem Status.issued_valid (st : Status) : (st.issued).valid = st.valid := rfl
@[simp] theorem Status.issued_berr (st : Status) : (st.issued).berr = st.berr := rfl
@[simp] theorem Status.issued_err (st : Status) : (st.issued).err = 0#4 := rfl

@[simp] theorem Status.acknowledged_busy (st : Status) (v : Word) : (st.acknowledged v).busy = st.busy := rfl
@[simp] theorem Status.acknowledged_done (st : Status) (v : Word) : (st.acknowledged v).done = (st.done && !v.getLsbD 1) := rfl
@[simp] theorem Status.acknowledged_valid (st : Status) (v : Word) : (st.acknowledged v).valid = st.valid := rfl
@[simp] theorem Status.acknowledged_berr (st : Status) (v : Word) : (st.acknowledged v).berr = (st.berr && !v.getLsbD 3) := rfl
@[simp] theorem Status.acknowledged_err (st : Status) (v : Word) : (st.acknowledged v).err = st.err := rfl

@[simp] theorem Status.misused_busy (st : Status) : (st.misused).busy = st.busy := rfl
@[simp] theorem Status.misused_done (st : Status) : (st.misused).done = st.done := rfl
@[simp] theorem Status.misused_valid (st : Status) : (st.misused).valid = st.valid := rfl
@[simp] theorem Status.misused_berr (st : Status) : (st.misused).berr = true := rfl
@[simp] theorem Status.misused_err (st : Status) : (st.misused).err = st.err := rfl

/-! ### D registers -/

/-- `D[r] <- v` then reading `D[r]` (R9, R161). -/
@[simp] theorem State.readD_writeD_same (s : State) (r : DReg) (v : DWord) : (s.writeD r v).readD r = v := by
  simp [State.readD, State.writeD]

/-- `D[r] <- v` leaves every other D register. -/
theorem State.readD_writeD_other (s : State) (r q : DReg) (v : DWord) (h : q ≠ r) :
    (s.writeD r v).readD q = s.readD q := by
  have hv : r.val ≠ q.val := fun e => h (Fin.ext e.symm)
  simp [State.readD, State.writeD, hv]

@[simp] theorem State.setMem_readD (s : State) (m : Memory) (q : DReg) : (s.setMem m).readD q = s.readD q := rfl
@[simp] theorem State.setPrev_readD (s : State) (b : Block) (q : DReg) : (s.setPrev b).readD q = s.readD q := rfl
@[simp] theorem State.advance_readD (s : State) (n : Nat) (q : DReg) : (s.advance n).readD q = s.readD q := rfl
@[simp] theorem State.consumeLen_readD (s : State) (n : Nat) (q : DReg) : (s.consumeLen n).readD q = s.readD q := rfl
@[simp] theorem State.setValid_readD (s : State) (v : Bool) (q : DReg) : (s.setValid v).readD q = s.readD q := rfl
@[simp] theorem State.finish_readD (s : State) (c : BitVec 4) (q : DReg) : (s.finish c).readD q = s.readD q := rfl
@[simp] theorem State.respond_readD (s : State) (r : BusResponse) (q : DReg) : (s.respond r).readD q = s.readD q := rfl
@[simp] theorem State.ignoreWrite_readD (s : State) (q : DReg) : s.ignoreWrite.readD q = s.readD q := rfl
@[simp] theorem State.issue_readD (s : State) (w : Word) (q : DReg) : (s.issue w).readD q = s.readD q := rfl
@[simp] theorem State.pending_readD (s : State) (w : Word) (q : DReg) : (s.pending w).readD q = s.readD q := rfl

end Sys2Proof.Machine
end

