-- ==== Sys2Proof/Laws/Ops.lean ====
section
/-! SUPPORT. What the shared operations can do: the checks of a command's pseudocode, MemRead, the completion of a command,
and the two ways of reading a 4-register group. -/

namespace Sys2Proof.Machine

/-! ### Checks -/

@[simp] theorem require_true (c : ErrCode) : require true c = .ok () := rfl

@[simp] theorem require_false (c : ErrCode) : require false c = .error (.error c) := rfl

theorem require_eq_ok_iff (b : Bool) (c : ErrCode) (u : Unit) : require b c = .ok u ↔ b = true := by
  cases b <;> simp

@[simp] theorem written_some (x : α) : written (some x) = .ok x := rfl

@[simp] theorem written_none : written (none : Option α) = .error (.fault .unwrittenRead) := rfl

/-- `do` over a step that succeeded. -/
@[simp] theorem ok_bind (x : α) (f : α → Except Stop β) : ((Except.ok x : Except Stop α) >>= f) = f x := rfl

/-- `do` over a step that ended the command. -/
@[simp] theorem error_bind (e : Stop) (f : α → Except Stop β) : ((Except.error e : Except Stop α) >>= f) = .error e := rfl

/-- A `do` that succeeds: its first step succeeded, and the rest on its result. -/
theorem bind_eq_ok_iff (x : Except Stop α) (f : α → Except Stop β) (b : β) :
    (x >>= f) = .ok b ↔ ∃ a, x = .ok a ∧ f a = .ok b := by
  cases x <;> simp

theorem inRange_iff (p : Params) (a n : Nat) : inRange p a n = true ↔ a + n ≤ dmemBytes p := by
  simp [inRange]

/-- DMEM_BYTES is a multiple of 16 from 512 to 2^24 (R5, D44). -/
theorem dmemBytes_bounds (p : Params) : 512 ≤ dmemBytes p ∧ dmemBytes p ≤ 2 ^ 24 ∧ dmemBytes p % 16 = 0 := by
  have := p.dmemExtra.isLt
  unfold dmemBytes
  omega

/-- `MemRead` succeeds exactly in range and on written bytes (R52). -/
theorem memRead_eq_ok_iff (p : Params) (m : Memory) (a n : Nat) (bytes : List Byte) :
    memRead p m a n = .ok bytes ↔ inRange p a n = true ∧ m.readBytes a n = some bytes := by
  unfold memRead
  cases inRange p a n <;> cases m.readBytes a n <;> simp

/-- `MemRead` of written bytes in range. -/
theorem memRead_of_some {p : Params} {m : Memory} {a n : Nat} {bytes : List Byte} (hr : inRange p a n = true)
    (h : m.readBytes a n = some bytes) : memRead p m a n = .ok bytes :=
  (memRead_eq_ok_iff p m a n bytes).2 ⟨hr, h⟩

/-- `MemRead` of an unwritten byte in range is the model fault (R52, R55). -/
theorem memRead_of_none {p : Params} {m : Memory} {a n : Nat} (hr : inRange p a n = true) (h : m.readBytes a n = none) :
    memRead p m a n = .error (.fault .unwrittenRead) := by
  simp [memRead, hr, h]

/-! ### Completion -/

@[simp] theorem complete_ok (s s' : State) : complete s (.ok s') = .next (s'.finish 0#4) := rfl

@[simp] theorem complete_error (s : State) (c : ErrCode) : complete s (.error (.error c)) = .next (s.finish c.code) := rfl

@[simp] theorem complete_fault (s : State) (f : Fault) : complete s (.error (.fault f)) = .fault f := rfl

/-- A command's next state is its own state completed with 0, or the state before it completed with an error code (R201,
R222). -/
theorem complete_eq_next_iff (s t : State) (r : Except Stop State) :
    complete s r = .next t ↔
      (∃ s', r = .ok s' ∧ t = s'.finish 0#4) ∨ (∃ c, r = .error (.error c) ∧ t = s.finish c.code) := by
  rcases r with (c | f) | s' <;> simp [eq_comm]

/-- A command faults exactly where its pseudocode does (R230). -/
theorem complete_eq_fault_iff (s : State) (r : Except Stop State) (f : Fault) :
    complete s r = .fault f ↔ r = .error (.fault f) := by
  rcases r with (c | f') | s' <;> simp

/-- No command is refused. -/
theorem complete_ne_refused (s : State) (r : Except Stop State) (x : Refusal) : complete s r ≠ .refused x := by
  rcases r with (c | f) | s' <;> simp

theorem ErrCode.code_ne_zero (c : ErrCode) : c.code ≠ 0#4 := by cases c <;> decide

theorem ErrCode.code_le (c : ErrCode) : c.code.toNat ≤ 4 := by cases c <;> decide

/-! ### Bytes of registers -/

theorem byteOfWord_wordOfBytes (b0 b1 b2 b3 : Byte) :
    byteOfWord (wordOfBytes b0 b1 b2 b3) 0 = b0 ∧ byteOfWord (wordOfBytes b0 b1 b2 b3) 1 = b1 ∧
      byteOfWord (wordOfBytes b0 b1 b2 b3) 2 = b2 ∧ byteOfWord (wordOfBytes b0 b1 b2 b3) 3 = b3 := by
  refine ⟨?_, ?_, ?_, ?_⟩ <;>
  · ext j hj
    simp only [byteOfWord, wordOfBytes, BitVec.getElem_extractLsb', BitVec.getLsbD_append]
    simp [show j < 8 from hj, show ¬ (24 + j < 8) by omega, show ¬ (24 + j - 8 < 8) by omega,
      show ¬ (24 + j - 8 - 8 < 8) by omega, show 24 + j - 8 - 8 - 8 = j by omega,
      show ¬ (16 + j < 8) by omega, show ¬ (16 + j - 8 < 8) by omega, show 16 + j - 8 - 8 = j by omega,
      show ¬ (8 + j < 8) by omega, show 8 + j - 8 = j by omega]

/-- A block put into a 4-register group reads back (R11, R43). -/
@[simp] theorem groupBytes_groupOfBytes (b : Block) : groupBytes (groupOfBytes b) = b := by
  ext i hi : 1
  simp only [groupBytes, groupOfBytes, Vector.getElem_ofFn]
  have h := byteOfWord_wordOfBytes (b[4 * (i / 4)]'(by omega)) (b[4 * (i / 4) + 1]'(by omega))
    (b[4 * (i / 4) + 2]'(by omega)) (b[4 * (i / 4) + 3]'(by omega))
  have hm : i % 4 = 0 ∨ i % 4 = 1 ∨ i % 4 = 2 ∨ i % 4 = 3 := by omega
  rcases hm with e | e | e | e
  · rw [e, h.1]; congr 1; omega
  · rw [e, h.2.1]; congr 1; omega
  · rw [e, h.2.2.1]; congr 1; omega
  · rw [e, h.2.2.2]; congr 1; omega

/-- Byte `k` of a register as a digit of its value (R41 to R43, R51). -/
theorem byteOfWord_toNat (w : Word) (k : Nat) : (byteOfWord w k).toNat = w.toNat / 2 ^ (24 - 8 * k) % 256 := by
  simp [byteOfWord, BitVec.extractLsb'_toNat, Nat.shiftRight_eq_div_pow]

/-- Byte `4i + k` of a 4-register group is byte `k` of register `i` (R42, R43). -/
theorem groupBytes_getElem (g : Vector Word 4) (i k : Fin 4) :
    (groupBytes g)[4 * i.val + k.val]'(by omega) = byteOfWord g[i] k.val := by
  simp only [groupBytes, Vector.getElem_ofFn, Fin.getElem_fin]
  congr 1
  · congr 1; omega
  · omega

@[simp] theorem State.prevBytes_setPrev (s : State) (b : Block) : (s.setPrev b).prevBytes = b := by
  simp [State.prevBytes]

theorem State.prevBytes_finish (s : State) (c : BitVec 4) : (s.finish c).prevBytes = s.prevBytes := rfl

theorem State.activeKey_length (s : State) : s.activeKey.length = if s.ctrl.ksz then 32 else 16 := by
  cases h : s.ctrl.ksz <;> simp [State.activeKey, h]

end Sys2Proof.Machine
end

