-- ==== Sys2Proof/Laws/Commands.lean ====
section
/-! SUPPORT. One inversion lemma per command body: when it succeeds, with what state. -/

namespace Sys2Proof.Machine

/-- DLD16 and DLD32 (R162, R163). -/
theorem loadStream_eq_ok_iff (p : Params) (n : Nat) (rd : DReg) (s s' : State) :
    loadStream p n rd s = .ok s' ↔
      inRange p s.addr.toNat n = true ∧ ∃ bytes, s.mem.readBytes s.addr.toNat n = some bytes ∧
        s' = (s.writeD rd (BitVec.ofNat 64 (beValue bytes))).advance n := by
  simp only [loadStream, bind_eq_ok_iff, require_eq_ok_iff, memRead_eq_ok_iff, pure, Except.pure, Except.ok.injEq]
  constructor
  · rintro ⟨_, h, bytes, ⟨_, hb⟩, rfl⟩; exact ⟨h, bytes, hb, rfl⟩
  · rintro ⟨h, bytes, hb, rfl⟩; exact ⟨(), h, bytes, ⟨h, hb⟩, rfl⟩

/-- The 16- and 32-bit rotations (R77, R168, R169, R184, R185). -/
theorem rotateInto_eq_ok_iff (width : Nat) (rd : DReg) (imm : Imm6) (v : DWord) (s s' : State) :
    rotateInto width rd imm v s = .ok s' ↔ Imm6.below imm width = true ∧ s' = s.writeD rd v := by
  unfold rotateInto
  cases Imm6.below imm width <;> simp [pure, Except.pure, eq_comm]

/-- ENCB (R121). -/
theorem encb_eq_ok_iff (p : Params) (s s' : State) :
    encb p s = .ok s' ↔
      inRange p s.addr.toNat 16 = true ∧ inRange p s.dst.toNat 16 = true ∧
        ∃ src, s.mem.readBytes s.addr.toNat 16 = some src ∧
          s' = s.setMem (s.mem.writeBytes s.dst.toNat (enc p s.activeKey (blockOfList src)).toList) := by
  simp only [encb, bind_eq_ok_iff, require_eq_ok_iff, memRead_eq_ok_iff, pure, Except.pure, Except.ok.injEq]
  constructor
  · rintro ⟨_, h, _, hd, src, ⟨_, hs⟩, rfl⟩; exact ⟨h, hd, src, hs, rfl⟩
  · rintro ⟨h, hd, src, hs, rfl⟩; exact ⟨(), h, (), hd, src, ⟨h, hs⟩, rfl⟩

/-- KSTEP (R138). -/
theorem kstep_eq_ok_iff (p : Params) (s s' : State) :
    kstep p s = .ok s' ↔
      s.len.toNat ≠ 0 ∧ inRange p s.addr.toNat (min 16 s.len.toNat) = true ∧
        ∃ c, s.mem.readBytes s.addr.toNat (min 16 s.len.toNat) = some c ∧
          s' = (((s.setMem (s.mem.writeBytes s.addr.toNat (xorKeystream c (enc p s.activeKey s.prevBytes)))).setPrev
            (evolve p (enc p s.activeKey s.prevBytes))).advance (min 16 s.len.toNat)).consumeLen (min 16 s.len.toNat) := by
  simp only [kstep, bind_eq_ok_iff, require_eq_ok_iff, memRead_eq_ok_iff, pure, Except.pure, Except.ok.injEq, bne_iff_ne]
  constructor
  · rintro ⟨_, h, _, hr, c, ⟨_, hc⟩, rfl⟩; exact ⟨h, hr, c, hc, rfl⟩
  · rintro ⟨h, hr, c, hc, rfl⟩; exact ⟨(), h, (), hr, c, ⟨hr, hc⟩, rfl⟩

/-- CHAIN on a small buffer in range (R134, R139). -/
theorem chainWhole_eq_ok_iff (p : Params) (s s' : State) (hr : inRange p s.addr.toNat s.len.toNat = true) :
    chainWhole p s = .ok s' ↔
      ∃ buf, s.mem.readBytes s.addr.toNat s.len.toNat = some buf ∧
        s' = (s.setMem (s.mem.writeBytes s.addr.toNat (chainSmall p s.activeKey buf s.ivBytes).1)).setPrev
          (chainSmall p s.activeKey buf s.ivBytes).2 := by
  simp only [chainWhole, bind_eq_ok_iff, memRead_eq_ok_iff, pure, Except.pure, Except.ok.injEq, hr, true_and]
  exact exists_congr fun _ => and_congr_right fun _ => eq_comm

/-- CHAIN on a large buffer (R137, R139). -/
theorem chainSampled_eq_ok_iff (p : Params) (s s' : State) :
    chainSampled p s = .ok s' ↔
      ∃ gathered, s.mem.gather ((samplePositions s.len.toNat).map (s.addr.toNat + ·)) = some gathered ∧
        s' = (s.setMem (s.mem.scatter ((samplePositions s.len.toNat).map (s.addr.toNat + ·))
          (chainSmall p s.activeKey (sampleBuffer gathered) s.ivBytes).1)).setPrev
          (chainSmall p s.activeKey (sampleBuffer gathered) s.ivBytes).2 := by
  unfold chainSampled
  cases h : s.mem.gather ((samplePositions s.len.toNat).map (s.addr.toNat + ·)) <;>
    simp [h, pure, Except.pure, eq_comm]

/-- CHAIN (R139): the whole buffer in range, then the path LEN selects. -/
theorem chain_eq_ok_iff (p : Params) (s s' : State) :
    chain p s = .ok s' ↔
      inRange p s.addr.toNat s.len.toNat = true ∧
        (if s.len.toNat ≤ smallLimit then chainWhole p s else chainSampled p s) = .ok s' := by
  unfold chain
  cases inRange p s.addr.toNat s.len.toNat <;> simp

/-- DMASK (R173). -/
theorem demaskName_eq_ok_iff (p : Params) (rd rs1 : DReg) (s s' : State) :
    demaskName p rd rs1 s = .ok s' ↔
      ∃ scan, scanName p s.mem (low8 (s.readD rs1)) nameCap s.addr.toNat = .ok scan ∧
        inRange p s.dst.toNat scan.1.length = true ∧
        s' = ((s.setMem (s.mem.writeBytes s.dst.toNat scan.1)).writeD rd (nameResult scan.2 scan.1.length)).advance
          scan.2 := by
  simp only [demaskName, bind_eq_ok_iff, require_eq_ok_iff, pure, Except.pure, Except.ok.injEq]
  constructor
  · rintro ⟨scan, hs, _, hd, rfl⟩; exact ⟨scan, hs, hd, rfl⟩
  · rintro ⟨scan, hs, hd, rfl⟩; exact ⟨scan, hs, (), hd, rfl⟩

/-! ### The name scan -/

/-- Bytes of DMEM that are no terminator are scanned through and demasked (R173). -/
theorem scanName_append (p : Params) (m : Memory) (mask : Byte) (name : List Byte) (left offset : Nat)
    (hlen : name.length ≤ left)
    (hr : offset + name.length ≤ dmemBytes p)
    (hb : ∀ k (hk : k < name.length), m.read (offset + k) = some name[k])
    (ht : ∀ b ∈ name, isTerminator p.nameNulTest b (b ^^^ mask) = false) :
    scanName p m mask left offset =
      (scanName p m mask (left - name.length) (offset + name.length)).map
        fun r => (name.map (· ^^^ mask) ++ r.1, r.2 + name.length) := by
  induction name generalizing left offset with
  | nil => rcases scanName p m mask left offset with e | r <;> simp [Except.map]
  | cons b rest ih =>
    obtain ⟨l, rfl⟩ : ∃ l, left = l + 1 := ⟨left - 1, by simp at hlen; omega⟩
    simp only [List.length_cons] at hlen hr
    have h0 : m.read offset = some b := hb 0 (by simp)
    have htb : isTerminator p.nameNulTest b (b ^^^ mask) = false := ht b (by simp)
    have hrange : inRange p offset 1 = true := (inRange_iff p offset 1).2 (by omega)
    have hrec := ih l (offset + 1) (by omega) (by omega)
      (fun k hk => by
        have := hb (k + 1) (by simpa using hk)
        simpa [Nat.add_assoc, Nat.add_comm 1 k] using this)
      (fun c hc => ht c (by simp [hc]))
    simp only [scanName, hrange, require_true, ok_bind, h0, written_some, htb, Bool.false_eq_true, if_false]
    rw [hrec, List.length_cons, show offset + 1 + rest.length = offset + (rest.length + 1) by omega,
      show l + 1 - (rest.length + 1) = l - rest.length by omega]
    rcases scanName p m mask (l - rest.length) (offset + (rest.length + 1)) with e | r <;>
      simp [Except.map, pure, Except.pure, Nat.add_assoc]

/-- A name's length and the bytes consumed: the terminator is consumed and not copied, or 64 bytes are both (R173). -/
theorem scanName_length {p : Params} {m : Memory} {mask : Byte} {left offset : Nat} {r : List Byte × Nat}
    (h : scanName p m mask left offset = .ok r) :
    r.1.length ≤ left ∧ (r.2 = r.1.length + 1 ∨ r.2 = r.1.length ∧ r.1.length = left) := by
  induction left generalizing offset r with
  | zero => simp [scanName, pure, Except.pure] at h; subst h; simp
  | succ left ih =>
    simp only [scanName, bind_eq_ok_iff] at h
    obtain ⟨_, _, raw, _, h⟩ := h
    split at h
    · simp [pure, Except.pure] at h; subst h; simp
    · rw [bind_eq_ok_iff] at h
      obtain ⟨rest, hr, h⟩ := h
      simp only [pure, Except.pure, Except.ok.injEq] at h
      subst h
      have := ih hr
      simp only [List.length_cons]
      omega

/-- A name that reaches the end of DMEM before its terminator and before 64 bytes raises E_RANGE (R173). -/
theorem scanName_outside (p : Params) (m : Memory) (mask : Byte) (name : List Byte) (left offset : Nat)
    (hlen : name.length < left) (hr : dmemBytes p ≤ offset + name.length)
    (hb : ∀ k (hk : k < name.length), m.read (offset + k) = some name[k])
    (ht : ∀ b ∈ name, isTerminator p.nameNulTest b (b ^^^ mask) = false) :
    scanName p m mask left offset = .error (.error .range) := by
  induction name generalizing left offset with
  | nil =>
    obtain ⟨l, rfl⟩ : ∃ l, left = l + 1 := ⟨left - 1, by simp at hlen; omega⟩
    have hf : inRange p offset 1 = false := by simp [inRange] at hr ⊢; omega
    simp [scanName, hf]
  | cons b rest ih =>
    obtain ⟨l, rfl⟩ : ∃ l, left = l + 1 := ⟨left - 1, by simp at hlen; omega⟩
    simp only [List.length_cons] at hlen hr
    cases hin : inRange p offset 1 with
    | false => simp [scanName, hin]
    | true =>
      have h0 : m.read offset = some b := hb 0 (by simp)
      have hrec := ih l (offset + 1) (by omega) (by omega)
        (fun k hk => by
          have := hb (k + 1) (by simpa using hk)
          simpa [Nat.add_assoc, Nat.add_comm 1 k] using this)
        (fun c hc => ht c (by simp [hc]))
      simp [scanName, hin, h0, ht b (by simp), hrec]

end Sys2Proof.Machine
end

