-- ==== Sys2Proof/Laws/Frames.lean ====
section
/-! SUPPORT. The frames of Safety: what a written D register, a raised error and a completed command leave alone. -/

namespace Sys2Proof.Machine

theorem SameMem.refl (s : State) : SameMem s s := fun _ => rfl

/-- A completion changes STATUS only (R201). -/
theorem completed_finish (s s' : State) (code : Nat) (h : s'.status.berr = s.status.berr) :
    Completed code s (s'.finish (BitVec.ofNat 4 code)) :=
  ⟨rfl, rfl, h, rfl⟩

/-- A raised error has no other effect (R222). -/
theorem onlyError_finish (s : State) (code : Nat) : OnlyError code s (s.finish (BitVec.ofNat 4 code)) :=
  ⟨⟨rfl, rfl, rfl, rfl, rfl, rfl, rfl, rfl, rfl⟩, completed_finish s s code rfl, rfl, rfl, rfl, rfl, rfl, SameMem.refl s⟩

/-- A raised error, by its code (R221). -/
theorem onlyError_code (s : State) (c : ErrCode) : OnlyError c.code.toNat s (s.finish c.code) := by
  have := onlyError_finish s c.code.toNat
  rwa [BitVec.ofNat_toNat, BitVec.setWidth_eq] at this

/-- The frame of a command that writes one D register (R161). -/
theorem onlyD_writeD (s : State) (rd : DReg) (v : DWord) : OnlyD rd s ((s.writeD rd v).finish 0#4) :=
  ⟨⟨rfl, rfl, rfl, rfl, rfl, rfl, rfl, rfl, rfl⟩, ⟨rfl, rfl, rfl, rfl⟩, rfl, rfl, rfl, rfl,
    fun r h => s.readD_writeD_other rd r v h, SameMem.refl s⟩

/-- A register-only command's outcome: D[rd] holds `v` and the rest is framed. -/
theorem complete_writeD (s : State) (rd : DReg) (v : DWord) :
    ∃ t, complete s (.ok (s.writeD rd v)) = .next t ∧ OnlyD rd s t ∧ t.readD rd = v :=
  ⟨_, rfl, onlyD_writeD s rd v, by simp⟩

/-- A rotation's outcome for an amount below its width (R168, R169, R184, R185). -/
theorem complete_rotateInto (s : State) (width : Nat) (rd : DReg) (imm : Imm6) (v : DWord) (h : imm.toNat < width) :
    ∃ t, complete s (rotateInto width rd imm v s) = .next t ∧ OnlyD rd s t ∧ t.readD rd = v := by
  have hb : Imm6.below imm width = true := by simpa [Imm6.below] using h
  rw [(rotateInto_eq_ok_iff width rd imm v s _).2 ⟨hb, rfl⟩]
  exact complete_writeD s rd v

/-- A rotation's outcome for an amount at or past its width: reserved (R77). -/
theorem complete_rotateInto_reserved (s : State) (width : Nat) (rd : DReg) (imm : Imm6) (v : DWord)
    (h : width ≤ imm.toNat) : ∃ t, complete s (rotateInto width rd imm v s) = .next t ∧ OnlyError 2 s t := by
  have hb : Imm6.below imm width = false := by simpa [Imm6.below] using h
  exact ⟨s.finish 2#4, by simp [rotateInto, hb, ErrCode.code], onlyError_finish s 2⟩

/-! ### DMEM stays inside its bounds -/

/-- Writes at offsets inside a bound keep every written byte inside it (R50, R54). -/
theorem Memory.within_scatter (offsets : List Nat) (bytes : List Byte) (m : Memory) (size : Nat) (h : m.within size)
    (ho : ∀ o ∈ offsets, o < size) : (m.scatter offsets bytes).within size := by
  induction offsets generalizing m bytes with
  | nil => exact h
  | cons o rest ih =>
    cases bytes with
    | nil => exact h
    | cons b bs =>
      refine ih bs (m.write o b) (fun q c hq => ?_) fun q hq => ho q (by simp [hq])
      rw [Memory.read_write] at hq
      split at hq
      · rename_i e; subst e; exact ho _ (by simp)
      · exact h q c hq

/-- Writes of a range inside a bound keep every written byte inside it (R50, R54). -/
theorem Memory.within_writeBytes (m : Memory) (a : Nat) (bytes : List Byte) (size : Nat) (h : m.within size)
    (hr : a + bytes.length ≤ size) : (m.writeBytes a bytes).within size := by
  refine Memory.within_scatter _ _ m size h fun o ho => ?_
  rw [List.mem_range'_1] at ho
  omega

end Sys2Proof.Machine
end

