-- ==== Sys2Proof/Laws/Step.lean ====
section
/-! SUPPORT. What one step is: the body of every command behind the one completion, the engine's step, and which of the two
agents moves. -/

namespace Sys2Proof.Machine

/-! ### Commands -/

/-- The pseudocode of every command, before its completion (R201). -/
def commandBody : Instr → State → Except Stop State
  | .nop, s => .ok s
  | .encb, s => encb Config.params s
  | .kstep, s => kstep Config.params s
  | .chain, s => chain Config.params s
  | .dld16 rd, s => loadStream Config.params 2 rd s
  | .dld32 rd, s => loadStream Config.params 4 rd s
  | .dxor rd a b, s => .ok (s.writeD rd (s.readD a ^^^ s.readD b))
  | .dcat16 rd a b, s => .ok (s.writeD rd (zext64 (low16 (s.readD a) ++ low16 (s.readD b))))
  | .dcat32 rd a b, s => .ok (s.writeD rd (low32 (s.readD a) ++ low32 (s.readD b)))
  | .dfold16 rd a, s => .ok (s.writeD rd (zext64 (high16 (s.readD a) ^^^ low16 (s.readD a))))
  | .drotl32 rd a r, s => rotateInto 32 rd r (zext64 (rotl (low32 (s.readD a)) r.toNat)) s
  | .drotr32 rd a r, s => rotateInto 32 rd r (zext64 (rotr (low32 (s.readD a)) r.toNat)) s
  | .drotl64 rd a r, s => .ok (s.writeD rd (rotl (s.readD a) r.toNat))
  | .drotr64 rd a r, s => .ok (s.writeD rd (rotr (s.readD a) r.toNat))
  | .sent rd a b k, s =>
    .ok ((s.writeD rd (zext64 (sentinel (low32 (s.readD a)) (low32 (s.readD k)) (high32 (s.readD k))))).setValid
      (low32 (s.readD b) == sentinel (low32 (s.readD a)) (low32 (s.readD k)) (high32 (s.readD k))))
  | .dmask rd m, s => demaskName Config.params rd m s
  | .dand rd a b, s => .ok (s.writeD rd (s.readD a &&& s.readD b))
  | .dor rd a b, s => .ok (s.writeD rd (s.readD a ||| s.readD b))
  | .dshl64 rd a r, s => .ok (s.writeD rd (s.readD a <<< r.toNat))
  | .dshr64 rd a r, s => .ok (s.writeD rd (s.readD a >>> r.toNat))
  | .drotl16 rd a r, s => rotateInto 16 rd r (zext64 (rotl (low16 (s.readD a)) r.toNat)) s
  | .drotr16 rd a r, s => rotateInto 16 rd r (zext64 (rotr (low16 (s.readD a)) r.toNat)) s

/-- Every command ends in the one completion (R201). -/
theorem exec_eq_complete (i : Instr) (s : State) : exec i s = complete s (commandBody i s) := by
  cases i <;> rfl

/-- A command's next state, by its body's two outcomes (R201, R222). -/
theorem exec_eq_next_iff (i : Instr) (s t : State) :
    exec i s = .next t ↔
      (∃ s', commandBody i s = .ok s' ∧ t = s'.finish 0#4) ∨
        (∃ c, commandBody i s = .error (.error c) ∧ t = s.finish c.code) := by
  rw [exec_eq_complete, complete_eq_next_iff]

/-- A command faults exactly where its body does (R230). -/
theorem exec_eq_fault_iff (i : Instr) (s : State) (f : Fault) :
    exec i s = .fault f ↔ commandBody i s = .error (.fault f) := by
  rw [exec_eq_complete, complete_eq_fault_iff]

/-- A next state without an error code is the body's own state, completed (R201). -/
theorem exec_eq_next_ok (i : Instr) (s t : State) (h : exec i s = .next t) (he : t.status.err = 0#4) :
    ∃ s', commandBody i s = .ok s' ∧ t = s'.finish 0#4 := by
  rcases (exec_eq_next_iff i s t).1 h with h | ⟨c, _, rfl⟩
  · exact h
  · exact absurd he c.code_ne_zero

/-! ### The engine and the host -/

/-- The engine's step is a completion too, of an error for a word that is no command (R201, R223). -/
theorem engineStep_eq_complete (s : State) :
    engineStep s = complete s (match decode s.cmd with
      | .illegal => .error (.error .illegalOp)
      | .reserved => .error (.error .reserved)
      | .cmd i => commandBody i s) := by
  unfold engineStep execute
  cases decode s.cmd with
  | illegal => rfl
  | reserved => rfl
  | cmd i => exact exec_eq_complete i s

/-- The engine moves: a command is pending and the host's turns are over (log entry 2). -/
theorem engineTurn_iff (s : State) : engineTurn s = true ↔ s.status.busy = true ∧ (s.wait = 0 ∨ s.host = []) := by
  simp [engineTurn]

/-- The host moves (R62, log entry 2). -/
theorem step_eq_hostEvent (s : State) (e : HostEvent) (rest : List HostEvent) (h : s.host = e :: rest)
    (hw : s.status.busy = false ∨ s.wait ≠ 0) :
    step s = hostEvent e { s with host := rest, wait := s.wait - 1 } := by
  have ht : engineTurn s = false := by
    rcases hw with hb | hw <;> simp [engineTurn, *]
  simp [step, ht, hostTurn, h]

end Sys2Proof.Machine
end

