-- ==== Sys2Proof/Laws/Bus.lean ====
section
/-! SUPPORT. The host's accesses: what an access reaches, and what a read or a write of each kind answers. -/

namespace Sys2Proof.Machine

/-! ### What an access reaches -/

theorem Width.bytes_cases (w : Width) : w.bytes = 1 ∨ w.bytes = 2 ∨ w.bytes = 4 := by cases w <;> simp [Width.bytes]

theorem Width.bytes_eq_four_iff (w : Width) : w.bytes = 4 ↔ w = .w32 := by cases w <;> simp [Width.bytes]

/-- A 32-bit aligned access below 0x100 reaches a register offset (R25, R60). -/
theorem target_reg (p : Params) (a : Nat) (h : a < 0x100) (h4 : a % 4 = 0) : target p .w32 a = .reg (regAt (a / 4)) := by
  simp [target, h, h4, Width.bytes]

/-- An aligned access inside the window reaches DMEM (R57, R60). -/
theorem target_dmem (p : Params) (w : Width) (o : Nat) (h : o % w.bytes = 0) (hr : o + w.bytes ≤ dmemBytes p) :
    target p w (dmemBase + o) = .dmem o := by
  have hb : (dmemBase + o) % w.bytes = 0 := by
    rw [Nat.add_mod, h]; cases w <;> rfl
  have hi : inRange p o w.bytes = true := (inRange_iff p o w.bytes).2 hr
  rw [target, if_neg (by unfold dmemBase; omega), if_pos ⟨Nat.le_add_right _ _, hb⟩, Nat.add_sub_cancel_left, if_pos hi]

/-- An access below 0x100 that is no aligned 32-bit access is a bus error (R25, R231). -/
theorem target_reg_busError (p : Params) (w : Width) (a : Nat) (h : a < 0x100) (hb : w ≠ .w32 ∨ a % 4 ≠ 0) :
    target p w a = .busError := by
  rw [target, if_pos h, if_neg]
  rw [Width.bytes_eq_four_iff]
  tauto

/-- An access between the registers and the window is a bus error (R58, R60, R231). -/
theorem target_gap_busError (p : Params) (w : Width) (a : Nat) (h : 0x100 ≤ a) (hb : a < dmemBase) :
    target p w a = .busError := by
  rw [target, if_neg (by omega), if_neg (by omega)]

/-- A misaligned access at the window, or one that leaves it, is a bus error (R57, R58, R231). -/
theorem target_window_busError (p : Params) (w : Width) (a : Nat) (h : dmemBase ≤ a)
    (hb : a % w.bytes ≠ 0 ∨ dmemBase + dmemBytes p < a + w.bytes) : target p w a = .busError := by
  rw [target, if_neg (by have : dmemBase = 0x01000000 := rfl; omega)]
  split
  · rename_i hc
    rw [if_neg]
    rw [inRange_iff]
    omega
  · rfl

/-! ### Reads -/

theorem busRead_busError {w : Width} {a : Nat} {s : State} (h : target Config.params w a = .busError) :
    busRead w a s = .next (s.respond .busError) := by simp [busRead, h]

/-- The value of a register (R24, R59). -/
theorem busRead_reg {w : Width} {a : Nat} {s : State} {r : HostReg} (h : target Config.params w a = .reg r)
    (hb : s.status.busy = false ∨ r.exactWhileBusy = true) :
    busRead w a s = .next (s.respond (w.data (s.readReg r).toNat)) := by
  rcases hb with hb | hb <;> simp [busRead, h, hb]

/-- The bytes of DMEM, big-endian (R56). -/
theorem busRead_dmem {w : Width} {a o : Nat} {s : State} {bytes : List Byte} (h : target Config.params w a = .dmem o)
    (hb : s.status.busy = false) (hm : s.mem.readBytes o w.bytes = some bytes) :
    busRead w a s = .next (s.respond (w.data (beValue bytes))) := by simp [busRead, h, hb, hm]

/-- An unwritten byte of DMEM (R55, R230). -/
theorem busRead_unwritten {w : Width} {a o : Nat} {s : State} (h : target Config.params w a = .dmem o)
    (hb : s.status.busy = false) (hm : s.mem.readBytes o w.bytes = none) :
    busRead w a s = .fault .unwrittenRead := by simp [busRead, h, hb, hm]

/-- An unspecified value (R63). -/
theorem busRead_unspecified {w : Width} {a : Nat} {s : State} (hb : s.status.busy = true)
    (h : (∃ o, target Config.params w a = .dmem o) ∨ ∃ r, target Config.params w a = .reg r ∧ r.exactWhileBusy = false) :
    busRead w a s = unspecifiedRead w s := by
  rcases h with ⟨o, h⟩ | ⟨r, h, hr⟩ <;> simp [busRead, *]

/-! ### Writes -/

theorem busWrite_busError {w : Width} {a v : Nat} {s : State} (h : target Config.params w a = .busError) :
    busWrite w a v s = .next (s.respond .busError) := by simp [busWrite, h]

theorem busWrite_reg {w : Width} {a v : Nat} {s : State} {r : HostReg} (h : target Config.params w a = .reg r)
    (hb : s.status.busy = false ∨ r.guarded = false) :
    busWrite w a v s = .next ((s.writeReg r (BitVec.ofNat 32 v)).respond .written) := by
  rcases hb with hb | hb <;> simp [busWrite, h, hb]

/-- The value's bytes, most significant first (R56). -/
theorem busWrite_dmem {w : Width} {a v o : Nat} {s : State} (h : target Config.params w a = .dmem o)
    (hb : s.status.busy = false) :
    busWrite w a v s = .next ((s.setMem (s.mem.writeBytes o (beBytes w.bytes v))).respond .written) := by
  simp [busWrite, h, hb]

/-- A write ignored because BUSY = 1 (R63). -/
theorem busWrite_ignored {w : Width} {a v : Nat} {s : State} (hb : s.status.busy = true)
    (h : (∃ o, target Config.params w a = .dmem o) ∨ ∃ r, target Config.params w a = .reg r ∧ r.guarded = true) :
    busWrite w a v s = .next (s.ignoreWrite.respond .written) := by
  rcases h with ⟨o, h⟩ | ⟨r, h, hr⟩ <;> simp [busWrite, *]

@[simp] theorem beBytes_length (n v : Nat) : (beBytes n v).length = n := by simp [beBytes]

theorem beBytes_getElem (n v k : Nat) (h : k < (beBytes n v).length) :
    (beBytes n v)[k] = BitVec.ofNat 8 (v / 256 ^ (n - 1 - k)) := by simp [beBytes]

/-- The value of a byte string fits in its bytes (R9). -/
theorem beValue_lt (s : List Byte) : beValue s < 256 ^ s.length := by
  induction s with
  | nil => simp [beValue]
  | cons b r ih =>
    have := b.isLt
    simp only [beValue, List.length_cons, Nat.pow_succ]
    nlinarith

/-- Byte `k` of a byte string is digit `length - 1 - k` of its value (R9). -/
theorem beValue_digit (s : List Byte) (k : Nat) (h : k < s.length) :
    beValue s / 256 ^ (s.length - 1 - k) % 256 = s[k].toNat := by
  induction s generalizing k with
  | nil => simp at h
  | cons b r ih =>
    have hb := b.isLt
    have hr := beValue_lt r
    have hp : 0 < 256 ^ r.length := by positivity
    cases k with
    | zero =>
      simp only [beValue, List.length_cons, List.getElem_cons_zero, Nat.add_sub_cancel, Nat.sub_zero]
      rw [Nat.mul_comm, Nat.mul_add_div hp, Nat.div_eq_of_lt hr]
      omega
    | succ k =>
      have hk : k < r.length := by simpa using h
      simp only [List.getElem_cons_succ, ← ih k hk, beValue, List.length_cons]
      rw [show r.length + 1 - 1 - (k + 1) = r.length - 1 - k by omega,
        show 256 ^ r.length = 256 ^ (r.length - 1 - k) * (256 * 256 ^ k) by rw [← Nat.pow_succ', ← Nat.pow_add]; congr 1; omega,
        Nat.mul_left_comm, Nat.mul_add_div (by positivity), Nat.mul_left_comm, Nat.mul_add_mod]

/-! ### A register write, read back -/

/-- The registers that hold what is written to them as it is: all read-write ones but CTRL, STATUS and CMD (R24). -/
def HostReg.plain : HostReg → Bool
  | .id => false
  | .ctrl => false
  | .status => false
  | .cmd => false
  | .reserved => false
  | _ => true

/-- A plain register reads back what is written to it (R38 to R44). -/
theorem readReg_writeReg_same (s : State) (r : HostReg) (v : Word) (h : r.plain = true) :
    (s.writeReg r v).readReg r = v := by
  cases r <;> simp_all [HostReg.plain, State.writeReg, State.readReg, State.writeD]

/-- A plain register's write leaves every other register, the other half of a D register too (R44). -/
theorem readReg_writeReg_other (s : State) (r r' : HostReg) (v : Word) (h : r.plain = true) (hr : r' ≠ r) :
    (s.writeReg r v).readReg r' = s.readReg r' := by
  cases r <;> simp only [HostReg.plain, Bool.false_eq_true] at h <;> cases r' <;> try rfl
  all_goals
    first
    | exact absurd rfl hr
    | rename_i i j
      by_cases e : i = j
      · subst e
        first
        | exact absurd rfl hr
        | simp [State.writeReg, State.readReg, State.writeD]
      · have hv : i.val ≠ j.val := fun hv => e (Fin.ext hv)
        simp [State.writeReg, State.readReg, State.writeD, hv]

/-- A plain register's write changes neither STATUS nor DMEM nor the model's own fields. -/
theorem writeReg_plain_frame (s : State) (r : HostReg) (v : Word) (h : r.plain = true) :
    (s.writeReg r v).status = s.status ∧ (s.writeReg r v).mem = s.mem ∧ (s.writeReg r v).host = s.host ∧
      (s.writeReg r v).wait = s.wait ∧ (s.writeReg r v).draws = s.draws := by
  cases r <;> simp_all [HostReg.plain, State.writeReg, State.writeD]

/-- Two offsets of the register map reach different registers, reserved ones apart (R24). -/
theorem regAt_injective (i j : Nat) (hi : i < 64) (hj : j < 64) (h : regAt i = regAt j) (hr : regAt i ≠ .reserved) :
    i = j := by
  have key : ∀ i j : Fin 64, regAt i.val = regAt j.val → regAt i.val ≠ .reserved → i = j := by decide
  exact congrArg Fin.val (key ⟨i, hi⟩ ⟨j, hj⟩ h hr)

/-- CTRL keeps its two fields of a written word (R27). -/
theorem ctrlOfWord_word (v : Word) : (ctrlOfWord v).word = v &&& 3#32 := by
  apply BitVec.eq_of_getLsbD_eq
  intro i hi
  have h3 : (3#32).getLsbD i = decide (i < 2) := by
    have key : ∀ i : Fin 32, (3#32).getLsbD i.val = decide (i.val < 2) := by decide
    exact key ⟨i, hi⟩
  rw [BitVec.getLsbD_and, h3]
  simp only [Ctrl.word, ctrlOfWord, BitVec.getLsbD_append, BitVec.getLsbD_ofBool]
  rcases i with _ | _ | i <;> simp

end Sys2Proof.Machine
end

