-- ==== Sys2Proof/Laws/Cipher.lean ====
section
/-! SUPPORT. The key schedule's length and recursion, and the keystream chain: what it returns and that its keystream does
not depend on the buffer. -/

namespace Sys2Proof.Machine

/-! ### Key schedule -/

theorem extendSchedule_length (p : Params) (nk n : Nat) (l : List KWord) :
    (extendSchedule p nk n l).length = l.length + n := by
  induction n generalizing l with
  | zero => rfl
  | succ n ih => simp [extendSchedule, ih]; omega

@[simp] theorem initialKeyWords_length (key : List Byte) (nk : Nat) : (initialKeyWords key nk).length = nk := by
  simp [initialKeyWords]

/-- A schedule has `4*(Nr+1)` words (R107). -/
theorem keyExpansion_length (p : Params) (key : List Byte) (nr : Nat) (h : key.length / 4 ≤ 4 * (nr + 1)) :
    (keyExpansion p key nr).length = 4 * (nr + 1) := by
  simp [keyExpansion, extendSchedule_length]
  omega

/-- A schedule only grows at its new end. -/
theorem extendSchedule_suffix (p : Params) (nk n : Nat) (l : List KWord) : l <:+ extendSchedule p nk n l := by
  induction n generalizing l with
  | zero => exact List.suffix_rfl
  | succ n ih => exact (List.suffix_cons _ l).trans (ih _)

/-- Extending in two parts. -/
theorem extendSchedule_add (p : Params) (nk a b : Nat) (l : List KWord) :
    extendSchedule p nk (a + b) l = extendSchedule p nk b (extendSchedule p nk a l) := by
  induction a generalizing l with
  | zero => simp [extendSchedule]
  | succ a ih => rw [Nat.succ_add]; simp [extendSchedule, ih]

/-! ### Round functions -/

/-- MixColumns at row `r` and column `c` (R111, R108). -/
theorem mixColumns_getElem (s : Block) (r c : Fin 4) :
    (mixColumns s)[r.val + 4 * c.val]'(by omega) =
      gmul (s[r.val + 4 * c.val]'(by omega)) 2 ^^^ gmul (s[(r.val + 1) % 4 + 4 * c.val]'(by omega)) 3 ^^^
        s[(r.val + 2) % 4 + 4 * c.val]'(by omega) ^^^ s[(r.val + 3) % 4 + 4 * c.val]'(by omega) := by
  have h4 : (r.val + 4 * c.val) / 4 = c.val := by omega
  have hm : (r.val + 4 * c.val) % 4 = r.val := by omega
  have e : ∀ k, (r.val + 4 * c.val + k) % 4 = (r.val + k) % 4 := fun k => by omega
  simp only [mixColumns, Vector.getElem_ofFn, h4, hm, e, Nat.add_comm (4 * c.val)]

/-! ### The chain -/

@[simp] theorem xorKeystream_length (chunk : List Byte) (ks : Block) :
    (xorKeystream chunk ks).length = min chunk.length 16 := by
  simp [xorKeystream]

theorem xorKeystream_getElem (chunk : List Byte) (ks : Block) (k : Nat) (hk : k < (xorKeystream chunk ks).length) :
    (xorKeystream chunk ks)[k] =
      (chunk[k]'(by simp at hk; omega)) ^^^ (ks[k]'(by simp at hk; omega)) := by
  simp [xorKeystream]

/-- The chain keeps the buffer's length when its chunks cover it (R134). -/
theorem chainChunks_length (p : Params) (key : List Byte) (n : Nat) (buf : List Byte) (prev : Block)
    (h : buf.length ≤ 16 * n) : (chainChunks p key n buf prev).1.length = buf.length := by
  induction n generalizing buf prev with
  | zero => simp at h; simp [chainChunks, h]
  | succ n ih =>
    simp only [chainChunks, List.length_append, xorKeystream_length, List.length_take]
    rw [ih _ _ (by simp; omega)]
    simp
    omega

@[simp] theorem chainSmall_length (p : Params) (key : List Byte) (buf : List Byte) (seed : Block) :
    (chainSmall p key buf seed).1.length = buf.length :=
  chainChunks_length p key _ buf seed (by omega)

/-- The chain value after the chunks does not depend on the buffer (R135, R140). -/
theorem chainChunks_prev (p : Params) (key : List Byte) (n : Nat) (buf buf' : List Byte) (prev : Block) :
    (chainChunks p key n buf prev).2 = (chainChunks p key n buf' prev).2 := by
  induction n generalizing buf buf' prev with
  | zero => rfl
  | succ n ih => exact ih _ _ _

/-! ### The sampling geometry -/

theorem sampleStep_le (L : Nat) (h : 256 < L) : 1 ≤ sampleStep L ∧ sampleStep L ≤ 16 := by
  have h16 : 16 ≤ sampleBlocks L := by unfold sampleBlocks; omega
  have : 256 / sampleBlocks L ≤ 256 / 16 := Nat.div_le_div_left h16 (by omega)
  unfold sampleStep
  omega

/-- At most 256 slots are filled (R136). -/
theorem sampleCount_mul_step_le (L : Nat) (h : 256 < L) : sampleCount L * sampleStep L ≤ 256 := by
  have h16 : 16 ≤ sampleBlocks L := by unfold sampleBlocks; omega
  unfold sampleCount sampleStep
  have hdiv := Nat.div_mul_le_self 256 (sampleBlocks L)
  rcases Nat.lt_or_ge 256 (sampleBlocks L) with hb | hb
  · rw [Nat.div_eq_of_lt hb, Nat.min_eq_right (by omega)]; decide
  · have h1 : 1 ≤ 256 / sampleBlocks L := Nat.div_pos hb (by omega)
    rw [Nat.min_eq_left hb, Nat.max_eq_right h1, Nat.mul_comm]
    exact hdiv

@[simp] theorem samplePositions_length (L : Nat) : (samplePositions L).length = sampleCount L * sampleStep L := by
  simp [samplePositions, List.length_flatMap]

/-- A sampled position is `16*i + j` with `i < nc`, `j < step` (R136). -/
theorem mem_samplePositions_iff (L q : Nat) :
    q ∈ samplePositions L ↔ ∃ i, i < sampleCount L ∧ ∃ j, j < sampleStep L ∧ q = 16 * i + j := by
  simp [samplePositions, eq_comm]

/-- Slot `i*step + j` holds position `16*i + j` (R136). -/
theorem samplePositions_getElem (L i j : Nat) (hi : i < sampleCount L) (hj : j < sampleStep L)
    (h : i * sampleStep L + j < (samplePositions L).length) :
    (samplePositions L)[i * sampleStep L + j] = 16 * i + j := by
  have key : ∀ n i j, i < n → j < sampleStep L →
      ((List.range n).flatMap fun i => (List.range (sampleStep L)).map fun j => 16 * i + j)[i * sampleStep L + j]? =
        some (16 * i + j) := by
    intro n
    induction n with
    | zero => intro i j hi; omega
    | succ n ih =>
      intro i j hi hj
      have hl : ((List.range n).flatMap fun i => (List.range (sampleStep L)).map fun j => 16 * i + j).length =
          n * sampleStep L := by simp [List.length_flatMap]
      rw [List.range_succ, List.flatMap_append]
      rcases Nat.lt_or_ge i n with hin | hin
      · have hlt : i * sampleStep L + j < n * sampleStep L := by
          have : (i + 1) * sampleStep L ≤ n * sampleStep L := Nat.mul_le_mul_right _ hin
          rw [Nat.succ_mul] at this
          omega
        rw [List.getElem?_append_left (by rw [hl]; exact hlt)]
        exact ih i j hin hj
      · have hin' : i = n := by omega
        subst hin'
        rw [List.getElem?_append_right (by rw [hl]; omega), hl]
        simp [hj]
  have := key (sampleCount L) i j hi hj
  rw [List.getElem_eq_iff]
  exact this

/-- The sampled positions are distinct for a large buffer (R136). -/
theorem samplePositions_nodup (L : Nat) (h : 256 < L) : (samplePositions L).Nodup := by
  have hs := (sampleStep_le L h).2
  unfold samplePositions
  rw [List.nodup_flatMap]
  refine ⟨fun i _ => ?_, ?_⟩
  · refine List.Nodup.map (fun a b e => by simpa using e) List.nodup_range
  · refine List.Nodup.pairwise_of_forall_ne List.nodup_range fun a _ b _ hab => ?_
    simp only [Function.onFun, List.disjoint_left, List.mem_map, List.mem_range]
    rintro x ⟨j, hj, rfl⟩ ⟨k, hk, e⟩
    exact hab (by omega)

end Sys2Proof.Machine
end

