-- ==== Sys2Proof/Laws/Encoding.lean ====
section
/-! SUPPORT. The fields of an assembled word read back, and AND on words of format F1 field by field. -/

namespace Sys2Proof

variable (op : BitVec 8) (rd rs1 rs2 rs3 : DReg) (imm : Imm6) (rsv : BitVec 6)

@[simp] theorem opField_assembleF1 : opField (assembleF1 op rd rs1 rs2 rs3 imm rsv) = op := by
  unfold opField assembleF1
  rw [BitVec.extractLsb'_append_eq_of_add_le (by omega)]
  exact BitVec.extractLsb'_eq_self

@[simp] theorem rdField_assembleF1 : rdField (assembleF1 op rd rs1 rs2 rs3 imm rsv) = rd := by
  unfold rdField assembleF1
  rw [BitVec.extractLsb'_append_eq_of_le (by omega), BitVec.extractLsb'_append_eq_of_add_le (by omega)]
  simp [BitVec.extractLsb'_eq_self]

@[simp] theorem rs1Field_assembleF1 : rs1Field (assembleF1 op rd rs1 rs2 rs3 imm rsv) = rs1 := by
  unfold rs1Field assembleF1
  rw [BitVec.extractLsb'_append_eq_of_le (by omega), BitVec.extractLsb'_append_eq_of_le (by omega),
    BitVec.extractLsb'_append_eq_of_add_le (by omega)]
  simp [BitVec.extractLsb'_eq_self]

@[simp] theorem rs2Field_assembleF1 : rs2Field (assembleF1 op rd rs1 rs2 rs3 imm rsv) = rs2 := by
  unfold rs2Field assembleF1
  rw [BitVec.extractLsb'_append_eq_of_le (by omega), BitVec.extractLsb'_append_eq_of_le (by omega),
    BitVec.extractLsb'_append_eq_of_le (by omega), BitVec.extractLsb'_append_eq_of_add_le (by omega)]
  simp [BitVec.extractLsb'_eq_self]

@[simp] theorem rs3Field_assembleF1 : rs3Field (assembleF1 op rd rs1 rs2 rs3 imm rsv) = rs3 := by
  unfold rs3Field assembleF1
  rw [BitVec.extractLsb'_append_eq_of_le (by omega), BitVec.extractLsb'_append_eq_of_le (by omega),
    BitVec.extractLsb'_append_eq_of_le (by omega), BitVec.extractLsb'_append_eq_of_le (by omega),
    BitVec.extractLsb'_append_eq_of_add_le (by omega)]
  simp [BitVec.extractLsb'_eq_self]

@[simp] theorem imm6Field_assembleF1 : imm6Field (assembleF1 op rd rs1 rs2 rs3 imm rsv) = imm := by
  unfold imm6Field assembleF1
  rw [BitVec.extractLsb'_append_eq_of_le (by omega), BitVec.extractLsb'_append_eq_of_le (by omega),
    BitVec.extractLsb'_append_eq_of_le (by omega), BitVec.extractLsb'_append_eq_of_le (by omega),
    BitVec.extractLsb'_append_eq_of_le (by omega), BitVec.extractLsb'_append_eq_of_add_le (by omega)]
  exact BitVec.extractLsb'_eq_self

@[simp] theorem rsvField_assembleF1 : rsvField (assembleF1 op rd rs1 rs2 rs3 imm rsv) = rsv := by
  unfold rsvField assembleF1
  rw [BitVec.extractLsb'_append_eq_of_le (by omega), BitVec.extractLsb'_append_eq_of_le (by omega),
    BitVec.extractLsb'_append_eq_of_le (by omega), BitVec.extractLsb'_append_eq_of_le (by omega),
    BitVec.extractLsb'_append_eq_of_le (by omega), BitVec.extractLsb'_append_eq_of_le (by omega)]
  exact BitVec.extractLsb'_eq_self

/-- Every word is the word of its own fields (R71). -/
theorem assembleF1_fields (w : Word) :
    assembleF1 (opField w) (rdField w) (rs1Field w) (rs2Field w) (rs3Field w) (imm6Field w) (rsvField w) = w := by
  apply BitVec.eq_of_getLsbD_eq
  intro j hj
  have hfin : ∀ x : BitVec 3, BitVec.ofFin (w := 3) x.toFin = x := fun _ => rfl
  simp only [assembleF1, opField, rdField, rs1Field, rs2Field, rs3Field, imm6Field, rsvField, BitVec.getLsbD_append, hfin]
  by_cases h1 : j < 8
  · simp [h1]
  by_cases h2 : j - 8 < 3
  · simp [h1, h2, show 8 + (j - 8) = j by omega]
  by_cases h3 : j - 8 - 3 < 3
  · simp [h1, h2, h3, show 11 + (j - 8 - 3) = j by omega]
  by_cases h4 : j - 8 - 3 - 3 < 3
  · simp [h1, h2, h3, h4, show 14 + (j - 8 - 3 - 3) = j by omega]
  by_cases h5 : j - 8 - 3 - 3 - 3 < 3
  · simp [h1, h2, h3, h4, h5, show 17 + (j - 8 - 3 - 3 - 3) = j by omega]
  by_cases h6 : j - 8 - 3 - 3 - 3 - 3 < 6
  · simp [h1, h2, h3, h4, h5, h6, show 20 + (j - 8 - 3 - 3 - 3 - 3) = j by omega]
  · simp [h1, h2, h3, h4, h5, h6, show 26 + (j - 8 - 3 - 3 - 3 - 3 - 6) = j by omega,
      show j - 8 - 3 - 3 - 3 - 3 - 6 < 6 by omega]

/-- AND with a mask, field by field. -/
theorem assembleF1_and (op' : BitVec 8) (rd' rs1' rs2' rs3' : DReg) (imm' : Imm6) (rsv' : BitVec 6) :
    assembleF1 op rd rs1 rs2 rs3 imm rsv &&& assembleF1 op' rd' rs1' rs2' rs3' imm' rsv' =
      assembleF1 (op &&& op') (BitVec.ofFin (w := 3) rd &&& BitVec.ofFin (w := 3) rd').toFin
        (BitVec.ofFin (w := 3) rs1 &&& BitVec.ofFin (w := 3) rs1').toFin
        (BitVec.ofFin (w := 3) rs2 &&& BitVec.ofFin (w := 3) rs2').toFin
        (BitVec.ofFin (w := 3) rs3 &&& BitVec.ofFin (w := 3) rs3').toFin (imm &&& imm') (rsv &&& rsv') := by
  have hfin : ∀ x : BitVec 3, BitVec.ofFin (w := 3) x.toFin = x := fun _ => rfl
  apply BitVec.eq_of_getLsbD_eq
  intro j _
  rw [BitVec.getLsbD_and]
  simp only [assembleF1, hfin, BitVec.getLsbD_append, BitVec.getLsbD_and]
  split_ifs <;> rfl

end Sys2Proof
end

