-- ==== Sys2Proof/Laws/PerInstr.lean ====
section
/-! SUPPORT. A lemma per command about its syntax: the opcode map has one row for its encoding's opcode, and that row's
fields read the command back. -/

namespace Sys2Proof.Laws.EncodedRow

set_option Elab.async false

/-- The row R73 gives the encoding's opcode builds the command from the encoding's fields. -/
def Statement (i : Instr) : Prop :=
  ∃ r, opcodeMap.find? (fun r => r.op == opField (encode i)) = some r ∧ r.build (encode i) = i

theorem nop : Statement .nop := ⟨_, rfl, rfl⟩
theorem encb : Statement .encb := ⟨_, rfl, rfl⟩
theorem kstep : Statement .kstep := ⟨_, rfl, rfl⟩
theorem chain : Statement .chain := ⟨_, rfl, rfl⟩
theorem dld16 (rd : DReg) : Statement (.dld16 rd) := ⟨_, by rw [encode, opField_assembleF1]; rfl, by simp [encode]⟩
theorem dld32 (rd : DReg) : Statement (.dld32 rd) := ⟨_, by rw [encode, opField_assembleF1]; rfl, by simp [encode]⟩
theorem dxor (rd a b : DReg) : Statement (.dxor rd a b) := ⟨_, by rw [encode, opField_assembleF1]; rfl, by simp [encode]⟩
theorem dcat16 (rd a b : DReg) : Statement (.dcat16 rd a b) := ⟨_, by rw [encode, opField_assembleF1]; rfl, by simp [encode]⟩
theorem dcat32 (rd a b : DReg) : Statement (.dcat32 rd a b) := ⟨_, by rw [encode, opField_assembleF1]; rfl, by simp [encode]⟩
theorem dfold16 (rd a : DReg) : Statement (.dfold16 rd a) := ⟨_, by rw [encode, opField_assembleF1]; rfl, by simp [encode]⟩
theorem drotl32 (rd a : DReg) (r : Imm6) : Statement (.drotl32 rd a r) := ⟨_, by rw [encode, opField_assembleF1]; rfl, by simp [encode]⟩
theorem drotr32 (rd a : DReg) (r : Imm6) : Statement (.drotr32 rd a r) := ⟨_, by rw [encode, opField_assembleF1]; rfl, by simp [encode]⟩
theorem drotl64 (rd a : DReg) (r : Imm6) : Statement (.drotl64 rd a r) := ⟨_, by rw [encode, opField_assembleF1]; rfl, by simp [encode]⟩
theorem drotr64 (rd a : DReg) (r : Imm6) : Statement (.drotr64 rd a r) := ⟨_, by rw [encode, opField_assembleF1]; rfl, by simp [encode]⟩
theorem sent (rd a b k : DReg) : Statement (.sent rd a b k) := ⟨_, by rw [encode, opField_assembleF1]; rfl, by simp [encode]⟩
theorem dmask (rd a : DReg) : Statement (.dmask rd a) := ⟨_, by rw [encode, opField_assembleF1]; rfl, by simp [encode]⟩
theorem dand (rd a b : DReg) : Statement (.dand rd a b) := ⟨_, by rw [encode, opField_assembleF1]; rfl, by simp [encode]⟩
theorem dor (rd a b : DReg) : Statement (.dor rd a b) := ⟨_, by rw [encode, opField_assembleF1]; rfl, by simp [encode]⟩
theorem dshl64 (rd a : DReg) (r : Imm6) : Statement (.dshl64 rd a r) := ⟨_, by rw [encode, opField_assembleF1]; rfl, by simp [encode]⟩
theorem dshr64 (rd a : DReg) (r : Imm6) : Statement (.dshr64 rd a r) := ⟨_, by rw [encode, opField_assembleF1]; rfl, by simp [encode]⟩
theorem drotl16 (rd a : DReg) (r : Imm6) : Statement (.drotl16 rd a r) := ⟨_, by rw [encode, opField_assembleF1]; rfl, by simp [encode]⟩
theorem drotr16 (rd a : DReg) (r : Imm6) : Statement (.drotr16 rd a r) := ⟨_, by rw [encode, opField_assembleF1]; rfl, by simp [encode]⟩

end Sys2Proof.Laws.EncodedRow
end

