-- ==== Sys2Proof/Tests/Slice0.lean ====
section
/-! SUPPORT. The model's own tests: ill-formed terms refused, words written out from the spec's encoding, small tests of one
step each with the spec's vectors (95_test_vectors.md), and a witness for the hypotheses of every statement. -/

namespace Sys2Proof.Tests

set_option Elab.async false

open Sys2Proof Sys2Proof.Machine Sys2Proof.Claims

/-! ### WellFormed refuses (R77, R78: one bit pattern past the range) -/

theorem test_wellFormed_drotl32 : (Instr.drotl32 0 1 32#6).wellFormed = false := by decide
theorem test_wellFormed_drotr32 : (Instr.drotr32 0 1 63#6).wellFormed = false := by decide
theorem test_wellFormed_drotl16 : (Instr.drotl16 0 1 16#6).wellFormed = false := by decide
theorem test_wellFormed_drotr16 : (Instr.drotr16 0 1 48#6).wellFormed = false := by decide
theorem test_wellFormed_limits : (Instr.drotl32 0 1 31#6).wellFormed = true ∧ (Instr.drotr16 0 1 15#6).wellFormed = true ∧
    (Instr.drotl64 7 7 63#6).wellFormed = true := by decide

/-! ### Decoding: a word per constructor, from R70, R73 and the vectors -/

theorem test_decode_nop : decode 0x00000000#32 = .cmd .nop := by decide +kernel
theorem test_decode_encb : decode 0x00000010#32 = .cmd .encb := by decide +kernel
theorem test_decode_kstep : decode 0x00000011#32 = .cmd .kstep := by decide +kernel
theorem test_decode_chain : decode 0x00000012#32 = .cmd .chain := by decide +kernel
/-- RD = 1 is `001` in bits [10:8]. -/
theorem test_decode_dld16 : decode 0b000000_000000_000_000_000_001_00100000#32 = .cmd (.dld16 1) := by decide +kernel
theorem test_decode_dld32 : decode 0b000000_000000_000_000_000_100_00100001#32 = .cmd (.dld32 4) := by decide +kernel
/-- RS2 = 2, RS1 = 1, RD = 3. -/
theorem test_decode_dxor : decode 0b000000_000000_000_010_001_011_00100010#32 = .cmd (.dxor 3 1 2) := by decide +kernel
theorem test_decode_dcat16 : decode 0x00008823#32 = .cmd (.dcat16 0 1 2) := by decide +kernel
theorem test_decode_dcat32 : decode 0x00008C24#32 = .cmd (.dcat32 4 1 2) := by decide +kernel
theorem test_decode_dfold16 : decode 0x00001225#32 = .cmd (.dfold16 2 2) := by decide +kernel
/-- IMM6 = 3, RS1 = 1, RD = 0. -/
theorem test_decode_drotl32 : decode 0b000000_000011_000_000_001_000_00100110#32 = .cmd (.drotl32 0 1 3#6) := by
  decide +kernel
theorem test_decode_drotr32 : decode 0x00300827#32 = .cmd (.drotr32 0 1 3#6) := by decide +kernel
theorem test_decode_drotl64 : decode 0x02002D28#32 = .cmd (.drotl64 5 5 32#6) := by decide +kernel
theorem test_decode_drotr64 : decode 0x00402D29#32 = .cmd (.drotr64 5 5 4#6) := by decide +kernel
/-- RS3 = 7, RS2 = 1, RS1 = 0, RD = 2. -/
theorem test_decode_sent : decode 0b000000_000000_111_001_000_010_00101010#32 = .cmd (.sent 2 0 1 7) := by decide +kernel
/-- RS1 = 7, RD = 3 (program P4 line 4; the word V49 prints is not R71's, log entry 12). -/
theorem test_decode_dmask : decode 0x00003B2B#32 = .cmd (.dmask 3 7) := by decide +kernel
theorem test_decode_dand : decode 0x0000882C#32 = .cmd (.dand 0 1 2) := by decide +kernel
theorem test_decode_dor : decode 0x0000882D#32 = .cmd (.dor 0 1 2) := by decide +kernel
theorem test_decode_dshl64 : decode 0x03F0082E#32 = .cmd (.dshl64 0 1 63#6) := by decide +kernel
theorem test_decode_dshr64 : decode 0x0100082F#32 = .cmd (.dshr64 0 1 16#6) := by decide +kernel
theorem test_decode_drotl16 : decode 0x00F00030#32 = .cmd (.drotl16 0 0 15#6) := by decide +kernel
theorem test_decode_drotr16 : decode 0x00100831#32 = .cmd (.drotr16 0 1 1#6) := by decide +kernel

/-- Reserved words of 95_test_vectors.md section 5. -/
theorem test_decode_reserved : decode 0x00000100#32 = .reserved ∧ decode 0x80000021#32 = .reserved ∧
    decode 0x00004021#32 = .reserved ∧ decode 0x00100025#32 = .reserved ∧ decode 0x02000026#32 = .reserved ∧
    decode 0x01000030#32 = .reserved ∧ decode 0x04000028#32 = .reserved := by decide +kernel

/-- Undefined opcodes, whatever the other fields hold (R76). -/
theorem test_decode_illegal : decode 0x000000FF#32 = .illegal ∧ decode 0xFFFFFF13#32 = .illegal ∧
    decode 0x00000032#32 = .illegal ∧ decode 0x0000000F#32 = .illegal := by decide +kernel

/-- No two rows of the opcode map share a word: their opcodes differ, and every row fixes the opcode's bits (R78). -/
theorem test_rows_disjoint : (opcodeMap.map (·.op)).Nodup ∧
    ∀ r ∈ opcodeMap, r.mask &&& 0xFF#32 = 0xFF#32 ∧ r.pattern = r.op.setWidth 32 := by decide +kernel

theorem test_decodeTableWord : decodeTableWord 32 0x00008B22 = some (.dxor 3 1 2) ∧ decodeTableWord 32 0x13 = none := by
  decide +kernel

theorem test_encode : encode (.sent 2 0 1 7) = 0x000E422A#32 ∧ encode (.drotl64 6 6 29#6) = 0x01D03628#32 := by
  decide +kernel

/-- Assembler syntax (R80), program P4 line 12 and program P1 line 3. -/
theorem test_asm : asm (.drotl64 6 6 29#6) = "DROTL64 d6, d6, #29" ∧ asm (.sent 2 0 1 7) = "SENT d2, d0, d1, d7" := by
  decide +kernel

/-! ### States and what is read off an outcome -/

/-- The reset state with given D registers. -/
def withD (d : Vector DWord 8) : State := { State.reset with d := d }

/-- D1 = x, D2 = y, D7 = z, the rest 0. -/
def regs (x y z : DWord) : State := withD #v[0, x, y, 0, 0, 0, 0, z]

/-- D[r] after an outcome, where it is a next state. -/
def dOf (o : Result) (r : DReg) : Option DWord :=
  match o with
  | .next t => some (t.readD r)
  | .fault _ => none
  | .refused _ => none

/-- STATUS and IRQ after an outcome, where it is a next state. -/
def statusOf (o : Result) : Option (Word × Bool) :=
  match o with
  | .next t => some (t.status.word, t.irq)
  | .fault _ => none
  | .refused _ => none

/-- Bytes of DMEM, ADDR and LEN after an outcome, where it is a next state. -/
def memOf (o : Result) (a n : Nat) : Option (Option (List Byte) × Word × Word) :=
  match o with
  | .next t => some (t.mem.readBytes a n, t.addr, t.len)
  | .fault _ => none
  | .refused _ => none

/-- Parameters of 95_test_vectors.md ("example parameters", the rest at their defaults). -/
def exampleParams : Params where
  fixedKey := .bits128 (Vector.ofFn fun i => BitVec.ofNat 8 i.val)
  fixedIv := Vector.ofFn fun i => BitVec.ofNat 8 (0xf0 + i.val)
  evolveT64 := 0x0123456789ABCDEF#64

/-- The reset state of the example machine. -/
def exampleState : State := State.resetOf exampleParams

/-- A block from its 16 bytes as one number, the first byte highest. -/
def block (v : Nat) : Block := Vector.ofFn fun i => BitVec.ofNat 8 (v / 256 ^ (15 - i.val))

/-! ### Register commands (V30 to V48) -/

theorem test_nop : statusOf (exec .nop (State.reset.pending 0)) = some (0x2#32, false) := by decide +kernel
theorem test_dxor : dOf (exec (.dxor 3 1 2) (regs 0xF0F0F0F0 0x0FF00FF0 0)) 3 = some 0xFF00FF00#64 := by decide +kernel
theorem test_dxor_self : dOf (exec (.dxor 7 7 7) (regs 0 0 0x123456789)) 7 = some 0 := by decide +kernel
theorem test_dcat16 : dOf (exec (.dcat16 0 1 2) (regs 0xFFFFFFFFFFFFABCD 0xFFFFFFFFFFFF1234 0)) 0 = some 0xABCD1234#64 := by
  decide +kernel
theorem test_dcat32 : dOf (exec (.dcat32 4 1 2) (regs 1 0x80000000 0)) 4 = some 0x180000000#64 := by decide +kernel
theorem test_dfold16 : dOf (exec (.dfold16 2 2) (regs 0 0x12345678 0)) 2 = some 0x444C#64 := by decide +kernel
theorem test_drotl32 : dOf (exec (.drotl32 0 1 31#6) (regs 0x80000001 0 0)) 0 = some 0xC0000000#64 := by decide +kernel
theorem test_drotl32_zero : dOf (exec (.drotl32 0 1 0#6) (regs 0xFFFFFFFF80000001 0 0)) 0 = some 0x80000001#64 := by
  decide +kernel
theorem test_drotr32 : dOf (exec (.drotr32 0 1 3#6) (regs 0xF 0 0)) 0 = some 0xE0000001#64 := by decide +kernel
theorem test_drotl64 : dOf (exec (.drotl64 0 1 63#6) (regs 0x8000000000000001 0 0)) 0 = some 0xC000000000000000#64 := by
  decide +kernel
theorem test_drotr64 : dOf (exec (.drotr64 1 1 4#6) (regs 0x18 0 0)) 1 = some 0x8000000000000001#64 := by decide +kernel
theorem test_dand : dOf (exec (.dand 0 1 2) (regs 0x1234567890ABCDEF 0xFFFFFFFF 0)) 0 = some 0x90ABCDEF#64 := by
  decide +kernel
theorem test_dor : dOf (exec (.dor 0 1 2) (regs 0xF0 0x0F 0)) 0 = some 0xFF#64 := by decide +kernel
theorem test_dshl64 : dOf (exec (.dshl64 0 1 63#6) (regs 0xFFFFFFFFFFFFFFFF 0 0)) 0 = some 0x8000000000000000#64 := by
  decide +kernel
theorem test_dshr64 : dOf (exec (.dshr64 0 1 16#6) (regs 0xABCD1234 0 0)) 0 = some 0xABCD#64 := by decide +kernel
theorem test_drotl16 : dOf (exec (.drotl16 0 1 1#6) (regs 0x8001 0 0)) 0 = some 0x3#64 := by decide +kernel
theorem test_drotr16 : dOf (exec (.drotr16 0 1 1#6) (regs 0x3 0 0)) 0 = some 0x8001#64 := by decide +kernel
/-- V32: the high halves are ignored. -/
theorem test_sent : dOf (exec (.sent 0 1 2 7) (regs 0xFFFFFFFFCAFEBABE 0x1C3D8368 0x9ABCDEF012345678)) 0 =
      some 0x1C3D8368#64 ∧
    statusOf (exec (.sent 0 1 2 7) (regs 0xFFFFFFFFCAFEBABE 0x1C3D8368 0x9ABCDEF012345678)) = some (0x6#32, false) := by
  decide +kernel
/-- V31 with bit 5 flipped. -/
theorem test_sent_rejects : statusOf (exec (.sent 0 1 2 7) (regs 0xCAFEBABE 0x1C3D8348 0x9ABCDEF012345678)) =
    some (0x2#32, false) := by decide +kernel

/-! ### Commands that read DMEM, under the example parameters (V8b, V15, V27, V33, V34a, V49, V49d) -/

theorem test_dld16 :
    let s := { exampleState with addr := 4#32, mem := [(4, 0x12#8), (5, 0x34#8)] }
    dOf (complete s (loadStream exampleParams 2 1 s)) 1 = some 0x1234#64 ∧
    memOf (complete s (loadStream exampleParams 2 1 s)) 4 2 = some (some [0x12#8, 0x34#8], 6#32, 0#32) := by decide +kernel
/-- V33a: a range past the end of DMEM. -/
theorem test_dld16_range :
    let s := { exampleState with addr := 0xFFFF#32 }
    statusOf (complete s (loadStream exampleParams 2 1 s)) = some (0x302#32, false) := by decide +kernel
theorem test_dld32 :
    let s := { exampleState with addr := 1#32, mem := [(1, 0x01#8), (2, 0x02#8), (3, 0x03#8), (4, 0x04#8)] }
    dOf (complete s (loadStream exampleParams 4 0 s)) 0 = some 0x01020304#64 := by decide +kernel
theorem test_dmask :
    let s := { exampleState with dst := 0x1000#32, d := #v[0, 0x5A, 0, 0, 0, 0, 0, 0],
                                 mem := [(0, 0x3b#8), (1, 0x3c#8), (2, 0x5a#8), (3, 0xff#8)] }
    dOf (complete s (demaskName exampleParams 2 1 s)) 2 = some 0x0000000300000002#64 ∧
    memOf (complete s (demaskName exampleParams 2 1 s)) 0x1000 2 = some (some [0x61#8, 0x66#8], 3#32, 0#32) := by
  decide +kernel
/-- V49d: the raw terminator test. -/
theorem test_dmask_raw :
    let p := { exampleParams with nameNulTest := .raw }
    let s := { exampleState with dst := 0x1000#32, d := #v[0, 0x5A, 0, 0, 0, 0, 0, 0],
                                 mem := [(0, 0x3b#8), (1, 0x5a#8), (2, 0x3c#8), (3, 0x00#8)] }
    dOf (complete s (demaskName p 2 1 s)) 2 = some 0x0000000400000003#64 := by decide +kernel
/-- V8b: in place. -/
theorem test_encb :
    let s := { exampleState with mem := (List.range 16).map fun k => (k, 0#8) }
    memOf (complete s (encb exampleParams s)) 0 16 =
      some (some (block 0xc6a13b37878f5b826f4f8162a1c8d879).toList, 0#32, 0#32) := by decide +kernel
/-- V27: the last 6 bytes of DMEM, seeded with IVB. -/
theorem test_kstep :
    let s := { exampleState with addr := 0xFFFA#32, len := 6#32, prev := exampleState.iv,
                                 mem := (List.range 6).map fun k => (0xFFFA + k, 0#8) }
    memOf (complete s (kstep exampleParams s)) 0xFFFA 6 =
      some (some [0x66#8, 0xa7#8, 0xc7#8, 0xe8#8, 0x34#8, 0x52#8], 0x10000#32, 0#32) := by decide +kernel
/-- V15: the short last chunk; ADDR and LEN stay. -/
theorem test_chain :
    let s := { exampleState with addr := 0x40#32, len := 1#32, mem := [(0x40, 0x00#8)] }
    memOf (complete s (chain exampleParams s)) 0x40 1 = some (some [0x66#8], 0x40#32, 1#32) := by decide +kernel

/-! ### Cipher and keystream functions (V4, V10, V11, V12, V21) -/

/-- V4: word 12 is the SubWord-only word of a 256-bit key. -/
theorem test_keyExpansion256 :
    let w := keyExpansion exampleParams ((List.range 32).map (BitVec.ofNat 8 ·)) 14
    w.length = 60 ∧ w.getD 8 zeroKWord = #v[0xa5#8, 0x73#8, 0xc2#8, 0x9f#8] ∧
      w.getD 12 zeroKWord = #v[0x16#8, 0x51#8, 0xa8#8, 0xcd#8] ∧
      w.getD 59 zeroKWord = #v[0x6d#8, 0x68#8, 0xde#8, 0x36#8] := by decide +kernel
theorem test_evolve : evolve exampleParams (block 0x66a7c7e8345231489751de073316adad) =
    block 0x29624ff8b6436e5ff24aa21d01ab1ee9 := by decide +kernel
theorem test_evolve_narrow : evolve { exampleParams with evolveWide := false } (block 0x66a7c7e8345231489751de073316adad) =
    block 0x29624ff8b6436e5ff24aa21d7c6ff8e9 := by decide +kernel
theorem test_evolve_phase : evolve { exampleParams with evolvePhase := .after }
    (block 0x66a7c7e8345231489751de073316adad) = block 0x4c46ec90455b200d59a82bd3ad2741de := by decide +kernel
theorem test_samplePositions : (samplePositions 272).length = 255 ∧ (samplePositions 272).getLast? = some 270 ∧
    (samplePositions 2064).length = 129 ∧ (samplePositions 2064).getLast? = some 2048 ∧
    (samplePositions 100000).length = 256 ∧ (samplePositions 100000).getLast? = some 4080 := by decide +kernel
/-- The default tables (R103, R106). -/
theorem test_tables : rijndaelSbox 0x00#8 = 0x63#8 ∧ rijndaelSbox 0x53#8 = 0xed#8 ∧ rijndaelSbox 0xff#8 = 0x16#8 ∧
    rijndaelRcon 1 = 0x01#8 ∧ rijndaelRcon 9 = 0x1b#8 ∧ rijndaelRcon 10 = 0x36#8 := by decide +kernel

/-! ### One step: the interface and the bus (V60 to V69) -/

/-- The first step after reset runs the command put in place of an accepted CMD write. -/
theorem test_withFetchWord : statusOf (step (State.reset.withFetchWord 32 0x00008B22)) = some (0x2#32, false) ∧
    statusOf (step (State.reset.withFetchWord 32 0xFF)) = some (0x102#32, false) ∧
    statusOf (step (State.reset.withFetchWord 32 0x02000826)) = some (0x202#32, false) ∧
    statusOf (step (State.reset.withFetchWord 32 0x11)) = some (0x402#32, false) := by decide +kernel
/-- V62: an accepted CMD write. -/
theorem test_issue : statusOf (step { State.reset with host := [.write32 0x0C#32 0#32] }) = some (0x1#32, false) := by
  decide +kernel
/-- V63: a write while BUSY = 1 with IE = 1. -/
theorem test_misuse :
    let s := { State.reset.pending 0 with ctrl := ⟨false, true⟩, wait := 1, host := [.write32 0x10#32 5#32] }
    statusOf (step s) = some (0x9#32, true) := by decide +kernel
/-- V69: a STATUS write while BUSY = 1 is no misuse. -/
theorem test_acknowledge : statusOf (step { State.reset.pending 0 with wait := 1, host := [.write32 0x08#32 2#32] }) =
    some (0x1#32, false) := by decide +kernel
/-- A 16-bit write is big-endian (R56). -/
theorem test_bus_write16 : memOf (step { State.reset with host := [.write16 0x01000002#32 0xBEEF#16] }) 2 2 =
    some (some [0xBE#8, 0xEF#8], 0#32, 0#32) := by decide +kernel
/-- A misaligned register access is a bus error (R231). -/
theorem test_busError : (match step { State.reset with host := [.read .w32 0x06#32] } with
    | .next t => t.resp
    | .fault _ => none
    | .refused _ => none) = some .busError := by decide +kernel
/-- A host read of an unwritten byte (R230). -/
theorem test_unwritten : (match step { State.reset with host := [.read .w8 0x01000000#32] } with
    | .next _ => false
    | .fault f => decide (f = .unwrittenRead)
    | .refused _ => false) = true := by decide +kernel

/-! ### Witnesses: states and operands that meet the hypotheses of each statement, clause by clause at its boundary -/

/-- A pending command with one host access still before it. -/
def busyBefore (e : HostEvent) : State := { State.reset.pending 0 with wait := 1, host := [e] }

/-- No command pending and one host access to come. -/
def idleBefore (e : HostEvent) : State := { State.reset with host := [e] }

/-- The reset state with bytes written at an offset and the cursor there. -/
def loaded (a : Nat) (bytes : List Byte) : State :=
  { State.reset with addr := BitVec.ofNat 32 a, mem := Memory.writeBytes [] a bytes }

theorem loaded_read (a : Nat) (bytes : List Byte) (k : Nat) (hk : k < bytes.length) :
    (loaded a bytes).mem.read (a + k) = some bytes[k] :=
  Memory.read_writeBytes_at [] a bytes k hk

/-- No DMEM is smaller than 512 bytes or larger than 2^24 (R5). -/
theorem dmem_holds (n : Nat) (h : n ≤ 512) : n ≤ dmemBytes Config.params :=
  h.trans (dmemBytes_bounds Config.params).1

theorem dmem_ends (n : Nat) (h : 0x01000000 < n) : dmemBytes Config.params < n :=
  lt_of_le_of_lt (dmemBytes_bounds Config.params).2.1 h

theorem witness_DecodeOfEncodeIsTheCommand :
    (Instr.drotl32 7 7 31#6).wellFormed = true ∧ (Instr.drotl16 7 7 15#6).wellFormed = true ∧
      (Instr.dshr64 7 7 63#6).wellFormed = true ∧ (Instr.sent 7 7 7 7).wellFormed = true := by decide

theorem witness_EncodeOfDecodeIsTheWord : decode 0x000E422A#32 = .cmd (.sent 2 0 1 7) ∧
    decode 0x01F00026#32 = .cmd (.drotl32 0 0 31#6) := by decide +kernel

/-- Opcodes on both sides of every gap of the opcode map. -/
def undefinedWords : List Word := [0x01#32, 0x0F#32, 0x13#32, 0x1F#32, 0x32#32, 0xFF#32, 0xFFFFFF13#32]

theorem witness_UndefinedOpcodeRaisesIllegal :
    ∀ i : Fin 7, ¬ definedOp (opField (State.reset.pending (undefinedWords.getD i.val 0#32)).cmd).toNat := by
  unfold definedOp; decide +kernel

/-- Reserved words: each field that must be 0 is not, or a rotation distance is at its width. -/
def reservedWords : List Word := [0x00000100#32, 0x00000800#32, 0x00004021#32, 0x00020022#32, 0x00100025#32, 0x02000026#32,
  0x01000030#32, 0x04000028#32, 0x80000021#32]

/-- Words with every used field and every rotation distance at its largest value. -/
def allowedWords : List Word := [0x00000000#32, 0x01F03F26#32, 0x00F03F30#32, 0x03F03F28#32, 0x000FFF2A#32, 0x00003F2B#32]

theorem witness_NonzeroUnusedFieldRaisesReserved_defined : ∀ i : Fin 15,
    definedOp (opField (State.reset.pending ((reservedWords ++ allowedWords).getD i.val 0xFF#32)).cmd).toNat := by
  unfold definedOp; decide +kernel

theorem witness_NonzeroUnusedFieldRaisesReserved_reserved :
    ∀ i : Fin 9, ¬ fieldsAllowed (State.reset.pending (reservedWords.getD i.val 0#32)).cmd := by
  unfold fieldsAllowed usesRs2; decide +kernel

theorem witness_NonzeroUnusedFieldRaisesReserved_allowed :
    ∀ i : Fin 6, fieldsAllowed (State.reset.pending (allowedWords.getD i.val 0x100#32)).cmd := by
  unfold fieldsAllowed usesRs2; decide +kernel

theorem witness_StepRunsThePendingCommand :
    (State.reset.pending 0x8B22#32).status.busy = true ∧ (State.reset.pending 0x8B22#32).wait = 0 ∧
      decode (State.reset.pending 0x8B22#32).cmd = .cmd (.dxor 3 1 2) ∧
      decode (State.reset.pending 0xFF#32).cmd = .illegal ∧ decode (State.reset.pending 0x100#32).cmd = .reserved := by
  decide +kernel

theorem witness_StepRuns_noHost :
    let s := { State.reset.pending 0#32 with wait := 5 }
    s.status.busy = true ∧ s.wait ≠ 0 ∧ s.host = [] := by decide

theorem witness_IdleWithoutCommandOrEvent : State.reset.status.busy = false ∧ State.reset.host = [] := ⟨rfl, rfl⟩

theorem witness_CmdWriteIssuesTheCommand :
    (idleBefore (.write32 0x0C#32 0x12#32)).status.busy = false ∧
      (idleBefore (.write32 0x0C#32 0x12#32)).host = .write32 0x0C#32 0x12#32 :: [] := ⟨rfl, rfl⟩

theorem witness_PendingCommandCompletes :
    (busyBefore (.write32 0x10#32 5#32)).status.busy = true ∧
      HostEvent.reset ∉ (busyBefore (.write32 0x10#32 5#32)).host := by decide

theorem plainOffset_bounds : ∀ a ∈ [0x10, 0x14, 0x18, 0x20, 0x3C, 0x40, 0x4C, 0x50, 0x5C, 0x80, 0xBC], plainOffset a := by
  unfold plainOffset; decide

theorem guardedOffset_bounds : ∀ a ∈ [0x04, 0x0C, 0x10, 0x5C, 0x80, 0xBC], guardedOffset a := by
  unfold guardedOffset plainOffset; decide

theorem dmemAccess_first (w : Width) : dmemAccess w 0x01000000#32 0 := by
  refine ⟨rfl, by simp, ?_⟩
  rcases w.bytes_cases with e | e | e <;> rw [e] <;> exact dmem_holds _ (by omega)

theorem dmemAccess_last :
    dmemAccess .w8 (BitVec.ofNat 32 (0x01000000 + (dmemBytes Config.params - 1))) (dmemBytes Config.params - 1) := by
  have h := dmemBytes_bounds Config.params
  refine ⟨?_, ?_, ?_⟩
  · rw [BitVec.toNat_ofNat, Nat.mod_eq_of_lt (by omega)]
  · simp [Width.bytes, Nat.mod_one]
  · simp only [Width.bytes]; omega

theorem witness_AccessesWhileBusy (e : HostEvent) :
    (busyBefore e).status.busy = true ∧ (busyBefore e).wait ≠ 0 ∧ (busyBefore e).host = e :: [] := ⟨rfl, Nat.one_ne_zero, rfl⟩

theorem witness_StatusWriteAcknowledges :
    hostMoves (idleBefore (.write32 0x08#32 0xA#32)) (.write32 0x08#32 0xA#32) [] ∧
      hostMoves (busyBefore (.write32 0x08#32 0x8#32)) (.write32 0x08#32 0x8#32) [] ∧
      hostMoves (idleBefore (.read .w32 0x08#32)) (.read .w32 0x08#32) [] :=
  ⟨⟨rfl, .inl rfl⟩, ⟨rfl, .inr (by decide)⟩, ⟨rfl, .inl rfl⟩⟩

theorem witness_IdAndReservedOffsets : (∀ a ∈ [0x1C, 0x60, 0x7C, 0xC0, 0xFC], reservedOffset a) ∧
    hostMoves (idleBefore (.write32 0x1C#32 1#32)) (.write32 0x1C#32 1#32) [] ∧
    hostMoves (busyBefore (.write32 0x00#32 1#32)) (.write32 0x00#32 1#32) [] ∧
    hostMoves (busyBefore (.read .w32 0xFC#32)) (.read .w32 0xFC#32) [] := by
  refine ⟨?_, ⟨rfl, .inl rfl⟩, ⟨rfl, .inr (by decide)⟩, ⟨rfl, .inr (by decide)⟩⟩
  unfold reservedOffset
  decide

theorem witness_RegisterWriteReadsBack (a : Word) :
    let s := { State.reset with host := [.write32 a 0xFFFFFFFF#32, .read .w32 a] }
    s.status.busy = false ∧ s.host = .write32 a 0xFFFFFFFF#32 :: .read .w32 a :: [] := ⟨rfl, rfl⟩

theorem witness_DRegisterHalves (i : Fin 8) :
    (idleBefore (.write32 (BitVec.ofNat 32 (0x80 + 8 * i.val)) 1#32)).host =
        .write32 (BitVec.ofNat 32 (0x80 + 8 * i.val)) 1#32 :: [] ∧
      (idleBefore (.read .w32 (BitVec.ofNat 32 (0x84 + 8 * i.val)))).status.busy = false ∧
      (busyBefore (.write32 (BitVec.ofNat 32 (0x84 + 8 * i.val)) 1#32)).status.busy = true ∧
      (busyBefore (.write32 (BitVec.ofNat 32 (0x84 + 8 * i.val)) 1#32)).wait ≠ 0 := ⟨rfl, rfl, rfl, Nat.one_ne_zero⟩

/-- A written byte at the last offset of a 32-bit read. -/
theorem witness_HostMemoryIsBigEndian :
    let s := { loaded 0 [1#8, 2#8, 3#8, 4#8] with host := [.read .w32 0x01000000#32] }
    s.status.busy = false ∧ dmemAccess .w32 0x01000000#32 0 ∧ s.host = .read .w32 0x01000000#32 :: [] ∧
      [1#8, 2#8, 3#8, 4#8].length = Width.bytes .w32 ∧
      ∀ k (hk : k < [1#8, 2#8, 3#8, 4#8].length), s.mem.read (0 + k) = some [1#8, 2#8, 3#8, 4#8][k] :=
  ⟨rfl, dmemAccess_first _, rfl, rfl, fun k hk => loaded_read 0 _ k hk⟩

/-- Three of four bytes written. -/
theorem witness_HostReadOfUnwrittenByteFaults :
    let s := { loaded 0 [1#8, 2#8, 3#8] with host := [.read .w32 0x01000000#32] }
    s.status.busy = false ∧ dmemAccess .w32 0x01000000#32 0 ∧ s.host = .read .w32 0x01000000#32 :: [] ∧
      ∃ k, k < Width.bytes .w32 ∧ s.mem.read (0 + k) = none := ⟨rfl, dmemAccess_first _, rfl, 3, by decide, by decide⟩

/-- A byte access to a register, a misaligned one, the gap's two ends, a misaligned and an outside access to the window. -/
theorem witness_BusErrorChangesNothing :
    badAccess .w8 0x00 ∧ badAccess .w32 0xFE ∧ badAccess .w32 0x100 ∧ badAccess .w8 0x00FFFFFF ∧
      badAccess .w16 0x01000001 ∧ badAccess .w8 (0x01000000 + dmemBytes Config.params) ∧ badAccess .w32 0xFFFFFFFC ∧
      hostMoves (idleBefore (.read .w8 0#32)) (.read .w8 0#32) [] ∧
      hostMoves (busyBefore (writeEvent .w16 0x01000001#32 0#32)) (writeEvent .w16 0x01000001#32 0#32) [] := by
  have := (dmemBytes_bounds Config.params).2.1
  exact ⟨.inl ⟨by decide, .inl (by decide)⟩, .inl ⟨by decide, .inr (by decide)⟩, .inr (.inl ⟨by decide, by decide⟩),
    .inr (.inl ⟨by decide, by decide⟩), .inr (.inr ⟨by decide, .inl (by decide)⟩),
    .inr (.inr ⟨Nat.le_add_right _ _, .inr (Nat.lt_add_of_pos_right (by decide))⟩),
    .inr (.inr ⟨by decide, .inr (by simp only [Width.bytes]; omega)⟩), ⟨rfl, .inl rfl⟩, ⟨rfl, .inr (by decide)⟩⟩

theorem witness_CompletionRaisesIrqWhenEnabled : ∃ t, exec .nop State.reset = .next t := ⟨_, rfl⟩

theorem witness_ResetEventGivesTheResetState : hostMoves (idleBefore .reset) .reset [] ∧
    hostMoves (busyBefore .reset) .reset [] := ⟨⟨rfl, .inl rfl⟩, ⟨rfl, .inr (by decide)⟩⟩

/-- The invariant's conditions on STATUS, DMEM empty. -/
theorem witness_StepKeepsTheInvariant : (State.reset.pending 0#32).Inv ∧ ∃ t, step (State.reset.pending 0#32) = .next t :=
  ⟨⟨rfl, fun _ _ h => (nomatch h), by decide, fun _ => rfl, fun _ => rfl⟩, ⟨_, rfl⟩⟩

theorem witness_RegisterCommandsNeverFail : registerOnly (.drotr16 0 1 15#6) = true ∧
    (Instr.drotr16 0 1 15#6).wellFormed = true ∧ exec (.dld16 0) State.reset = .fault .unwrittenRead := by
  refine ⟨rfl, rfl, ?_⟩
  have h : inRange Config.params 0 2 = true := (inRange_iff _ _ _).2 (dmem_holds 2 (by omega))
  show complete State.reset (loadStream Config.params 2 0 State.reset) = _
  rw [loadStream, show State.reset.addr.toNat = 0 from rfl, h, require_true, ok_bind, memRead_of_none h rfl]
  rfl

theorem witness_ErrorsArePrecise : ∃ t, exec .kstep State.reset = .next t ∧ t.status.err ≠ 0#4 := ⟨_, rfl, by decide⟩

theorem witness_OnlySentWritesValid : (∃ t, exec (.sent 0 1 2 3) State.reset = .next t ∧ t.status.err = 0#4) ∧
    (∃ t, exec (.dxor 0 1 2) State.reset = .next t) ∧ ∃ t, exec .kstep State.reset = .next t ∧ t.status.err ≠ 0#4 :=
  ⟨⟨_, rfl, rfl⟩, ⟨_, rfl⟩, _, rfl, by decide⟩

theorem witness_CommandsLeaveFixedRegisters : ∃ t, exec (.drotl32 0 1 32#6) State.reset = .next t := ⟨_, rfl⟩

theorem witness_CommandsTouchOnlyTheirState : (∃ t, exec .kstep State.reset = .next t) ∧
    ∃ t, exec (.dfold16 7 7) State.reset = .next t := ⟨⟨_, rfl⟩, _, rfl⟩

theorem witness_Rotate32Result : (31#6 : Imm6).toNat < 32 ∧ 32 ≤ (32#6 : Imm6).toNat := by decide

theorem witness_Rotate16Result : (15#6 : Imm6).toNat < 16 ∧ 16 ≤ (16#6 : Imm6).toNat := by decide

/-- RS2 a register of its own; RS1 and RS3 may be one. -/
theorem witness_SentinelAcceptsOneWord : (2 : DReg) ≠ 1 ∧ (2 : DReg) ≠ 3 ∧ (0 : DReg) ≠ 7 := by decide

theorem witness_StreamLoadsResult :
    let s := loaded 508 [1#8, 2#8, 3#8, 4#8]
    s.addr.toNat + 4 ≤ dmemBytes Config.params ∧ s.addr.toNat + 2 ≤ dmemBytes Config.params ∧
      ∀ k (hk : k < [1#8, 2#8, 3#8, 4#8].length), s.mem.read (s.addr.toNat + k) = some [1#8, 2#8, 3#8, 4#8][k] :=
  ⟨dmem_holds 512 (by omega), dmem_holds 510 (by omega), fun k hk => loaded_read 508 _ k hk⟩

theorem witness_StreamLoadsStop :
    dmemBytes Config.params < ({ State.reset with addr := 0x00FFFFFF#32 } : State).addr.toNat + 2 ∧
      (loaded 508 [1#8, 2#8, 3#8]).addr.toNat + 4 ≤ dmemBytes Config.params ∧
      (loaded 508 [1#8, 2#8, 3#8]).mem.read ((loaded 508 [1#8, 2#8, 3#8]).addr.toNat + 3) = none := by
  exact ⟨dmem_ends _ (by decide), dmem_holds 512 (by omega), by decide +kernel⟩

theorem terminates_zero (p : Params) : terminates p 0#8 0#8 ∧ ∀ b : Byte, b ≠ 0#8 → ¬ terminates p 0#8 b := by
  unfold terminates
  cases p.nameNulTest <;> simp

/-- A two-byte name and its terminator under mask 0; D0 holds the mask. -/
theorem witness_NameDemaskResult :
    let s := loaded 0 [1#8, 2#8, 0#8]
    (∀ k (hk : k < [1#8, 2#8].length), s.mem.read (s.addr.toNat + k) = some [1#8, 2#8][k]) ∧
    (∀ b ∈ [1#8, 2#8], ¬ terminates Config.params ((s.readD 0).setWidth 8) b) ∧
    (∃ z, s.mem.read (s.addr.toNat + 2) = some z ∧ terminates Config.params ((s.readD 0).setWidth 8) z) ∧
    s.addr.toNat + 3 ≤ dmemBytes Config.params ∧ s.dst.toNat + 2 ≤ dmemBytes Config.params := by
  have h0 : ((loaded 0 [1#8, 2#8, 0#8]).readD 0).setWidth 8 = 0#8 := by decide
  refine ⟨fun k hk => ?_, fun b hb => ?_, ⟨0#8, rfl, ?_⟩, dmem_holds 3 (by omega), dmem_holds 2 (by omega)⟩
  · have := loaded_read 0 [1#8, 2#8, 0#8] k (by simp at hk ⊢; omega)
    refine this.trans ?_
    simp at hk
    interval_cases k <;> rfl
  · rw [h0]
    refine (terminates_zero _).2 b ?_
    rintro rfl
    simp at hb
  · rw [h0]
    exact (terminates_zero _).1

/-- The cap: 64 bytes without a terminator. -/
theorem witness_NameDemaskResult_cap :
    let s := loaded 0 (List.replicate 64 1#8)
    (∀ k (hk : k < (List.replicate 64 1#8).length), s.mem.read (s.addr.toNat + k) = some (List.replicate 64 1#8)[k]) ∧
    (∀ b ∈ List.replicate 64 1#8, ¬ terminates Config.params ((s.readD 0).setWidth 8) b) ∧
    (List.replicate 64 1#8).length = 64 ∧ s.addr.toNat + 64 ≤ dmemBytes Config.params := by
  have h0 : ((loaded 0 (List.replicate 64 1#8)).readD 0).setWidth 8 = 0#8 := by decide
  refine ⟨fun k hk => loaded_read 0 _ k hk, fun b hb => ?_, rfl, dmem_holds 64 (by omega)⟩
  rw [h0, List.eq_of_mem_replicate hb]
  exact (terminates_zero _).2 _ (by decide)

/-- With nothing scanned: the cursor at the end of DMEM, an unwritten first byte, and a terminator before a destination
outside DMEM. -/
theorem witness_NameDemaskStops :
    dmemBytes Config.params ≤ ({ State.reset with addr := 0x01000001#32 } : State).addr.toNat + ([] : List Byte).length ∧
    (State.reset.addr.toNat + ([] : List Byte).length < dmemBytes Config.params ∧
      State.reset.mem.read (State.reset.addr.toNat + 0) = none) ∧
    (let s := { loaded 0 [0#8] with dst := 0x01000001#32 }
     (∃ z, s.mem.read (s.addr.toNat + 0) = some z ∧ terminates Config.params ((s.readD 0).setWidth 8) z) ∧
       dmemBytes Config.params < s.dst.toNat + ([] : List Byte).length) := by
  refine ⟨(dmem_ends _ (by decide)).le, ⟨dmem_holds 1 (by omega), rfl⟩, ⟨0#8, rfl, ?_⟩, dmem_ends _ (by decide)⟩
  have h0 : (({ loaded 0 [0#8] with dst := 0x01000001#32 } : State).readD 0).setWidth 8 = 0#8 := by decide
  rw [h0]
  exact (terminates_zero _).1

theorem witness_KeyExpansionRecurrence : (List.replicate 16 0#8).length = 4 * 4 ∧ (List.replicate 32 0#8).length = 4 * 8 ∧
    4 < 4 * (10 + 1) := by decide

theorem witness_CipherIsItsRounds : (List.replicate 16 0#8).length = 16 ∧ (List.replicate 32 0#8).length = 32 := by decide

theorem witness_ActiveKeyBytes : 4 * (3 : Fin 8).val + (3 : Fin 4).val <
    ({ State.reset with ctrl := ⟨false, false⟩ } : State).activeKey.length ∧
    4 * (7 : Fin 8).val + (3 : Fin 4).val < ({ State.reset with ctrl := ⟨true, false⟩ } : State).activeKey.length := by
  simp [State.activeKey_length]

theorem witness_EncbResult :
    let s := loaded 496 (List.replicate 16 0#8)
    s.addr.toNat + 16 ≤ dmemBytes Config.params ∧ s.dst.toNat + 16 ≤ dmemBytes Config.params ∧
      ∀ k : Fin 16, s.mem.read (s.addr.toNat + k.val) = some (Vector.replicate 16 0#8)[k] := by
  refine ⟨dmem_holds 512 (by omega), dmem_holds 16 (by omega), fun k => ?_⟩
  refine (loaded_read 496 (List.replicate 16 0#8) k.val (by simp)).trans ?_
  rw [List.getElem_replicate, Fin.getElem_fin, Vector.getElem_replicate]

theorem witness_EncbStops :
    dmemBytes Config.params < ({ State.reset with dst := 0x00FFFFF1#32 } : State).dst.toNat + 16 ∧
      State.reset.addr.toNat + 16 ≤ dmemBytes Config.params ∧ State.reset.mem.read (State.reset.addr.toNat + 15) = none := by
  exact ⟨dmem_ends _ (by decide), dmem_holds 16 (by omega), rfl⟩

theorem witness_EvolveBitTransform : (15 : Nat) < 16 ∧ (9 : Nat) ≤ 15 ∧ (8 : Nat) ≤ 8 ∧ (255 : Nat) < 256 := by decide

/-- A short and a full chunk. -/
theorem witness_KstepResult (n : Nat) (h : n = 1 ∨ n = 16) :
    let s := { loaded 0 (List.replicate 16 5#8) with len := BitVec.ofNat 32 n }
    s.len.toNat ≠ 0 ∧ (List.replicate n 5#8).length = min 16 s.len.toNat ∧
      s.addr.toNat + (List.replicate n 5#8).length ≤ dmemBytes Config.params ∧
      ∀ k (hk : k < (List.replicate n 5#8).length), s.mem.read (s.addr.toNat + k) = some (List.replicate n 5#8)[k] := by
  have hn : (BitVec.ofNat 32 n).toNat = n := by rcases h with rfl | rfl <;> rfl
  refine ⟨?_, ?_, ?_, fun k hk => ?_⟩
  · show (BitVec.ofNat 32 n).toNat ≠ 0
    omega
  · show _ = min 16 (BitVec.ofNat 32 n).toNat
    rw [hn, List.length_replicate]
    omega
  · rw [List.length_replicate]
    exact dmem_holds (0 + n) (by omega)
  · rw [List.length_replicate] at hk
    refine (loaded_read 0 (List.replicate 16 5#8) k (by simp; omega)).trans ?_
    rw [List.getElem_replicate, List.getElem_replicate]

theorem witness_KstepStops :
    State.reset.len = 0 ∧
    (let s := { State.reset with addr := 0x00FFFFFF#32, len := 2#32 }
     s.len ≠ 0 ∧ dmemBytes Config.params < s.addr.toNat + min 16 s.len.toNat) ∧
    (let s := { State.reset with len := 1#32 }
     s.len ≠ 0 ∧ s.addr.toNat + min 16 s.len.toNat ≤ dmemBytes Config.params ∧ s.mem.read (s.addr.toNat + 0) = none) := by
  exact ⟨rfl, ⟨by decide, dmem_ends _ (by decide)⟩, by decide, dmem_holds 1 (by omega), rfl⟩

/-- LEN = 0 and LEN = 256, the ends of the small path. -/
theorem witness_ChainSmallResult (n : Nat) (h : n = 0 ∨ n = 256) :
    let s := { loaded 0 (List.replicate n 5#8) with len := BitVec.ofNat 32 n }
    (List.replicate n 5#8).length = s.len.toNat ∧ s.len.toNat ≤ 256 ∧
      s.addr.toNat + (List.replicate n 5#8).length ≤ dmemBytes Config.params ∧
      ∀ k (hk : k < (List.replicate n 5#8).length), s.mem.read (s.addr.toNat + k) = some (List.replicate n 5#8)[k] := by
  have hn : (BitVec.ofNat 32 n).toNat = n := by rcases h with rfl | rfl <;> rfl
  refine ⟨by rw [List.length_replicate]; exact hn.symm, ?_, ?_, fun k hk => loaded_read 0 _ k hk⟩
  · show (BitVec.ofNat 32 n).toNat ≤ 256
    omega
  · rw [List.length_replicate]
    exact dmem_holds (0 + n) (by omega)

/-- LEN = 257, the start of the large path: 16 blocks, all 16 bytes of each, whatever the 257 bytes are. -/
theorem witness_ChainLargeResult (bytes : List Byte) (hb : bytes.length = 257) :
    let s := { loaded 0 bytes with len := 257#32 }
    256 < s.len.toNat ∧ s.len.toNat / 16 = 16 ∧ min 16 256 = 16 ∧ max 1 (256 / 16) = 16 ∧
      s.addr.toNat + s.len.toNat ≤ dmemBytes Config.params ∧
      ∀ i j, i < 16 → j < 16 → ∃ b, s.mem.read (s.addr.toNat + (16 * i + j)) = some b := by
  have hr : (BitVec.ofNat 32 0).toNat + (257#32).toNat = 257 := by decide
  have hl : 256 < (257#32).toNat ∧ (257#32).toNat / 16 = 16 := by decide
  exact ⟨hl.1, hl.2, by decide, by decide, hr ▸ dmem_holds 257 (by omega),
    fun i j hi hj => ⟨_, loaded_read 0 bytes (16 * i + j) (by omega)⟩⟩

theorem witness_ChainLargeResult_bytes : (List.replicate 257 0#8).length = 257 := List.length_replicate

theorem witness_ChainStops :
    (let s := { State.reset with addr := 0x01000000#32, len := 1#32 }
     dmemBytes Config.params < s.addr.toNat + s.len.toNat) ∧
    (let s := { State.reset with len := 256#32 }
     s.addr.toNat + s.len.toNat ≤ dmemBytes Config.params ∧ s.len.toNat ≤ 256 ∧ s.mem.read (s.addr.toNat + 255) = none) ∧
    (let s := { State.reset with len := 257#32 }
     s.addr.toNat + s.len.toNat ≤ dmemBytes Config.params ∧ 256 < s.len.toNat ∧
       s.mem.read (s.addr.toNat + (16 * 15 + 15)) = none) :=
  ⟨dmem_ends _ (by decide), ⟨dmem_holds 256 (by omega), by decide, rfl⟩, dmem_holds 257 (by omega), by decide, rfl⟩

/-- CHAIN succeeds on a small written buffer in the first 512 bytes. -/
theorem chain_succeeds (s : State) (buf : List Byte) (hl : s.len.toNat = buf.length) (h256 : buf.length ≤ 256)
    (hr : s.addr.toNat + buf.length ≤ 512) (hm : s.mem.readBytes s.addr.toNat buf.length = some buf) :
    ∃ t, exec .chain s = .next t ∧ t.status.err = 0#4 := by
  have hi : inRange Config.params s.addr.toNat s.len.toNat = true := by
    rw [hl]
    exact (inRange_iff _ _ _).2 (dmem_holds _ hr)
  have hw := (chainWhole_eq_ok_iff Config.params s _ hi).2 ⟨buf, by rw [hl]; exact hm, rfl⟩
  have hc := (chain_eq_ok_iff Config.params s _).2 ⟨hi, by rw [if_pos (by rw [hl]; exact h256)]; exact hw⟩
  exact ⟨_, (exec_eq_next_iff .chain s _).2 (.inl ⟨_, hc, rfl⟩), rfl⟩

/-- CHAIN succeeds on a large written buffer in the first 512 bytes. -/
theorem chain_succeeds_large (s : State) (hl : 256 < s.len.toNat) (hr : s.addr.toNat + s.len.toNat ≤ 512)
    (hm : ∀ k, k < s.len.toNat → s.mem.read (s.addr.toNat + k) ≠ none) :
    ∃ t, exec .chain s = .next t ∧ t.status.err = 0#4 := by
  have hi : inRange Config.params s.addr.toNat s.len.toNat = true := (inRange_iff _ _ _).2 (dmem_holds _ hr)
  have hg : s.mem.gather ((samplePositions s.len.toNat).map (s.addr.toNat + ·)) ≠ none := fun h => by
    obtain ⟨o, ho, hn⟩ := (Memory.gather_eq_none_iff _ _).1 h
    obtain ⟨q, hq, rfl⟩ := List.mem_map.1 ho
    obtain ⟨i, hic, j, hj, rfl⟩ := (mem_samplePositions_iff _ q).1 hq
    have hj16 := (sampleStep_le _ hl).2
    unfold sampleCount sampleBlocks at hic
    exact hm _ (by omega) hn
  obtain ⟨g, hg⟩ := Option.ne_none_iff_exists'.1 hg
  have hw := (chainSampled_eq_ok_iff Config.params s _).2 ⟨g, hg, rfl⟩
  have hc := (chain_eq_ok_iff Config.params s _).2 ⟨hi, by rw [if_neg (by unfold smallLimit; omega)]; exact hw⟩
  exact ⟨_, (exec_eq_next_iff .chain s _).2 (.inl ⟨_, hc, rfl⟩), rfl⟩

/-- One written byte. -/
theorem witness_ChainTwiceRestoresMemory :
    ∃ t, exec .chain { loaded 0 [5#8] with len := 1#32 } = .next t ∧ t.status.err = 0#4 :=
  chain_succeeds _ [5#8] rfl (by decide) (by decide) rfl

/-- The large path, at its shortest buffer. -/
theorem witness_ChainTwiceRestoresMemory_large (bytes : List Byte) (hb : bytes.length = 257) :
    ∃ t, exec .chain { loaded 0 bytes with len := 257#32 } = .next t ∧ t.status.err = 0#4 :=
  chain_succeeds_large _ (show 256 < (257#32).toNat by decide) (show (0#32).toNat + (257#32).toNat ≤ 512 by decide) fun k hk h => by
    have hk : k < bytes.length := by rw [hb]; exact hk
    exact Option.some_ne_none _ ((loaded_read 0 bytes k hk).symm.trans h)

/-- One written byte, with IV and PREV equal. -/
theorem witness_KstepsComputeTheChain :
    let s := { loaded 0 [5#8] with len := 1#32, prev := State.reset.iv }
    s.len.toNat ≤ 256 ∧ s.prevBytes = s.ivBytes ∧ ∃ t, exec .chain s = .next t ∧ t.status.err = 0#4 :=
  ⟨by decide, rfl, chain_succeeds _ [5#8] rfl (by decide) (by decide) rfl⟩

/-- Two states with different data. -/
theorem witness_ChainValueIndependentOfData :
    let s := { loaded 0 [5#8] with len := 1#32 }
    let s' := { loaded 1 [7#8] with len := 1#32 }
    s.len = s'.len ∧ s.key = s'.key ∧ s.iv = s'.iv ∧ s.ctrl.ksz = s'.ctrl.ksz ∧
      (∃ t, exec .chain s = .next t ∧ t.status.err = 0#4) ∧ ∃ t, exec .chain s' = .next t ∧ t.status.err = 0#4 :=
  ⟨rfl, rfl, rfl, rfl, chain_succeeds _ [5#8] rfl (by decide) (by decide) rfl,
    chain_succeeds _ [7#8] rfl (by decide) (by decide) rfl⟩

theorem witness_SampleGeometry : 256 < 257 ∧ (257 / 16 = 16) ∧ min 16 256 = 16 ∧ max 1 (256 / 16) = 16 := by decide

end Sys2Proof.Tests
end

/-! Proofs about the state: the register map as the host sees it, what each command can write, the bytes of the registers,
and reset. -/

section
/-! SUPPORT. STATUS, the sentinel and the reset key as naturals and bytes. -/

namespace Sys2Proof.Machine

open Sys2Proof.Claims

/-- The STATUS word by R30's bit positions. -/
theorem Status.word_toNat (st : Status) :
    st.word.toNat = st.busy.toNat + 2 * st.done.toNat + 4 * st.valid.toNat + 8 * st.berr.toNat + 256 * st.err.toNat := by
  simp only [Status.word, append_toNat, BitVec.toNat_ofBool, BitVec.toNat_ofNat]
  omega

/-- A write-1-to-clear flag (R36). -/
theorem and_not_eq_ite (flag bit : Bool) : (flag && !bit) = if bit then false else flag := by
  cases bit <;> simp

/-- The sentinel of R172, computed on 64 bits, is the one on naturals: `c1 << 16` fits in 48 bits. -/
theorem sentinel_toNat (a k1 k2 : Word) : (sentinel a k1 k2).toNat = sentinelNat a.toNat k1.toNat k2.toNat := by
  have hc1 : (rotr (a ^^^ k1) 3).toNat = rotrNat 32 (a.toNat ^^^ k1.toNat) 3 := by
    rw [rotr_toNat, BitVec.toNat_xor]; rfl
  have hlt : rotrNat 32 (a.toNat ^^^ k1.toNat) 3 < 2 ^ 32 := hc1 ▸ (rotr (a ^^^ k1) 3).isLt
  have hshift : rotrNat 32 (a.toNat ^^^ k1.toNat) 3 <<< 16 % 2 ^ 64 = rotrNat 32 (a.toNat ^^^ k1.toNat) 3 <<< 16 :=
    Nat.mod_eq_of_lt (by rw [Nat.shiftLeft_eq]; omega)
  have hmask (x : Nat) : x &&& 0xFFFFFFFF = x % 2 ^ 32 := Nat.and_two_pow_sub_one_eq_mod x 32
  simp only [sentinel, sentinelNat, low32_toNat, BitVec.toNat_xor, BitVec.toNat_shiftLeft, hc1, hshift, hmask,
    zext64_toNat _ (by decide : 32 ≤ 64)]

/-- SENT's comparison of `b` with `c3` (R172), on naturals. -/
theorem low32_beq_sentinel (a b k : DWord) :
    (low32 b == sentinel (low32 a) (low32 k) (high32 k)) =
      decide (b.toNat % 2 ^ 32 = sentinelNat (a.toNat % 2 ^ 32) (k.toNat % 2 ^ 32) (k.toNat / 2 ^ 32)) := by
  rw [← low32_toNat b, ← low32_toNat a, ← low32_toNat k, ← high32_toNat k, ← sentinel_toNat, Bool.beq_eq_decide_eq]
  simp only [BitVec.toNat_inj]

/-- Byte `j` of KEYi's reset value is byte `4i + j` of FIXED_KEY (R41, R47). -/
theorem byteOfWord_resetKeyWord (k : FixedKey) (i j : Nat) (hj : j < 4) :
    byteOfWord (resetKeyWord k i) j = fixedKeyByte k (4 * i + j) := by
  obtain ⟨h0, h1, h2, h3⟩ := byteOfWord_wordOfBytes (fixedKeyByte k (4 * i)) (fixedKeyByte k (4 * i + 1))
    (fixedKeyByte k (4 * i + 2)) (fixedKeyByte k (4 * i + 3))
  match j, hj with
  | 0, _ => exact h0
  | 1, _ => exact h1
  | 2, _ => exact h2
  | 3, _ => exact h3

/-- Byte `n` of the active key is `KEYB[n]` (R41). -/
theorem State.activeKey_getD (s : State) (n : Fin 32) (h : n.val < s.activeKey.length) (b : Byte) :
    s.activeKey.getD n.val b = s.keyByte n := by
  rw [List.getD_eq_getElem _ _ h]
  simp only [State.activeKey, List.getElem_take, List.getElem_ofFn]

/-- Byte `4i + k` of KEYB is byte `k` of KEYi (R41). -/
theorem State.keyByte_eq (s : State) (i : Fin 8) (k : Fin 4) :
    s.keyByte ⟨4 * i.val + k.val, by omega⟩ = byteOfWord s.key[i] k.val := by
  simp only [State.keyByte, Fin.getElem_fin]
  congr 1
  · congr 1; omega
  · omega

end Sys2Proof.Machine
end

section
/-! SUPPORT. The register map by its offsets (R24), and one step of the host that reads or writes a register. -/

namespace Sys2Proof.Machine

open Sys2Proof.Claims

/-! ### Offsets -/

theorem target_status : target Config.params .w32 (0x08#32).toNat = .reg .status :=
  target_reg _ _ (by decide) (by decide)

theorem target_ctrl {a : Word} (h : a.toNat = 0x04) : target Config.params .w32 a.toNat = .reg .ctrl := by
  rw [h]; exact target_reg _ _ (by decide) (by decide)

theorem target_id {a : Word} (h : a.toNat = 0x00) : target Config.params .w32 a.toNat = .reg .id := by
  rw [h]; exact target_reg _ _ (by decide) (by decide)

theorem regAt_key (i : Fin 8) : regAt ((0x20 + 4 * i.val) / 4) = .key i := by revert i; decide

theorem regAt_iv (i : Fin 4) : regAt ((0x40 + 4 * i.val) / 4) = .iv i := by revert i; decide

theorem regAt_prev (i : Fin 4) : regAt ((0x50 + 4 * i.val) / 4) = .prev i := by revert i; decide

/-- DiLO stands at 0x080 + 8i (R44). -/
theorem target_dLo (i : Fin 8) :
    target Config.params .w32 (BitVec.ofNat 32 (0x80 + 8 * i.val)).toNat = .reg (.dLo i) := by
  have hr : regAt ((0x80 + 8 * i.val) / 4) = .dLo i := by revert i; decide
  rw [BitVec.toNat_ofNat, Nat.mod_eq_of_lt (by omega), target_reg _ _ (by omega) (by omega), hr]

/-- DiHI stands at 0x084 + 8i (R44). -/
theorem target_dHi (i : Fin 8) :
    target Config.params .w32 (BitVec.ofNat 32 (0x84 + 8 * i.val)).toNat = .reg (.dHi i) := by
  have hr : regAt ((0x84 + 8 * i.val) / 4) = .dHi i := by revert i; decide
  rw [BitVec.toNat_ofNat, Nat.mod_eq_of_lt (by omega), target_reg _ _ (by omega) (by omega), hr]

/-- The offsets of R24 other than ID, CTRL, STATUS, CMD and the reserved ones hold plain registers. -/
theorem regAt_plain {a : Nat} (h : plainOffset a) : (regAt (a / 4)).plain = true := by
  have key : ∀ k : Fin 64, (4 ≤ k.val ∧ k.val < 7) ∨ (8 ≤ k.val ∧ k.val < 24) ∨ (32 ≤ k.val ∧ k.val < 48) →
      (regAt k.val).plain = true := by decide
  unfold plainOffset at h
  exact key ⟨a / 4, by omega⟩ (by dsimp only; omega)

theorem regAt_reserved {a : Nat} (h : reservedOffset a) : regAt (a / 4) = .reserved := by
  have key : ∀ k : Fin 64, k.val = 7 ∨ (24 ≤ k.val ∧ k.val < 32) ∨ 48 ≤ k.val → regAt k.val = .reserved := by decide
  unfold reservedOffset at h
  exact key ⟨a / 4, by omega⟩ (by dsimp only; omega)

theorem target_plainOffset {a : Nat} (h : plainOffset a) : target Config.params .w32 a = .reg (regAt (a / 4)) := by
  unfold plainOffset at h
  exact target_reg _ _ (by omega) (by omega)

theorem target_reservedOffset {a : Nat} (h : reservedOffset a) : target Config.params .w32 a = .reg .reserved := by
  rw [← regAt_reserved h]
  unfold reservedOffset at h
  exact target_reg _ _ (by omega) (by omega)

theorem HostReg.ne_reserved_of_plain {r : HostReg} (h : r.plain = true) : r ≠ .reserved := by
  rintro rfl; exact absurd h (by decide)

/-! ### Register reads and writes -/

@[simp] theorem State.readReg_respond (s : State) (x : BusResponse) (r : HostReg) :
    (s.respond x).readReg r = s.readReg r := by cases r <;> rfl

/-- A CTRL write leaves every other register (R27). -/
theorem readReg_writeReg_ctrl_other (s : State) (r : HostReg) (v : Word) (h : r ≠ .ctrl) :
    (s.writeReg .ctrl v).readReg r = s.readReg r := by
  cases r with
  | ctrl => exact absurd rfl h
  | _ => rfl

/-- A DiLO write leaves DiHI (R44). -/
theorem readD_writeReg_dLo (s : State) (i : Fin 8) (v : Word) :
    ((s.writeReg (.dLo i) v).readD i).toNat = (s.readD i).toNat / 2 ^ 32 * 2 ^ 32 + v.toNat := by
  rw [State.writeReg, State.readD_writeD_same, append_toNat, high32_toNat]
  rfl

/-- A DiHI write leaves DiLO (R44). -/
theorem readD_writeReg_dHi (s : State) (i : Fin 8) (v : Word) :
    ((s.writeReg (.dHi i) v).readD i).toNat = v.toNat * 2 ^ 32 + (s.readD i).toNat % 2 ^ 32 := by
  rw [State.writeReg, State.readD_writeD_same, append_toNat, low32_toNat]
  rfl

/-- What DiLO answers (R44). -/
theorem readReg_dLo (s : State) (i : Fin 8) : s.readReg (.dLo i) = BitVec.ofNat 32 ((s.readD i).toNat % 2 ^ 32) := by
  rw [← low32_toNat, BitVec.ofNat_toNat, BitVec.setWidth_eq]
  rfl

/-- What DiHI answers (R44). -/
theorem readReg_dHi (s : State) (i : Fin 8) : s.readReg (.dHi i) = BitVec.ofNat 32 ((s.readD i).toNat / 2 ^ 32) := by
  rw [← high32_toNat, BitVec.ofNat_toNat, BitVec.setWidth_eq]
  rfl

/-! ### One step of the host -/

/-- The state in which the host's event is performed: it is taken from the events to come (R62, log entry 2). -/
def State.tookEvent (s : State) (rest : List HostEvent) : State :=
  { s with host := rest, wait := s.wait - 1 }

@[simp] theorem State.readReg_tookEvent (s : State) (rest : List HostEvent) (r : HostReg) :
    (s.tookEvent rest).readReg r = s.readReg r := by cases r <;> rfl

/-- Taking an event and answering it change no register and no byte of DMEM. -/
theorem sameBlock_respond_tookEvent (s : State) (rest : List HostEvent) (x : BusResponse) :
    SameBlock s ((s.tookEvent rest).respond x) :=
  ⟨rfl, rfl, rfl, rfl, rfl, rfl, rfl, rfl, rfl, fun _ => rfl⟩

theorem step_of_hostMoves {s : State} {e : HostEvent} {rest : List HostEvent} (hm : hostMoves s e rest) :
    step s = hostEvent e (s.tookEvent rest) :=
  step_eq_hostEvent s e rest hm.1 hm.2

section
variable {s : State} {a v : Word} {rest : List HostEvent} {r : HostReg}

/-- A host write that is performed (R59, R63). -/
theorem step_writeReg (hm : hostMoves s (.write32 a v) rest) (ht : target Config.params .w32 a.toNat = .reg r)
    (hb : s.status.busy = false ∨ r.guarded = false) :
    step s = .next (((s.tookEvent rest).writeReg r v).respond .written) := by
  rw [step_of_hostMoves hm, hostEvent, busWrite_reg (s := s.tookEvent rest) ht hb, BitVec.ofNat_toNat,
    BitVec.setWidth_eq]

/-- A host write ignored because BUSY = 1 (R34, R63). -/
theorem step_ignoreWrite (hm : hostMoves s (.write32 a v) rest) (ht : target Config.params .w32 a.toNat = .reg r)
    (hb : s.status.busy = true) (hg : r.guarded = true) :
    step s = .next ((s.tookEvent rest).ignoreWrite.respond .written) := by
  rw [step_of_hostMoves hm, hostEvent, busWrite_ignored (s := s.tookEvent rest) hb (.inr ⟨r, ht, hg⟩)]

/-- A host read whose answer is exact (R59, R63). -/
theorem step_readReg (hm : hostMoves s (.read .w32 a) rest) (ht : target Config.params .w32 a.toNat = .reg r)
    (hb : s.status.busy = false ∨ r.exactWhileBusy = true) :
    step s = .next ((s.tookEvent rest).respond (.data32 (s.readReg r))) := by
  rw [step_of_hostMoves hm, hostEvent, busRead_reg (s := s.tookEvent rest) ht hb, State.readReg_tookEvent, Width.data,
    BitVec.ofNat_toNat, BitVec.setWidth_eq]

end

end Sys2Proof.Machine
end

section
/-! The host's view of STATUS, the read-write registers, ID, the reserved offsets and the D registers. -/

namespace Sys2Proof.Machine

open Sys2Proof.Claims

/-- Settles O11: STATUS is neither guarded nor inexact, so its write and its read are performed whatever BUSY is. -/
theorem statusWriteAcknowledges : Obligations.StatusWriteAcknowledges := by
  intro s rest
  refine ⟨fun v hm => ?_, fun hm => ?_⟩
  · have hdone := and_not_eq_ite s.status.done (v.getLsbD 1)
    have hberr := and_not_eq_ite s.status.berr (v.getLsbD 3)
    refine ⟨_, step_writeReg hm target_status (.inr rfl), ⟨rfl, rfl, rfl, rfl, rfl, rfl, rfl, rfl, rfl, fun _ => rfl⟩,
      rfl, rfl, rfl, hdone, hberr, ?_⟩
    rw [← hdone, ← hberr]
    rfl
  · exact ⟨_, _, step_readReg hm target_status (.inr rfl), sameBlock_respond_tookEvent _ _ _, rfl, rfl, rfl,
      s.status.word_toNat⟩

/-- Settles O12: a plain register reads back and frames the others, and no two offsets reach one register; CTRL keeps its
two fields. -/
theorem registerWriteReadsBack : Obligations.RegisterWriteReadsBack := by
  intro s a v rest hb hh
  have hm : hostMoves s (.write32 a v) (.read .w32 a :: rest) := ⟨hh, .inl hb⟩
  refine ⟨fun hp => ?_, fun hc => ?_⟩
  · have hr := regAt_plain hp
    have ht := target_plainOffset hp
    obtain ⟨hstatus, hmem, hhost, -, -⟩ := writeReg_plain_frame (s.tookEvent (.read .w32 a :: rest)) _ v hr
    have hidle := (congrArg Status.busy hstatus).trans hb
    have hreads : ∀ r, regAt (a.toNat / 4) = r →
        (((s.tookEvent (.read .w32 a :: rest)).writeReg (regAt (a.toNat / 4)) v).respond .written).readReg r = v := by
      rintro _ rfl
      rw [State.readReg_respond, readReg_writeReg_same _ _ v hr]
    refine ⟨_, _, step_writeReg hm ht (.inl hb), step_readReg ⟨hhost, .inl hidle⟩ ht (.inl hidle),
      congrArg (fun w => some (BusResponse.data32 w)) (hreads _ rfl), hstatus, fun o => congrArg (Memory.read · o) hmem,
      fun e => hreads .addr (by rw [e]; rfl), fun e => hreads .len (by rw [e]; rfl),
      fun e => hreads .dst (by rw [e]; rfl), fun i e => hreads (.key i) (by rw [e, regAt_key]),
      fun i e => hreads (.iv i) (by rw [e, regAt_iv]), fun i e => hreads (.prev i) (by rw [e, regAt_prev]),
      fun b hb4 hb100 hne => ?_⟩
    have hother : regAt (b / 4) ≠ regAt (a.toNat / 4) := fun e => by
      have := regAt_injective (a.toNat / 4) (b / 4) (by unfold plainOffset at hp; omega) (by omega) e.symm
        (HostReg.ne_reserved_of_plain hr)
      unfold plainOffset at hp
      omega
    rw [State.readReg_respond, readReg_writeReg_other _ _ _ v hr hother, State.readReg_tookEvent]
  · have ht := target_ctrl hc
    refine ⟨_, _, step_writeReg hm ht (.inl hb), step_readReg ⟨rfl, .inl hb⟩ ht (.inl hb),
      congrArg (fun w => some (BusResponse.data32 w)) (ctrlOfWord_word v), rfl, fun _ => rfl, rfl, rfl, rfl,
      fun b hb4 hb100 hne => ?_⟩
    have hother : regAt (b / 4) ≠ .ctrl := fun e => by
      have := regAt_injective 1 (b / 4) (by decide) (by omega) e.symm (by decide)
      omega
    rw [State.readReg_respond, readReg_writeReg_ctrl_other _ _ v hother, State.readReg_tookEvent]

/-- ID and the reserved offsets: a write has no effect and a read answers the register's value, whatever BUSY is (R25,
R26, log entry 7). -/
theorem inertReg_accesses {s : State} {a : Word} {rest : List HostEvent} {r : HostReg} (v : Word)
    (ht : target Config.params .w32 a.toNat = .reg r) (hr : r = .id ∨ r = .reserved) :
    (hostMoves s (.write32 a v) rest → ∃ t, step s = .next t ∧ SameBlock s t ∧ t.status = s.status) ∧
    (hostMoves s (.read .w32 a) rest → ∃ t, step s = .next t ∧ SameBlock s t ∧ t.status = s.status ∧
      t.resp = some (.data32 (s.readReg r))) := by
  have hopen : r.guarded = false ∧ r.exactWhileBusy = true ∧ ∀ s : State, s.writeReg r v = s := by
    rcases hr with rfl | rfl <;> exact ⟨rfl, rfl, fun _ => rfl⟩
  obtain ⟨hguarded, hexact, hwrite⟩ := hopen
  refine ⟨fun hm => ⟨_, step_writeReg hm ht (.inr hguarded), ?_⟩,
    fun hm => ⟨_, step_readReg hm ht (.inr hexact), sameBlock_respond_tookEvent _ _ _, rfl, rfl⟩⟩
  rw [hwrite]
  exact ⟨sameBlock_respond_tookEvent _ _ _, rfl⟩

/-- Settles O13: both kinds of offset are inert, with ID's constant and 0 as their values. -/
theorem idAndReservedOffsets : Obligations.IdAndReservedOffsets := by
  rintro s a v rest (h0 | hres)
  · rw [if_pos h0]
    exact inertReg_accesses v (target_id h0) (.inl rfl)
  · have hne : a.toNat ≠ 0 := by unfold reservedOffset at hres; omega
    rw [if_neg hne]
    exact inertReg_accesses v (target_reservedOffset hres) (.inr rfl)

/-- Settles O14: the two halves are registers of their own, and both are guarded while BUSY = 1. -/
theorem dRegisterHalves : Obligations.DRegisterHalves := by
  intro s i v rest
  refine ⟨fun hb hh => ?_, fun hb hh => ?_, fun hb hh => ?_, fun hb hh => ?_, fun hb hw hh => ?_⟩
  · exact ⟨_, step_writeReg ⟨hh, .inl hb⟩ (target_dLo i) (.inl hb),
      fun r hr => State.readD_writeD_other _ i r _ hr, readD_writeReg_dLo _ i v⟩
  · exact ⟨_, step_writeReg ⟨hh, .inl hb⟩ (target_dHi i) (.inl hb),
      fun r hr => State.readD_writeD_other _ i r _ hr, readD_writeReg_dHi _ i v⟩
  · rw [← readReg_dLo]
    exact ⟨_, step_readReg ⟨hh, .inl hb⟩ (target_dLo i) (.inl hb), rfl, rfl⟩
  · rw [← readReg_dHi]
    exact ⟨_, step_readReg ⟨hh, .inl hb⟩ (target_dHi i) (.inl hb), rfl, rfl⟩
  · rcases hh with hh | hh
    · exact ⟨_, step_ignoreWrite ⟨hh, .inr hw⟩ (target_dLo i) hb rfl, rfl, rfl⟩
    · exact ⟨_, step_ignoreWrite ⟨hh, .inr hw⟩ (target_dHi i) hb rfl, rfl, rfl⟩

end Sys2Proof.Machine
end

section
/-! SUPPORT. What a command's pseudocode can write when it succeeds. -/

namespace Sys2Proof.Machine

open Sys2Proof.Claims

/-- The shape of the state a successful command leaves, by the command: the writes it makes, their values mostly open. -/
inductive CommandWrites (s : State) : Instr → State → Prop where
  | nothing : CommandWrites s .nop s
  | dReg {i : Instr} (rd : DReg) (v : DWord) (hreg : registerOnly i = true) (hnop : i ≠ .nop)
      (hsent : ∀ rd a b k, i ≠ .sent rd a b k) : CommandWrites s i (s.writeD rd v)
  | dRegAndValid (rd a b k : DReg) (v : DWord) (valid : Bool) :
      CommandWrites s (.sent rd a b k) ((s.writeD rd v).setValid valid)
  | load {i : Instr} (rd : DReg) (v : DWord) (n : Nat) (hload : i = .dld16 rd ∨ i = .dld32 rd) :
      CommandWrites s i ((s.writeD rd v).advance n)
  | name (rd rs1 : DReg) (m : Memory) (v : DWord) (n : Nat) :
      CommandWrites s (.dmask rd rs1) (((s.setMem m).writeD rd v).advance n)
  | block (m : Memory) : CommandWrites s .encb (s.setMem m)
  | chunk (m : Memory) (b : Block) (n : Nat) :
      CommandWrites s .kstep ((((s.setMem m).setPrev b).advance n).consumeLen n)
  | buffer (m : Memory) (b : Block) : CommandWrites s .chain ((s.setMem m).setPrev b)

theorem SameFixed.refl (s : State) : SameFixed s s := ⟨rfl, rfl, rfl, rfl, rfl, rfl, rfl, rfl, rfl⟩

/-- A completion changes STATUS only, which is none of the fixed fields (R201). -/
theorem SameFixed.finish {s s' : State} (h : SameFixed s s') (c : BitVec 4) : SameFixed s (s'.finish c) :=
  ⟨h.ctrl, h.cmd, h.dst, h.key, h.iv, h.host, h.resp, h.wait, h.draws⟩

/-- CHAIN writes DMEM and PREV on both of its paths (R139). -/
theorem chain_writes {p : Params} {s s' : State} (h : chain p s = .ok s') :
    ∃ m b, s' = (s.setMem m).setPrev b := by
  obtain ⟨hr, h⟩ := (chain_eq_ok_iff p s s').1 h
  split at h
  · obtain ⟨_, _, rfl⟩ := (chainWhole_eq_ok_iff p s s' hr).1 h
    exact ⟨_, _, rfl⟩
  · obtain ⟨_, _, rfl⟩ := (chainSampled_eq_ok_iff p s s').1 h
    exact ⟨_, _, rfl⟩

/-- Every command that succeeds writes as its shape says. -/
theorem commandBody_writes {i : Instr} {s s' : State} (h : commandBody i s = .ok s') : CommandWrites s i s' := by
  cases i with
  | nop => cases h; exact .nothing
  | encb =>
    obtain ⟨_, _, _, _, rfl⟩ := (encb_eq_ok_iff _ s s').1 h
    exact .block _
  | kstep =>
    obtain ⟨_, _, _, _, rfl⟩ := (kstep_eq_ok_iff _ s s').1 h
    exact .chunk _ _ _
  | chain =>
    obtain ⟨_, _, rfl⟩ := chain_writes h
    exact .buffer _ _
  | dld16 rd =>
    obtain ⟨_, _, _, rfl⟩ := (loadStream_eq_ok_iff _ _ rd s s').1 h
    exact .load rd _ _ (.inl rfl)
  | dld32 rd =>
    obtain ⟨_, _, _, rfl⟩ := (loadStream_eq_ok_iff _ _ rd s s').1 h
    exact .load rd _ _ (.inr rfl)
  | dmask rd rs1 =>
    obtain ⟨_, _, _, rfl⟩ := (demaskName_eq_ok_iff _ rd rs1 s s').1 h
    exact .name rd rs1 _ _ _
  | sent rd a b k => cases h; exact .dRegAndValid rd a b k _ _
  | drotl32 rd a r | drotr32 rd a r | drotl16 rd a r | drotr16 rd a r =>
    obtain ⟨_, rfl⟩ := (rotateInto_eq_ok_iff _ rd r _ s s').1 h
    exact .dReg rd _ rfl nofun nofun
  | dxor rd a b | dcat16 rd a b | dcat32 rd a b | dand rd a b | dor rd a b
  | dfold16 rd a | drotl64 rd a r | drotr64 rd a r | dshl64 rd a r | dshr64 rd a r =>
    cases h; exact .dReg rd _ rfl nofun nofun

section
variable {i : Instr} {s s' : State} (h : CommandWrites s i s')
include h

theorem CommandWrites.sameFixed : SameFixed s s' := by
  cases h <;> exact ⟨rfl, rfl, rfl, rfl, rfl, rfl, rfl, rfl, rfl⟩

/-- STATUS.VALID is SENT's alone (R33). -/
theorem CommandWrites.valid_eq (hi : ∀ rd a b k, i ≠ .sent rd a b k) : s'.status.valid = s.status.valid := by
  cases h with
  | dRegAndValid rd a b k => exact absurd rfl (hi rd a b k)
  | _ => rfl

/-- NOP, ENCB, KSTEP and CHAIN leave D (R23). -/
theorem CommandWrites.d_eq (hi : i = .nop ∨ i = .encb ∨ i = .kstep ∨ i = .chain) : s'.d = s.d := by
  cases h with
  | dReg _ _ hreg hnop =>
    rcases hi with rfl | rfl | rfl | rfl
    · exact absurd rfl hnop
    all_goals exact absurd hreg (by decide)
  | load _ _ _ hload => rcases hload with rfl | rfl <;> simp at hi
  | dRegAndValid | name => simp at hi
  | _ => rfl

/-- Only KSTEP and CHAIN write PREV (R43). -/
theorem CommandWrites.prev_eq (hk : i ≠ .kstep) (hc : i ≠ .chain) : s'.prev = s.prev := by
  cases h with
  | chunk => exact absurd rfl hk
  | buffer => exact absurd rfl hc
  | _ => rfl

/-- Only KSTEP writes LEN (R39). -/
theorem CommandWrites.len_eq (hk : i ≠ .kstep) : s'.len = s.len := by
  cases h with
  | chunk => exact absurd rfl hk
  | _ => rfl

/-- ENCB, CHAIN, NOP and the register-only commands leave ADDR (R38). -/
theorem CommandWrites.addr_eq (hi : i = .encb ∨ i = .chain ∨ registerOnly i = true) : s'.addr = s.addr := by
  cases h with
  | load _ _ _ hload => rcases hload with rfl | rfl <;> simp [registerOnly] at hi
  | name | chunk => simp [registerOnly] at hi
  | _ => rfl

/-- Only DMASK, ENCB, KSTEP and CHAIN write DMEM (R50). -/
theorem CommandWrites.mem_eq (hm : ∀ rd rs1, i ≠ .dmask rd rs1) (he : i ≠ .encb) (hk : i ≠ .kstep) (hc : i ≠ .chain) :
    s'.mem = s.mem := by
  cases h with
  | name rd rs1 => exact absurd rfl (hm rd rs1)
  | block => exact absurd rfl he
  | chunk => exact absurd rfl hk
  | buffer => exact absurd rfl hc
  | _ => rfl

end

/-- The state a command ends in: what it wrote on success, or the state before it on an error, completed (R201, R222). -/
theorem exec_next_cases {i : Instr} {s t : State} (h : exec i s = .next t) :
    (∃ s', CommandWrites s i s' ∧ t = s'.finish 0#4) ∨ ∃ c : ErrCode, t = s.finish c.code := by
  rcases (exec_eq_next_iff i s t).1 h with ⟨s', hbody, ht⟩ | ⟨c, _, ht⟩
  · exact .inl ⟨s', commandBody_writes hbody, ht⟩
  · exact .inr ⟨c, ht⟩

end Sys2Proof.Machine
end

section
/-! What every command leaves alone. -/

namespace Sys2Proof.Machine

open Sys2Proof.Claims

/-- Settles O26: an error leaves VALID, so does the success of any command but SENT, and SENT writes its comparison. -/
theorem onlySentWritesValid : Obligations.OnlySentWritesValid := by
  intro i s t h
  constructor
  · intro hi
    rcases exec_next_cases h with ⟨s', hw, rfl⟩ | ⟨c, rfl⟩
    · exact hw.valid_eq (hi.resolve_right (not_not_intro rfl))
    · rfl
  · rintro rd a b k rfl he
    obtain ⟨s', hbody, rfl⟩ := exec_eq_next_ok _ s t h he
    cases hbody
    exact low32_beq_sentinel (s.readD a) (s.readD b) (s.readD k)

/-- Settles O27: neither a command's writes nor a completion reaches these fields. -/
theorem commandsLeaveFixedRegisters : Obligations.CommandsLeaveFixedRegisters := by
  intro i s t h
  rcases exec_next_cases h with ⟨s', hw, rfl⟩ | ⟨c, rfl⟩
  · exact hw.sameFixed.finish _
  · exact (SameFixed.refl s).finish _

/-- Settles O28: by the writes of each command, which a completion keeps. -/
theorem commandsTouchOnlyTheirState : Obligations.CommandsTouchOnlyTheirState := by
  intro i s t h
  rcases exec_next_cases h with ⟨s', hw, rfl⟩ | ⟨c, rfl⟩
  · exact ⟨hw.d_eq, hw.prev_eq, hw.len_eq, hw.addr_eq,
      fun hm he hk hc o => congrArg (Memory.read · o) (hw.mem_eq hm he hk hc)⟩
  · exact ⟨fun _ => rfl, fun _ _ => rfl, fun _ => rfl, fun _ => rfl, fun _ _ _ _ _ => rfl⟩

end Sys2Proof.Machine
end

section
/-! The bytes of the key, IV and PREV registers, and reset. -/

namespace Sys2Proof.Machine

open Sys2Proof.Claims

/-- Settles O47: each byte is the one of its register, and that byte is a base-256 digit of the register's value. -/
theorem activeKeyBytes : Obligations.ActiveKeyBytes := by
  intro s
  refine ⟨s.activeKey_length, fun i k h => ?_, fun i k => ⟨?_, ?_⟩⟩
  · rw [s.activeKey_getD ⟨4 * i.val + k.val, by omega⟩ h, State.keyByte_eq, byteOfWord_toNat]
  · rw [State.ivBytes, groupBytes_getElem, byteOfWord_toNat]
  · rw [State.prevBytes, groupBytes_getElem, byteOfWord_toNat]

/-- KEYB after reset is FIXED_KEY (R41, R47). -/
theorem keyByte_reset (n : Fin 32) : State.reset.keyByte n = fixedKeyByte Config.params.fixedKey n.val := by
  simp only [State.keyByte, State.reset, State.resetOf, Vector.getElem_ofFn]
  rw [byteOfWord_resetKeyWord _ _ _ (by omega), Nat.div_add_mod]

/-- Settles O19: KEY and IV hold the parameters' bytes, and the other rows are the reset state's own fields. -/
theorem resetValues : Obligations.ResetValues :=
  ⟨rfl, rfl, rfl, rfl, rfl, rfl, rfl, rfl, keyByte_reset, groupBytes_groupOfBytes _,
    fun i => Vector.getElem_replicate i.isLt, fun r => Vector.getElem_replicate r.isLt, fun _ => rfl, rfl⟩

/-- Settles O21: no byte is written, ERR is 0 and no command is pending. -/
theorem resetMeetsTheInvariant : Obligations.ResetMeetsTheInvariant where
  canonical := rfl
  inside := fun _ _ h => absurd h nofun
  errCode := Nat.zero_le 4
  pendingDone := fun _ => rfl
  pendingErr := fun _ => rfl

end Sys2Proof.Machine
end

/-! Proofs about DMEM and the bus: the invariant of the block's state under every step, and the host's accesses to DMEM and
while a command is pending. -/

section
/-! SUPPORT. The invariant by its two parts, DMEM and STATUS, and the operations that keep each. -/

namespace Sys2Proof.Machine

/-! ### DMEM -/

/-- The invariant's part about DMEM: canonical, and every written byte inside DMEM_BYTES (R50, R54). -/
structure Memory.Sound (m : Memory) : Prop where
  canonical : m.wf = true
  inside : m.within (dmemBytes Config.params)

section
variable {m : Memory} (hm : m.Sound)
include hm

theorem Memory.Sound.scatter {offsets : List Nat} (bytes : List Byte)
    (ho : ∀ o ∈ offsets, o < dmemBytes Config.params) : (m.scatter offsets bytes).Sound :=
  ⟨Memory.wf_scatter offsets bytes m hm.canonical, Memory.within_scatter offsets bytes m _ hm.inside ho⟩

/-- Bytes that fit a range the command has checked (R53, R54). -/
theorem Memory.Sound.writeBytes {a n : Nat} {bytes : List Byte} (hr : inRange Config.params a n = true)
    (hn : bytes.length ≤ n) : (m.writeBytes a bytes).Sound :=
  have hle := (inRange_iff _ a n).1 hr
  ⟨m.wf_writeBytes a bytes hm.canonical, m.within_writeBytes a bytes _ hm.inside (by omega)⟩

end

/-- `readBytes` returns as many bytes as asked for (R52). -/
theorem Memory.readBytes_length {m : Memory} {a n : Nat} {bytes : List Byte} (h : m.readBytes a n = some bytes) :
    bytes.length = n :=
  ((m.readBytes_eq_some_iff a n bytes).1 h).1

/-- A sampled position lies in one of the sampled blocks (R136). -/
theorem lt_of_mem_samplePositions {L q : Nat} (hL : 256 < L) (hq : q ∈ samplePositions L) : q < 16 * sampleCount L := by
  obtain ⟨i, hi, j, hj, rfl⟩ := (mem_samplePositions_iff L q).1 hq
  have := (sampleStep_le L hL).2
  omega

/-- The sampled blocks are whole blocks of the buffer (R136). -/
theorem sampleCount_blocks_le (L : Nat) : 16 * sampleCount L ≤ L := by
  unfold sampleCount sampleBlocks
  omega

/-- CHAIN keeps DMEM sound on both of its paths: it writes the buffer it range-checked, or sampled bytes of it (R139). -/
theorem chain_mem_sound {s s' : State} (hm : s.mem.Sound) (h : chain Config.params s = .ok s') : s'.mem.Sound := by
  obtain ⟨hr, h⟩ := (chain_eq_ok_iff _ s s').1 h
  split at h
  case isTrue =>
    obtain ⟨buf, hbuf, rfl⟩ := (chainWhole_eq_ok_iff _ s s' hr).1 h
    exact hm.writeBytes hr (by rw [chainSmall_length, Memory.readBytes_length hbuf])
  case isFalse hlarge =>
    obtain ⟨gathered, -, rfl⟩ := (chainSampled_eq_ok_iff _ s s').1 h
    refine hm.scatter _ fun o ho => ?_
    obtain ⟨q, hq, rfl⟩ := List.mem_map.1 ho
    have hblock := lt_of_mem_samplePositions (by unfold smallLimit at hlarge; omega) hq
    have hbuffer := sampleCount_blocks_le s.len.toNat
    have hdmem := (inRange_iff _ _ _).1 hr
    omega

/-- Every command that succeeds keeps DMEM sound: the four that write DMEM write inside a range they checked. -/
theorem commandBody_mem_sound {i : Instr} {s s' : State} (hm : s.mem.Sound) (h : commandBody i s = .ok s') :
    s'.mem.Sound := by
  cases i with
  | encb =>
    obtain ⟨-, hdst, src, -, rfl⟩ := (encb_eq_ok_iff _ s s').1 h
    exact hm.writeBytes hdst (by simp)
  | kstep =>
    obtain ⟨-, hr, c, hc, rfl⟩ := (kstep_eq_ok_iff _ s s').1 h
    exact hm.writeBytes hr (by rw [xorKeystream_length, Memory.readBytes_length hc]; omega)
  | chain => exact chain_mem_sound hm h
  | dmask rd rs1 =>
    obtain ⟨scan, -, hdst, rfl⟩ := (demaskName_eq_ok_iff _ rd rs1 s s').1 h
    exact hm.writeBytes hdst le_rfl
  | _ =>
    rw [(commandBody_writes h).mem_eq nofun nofun nofun nofun]
    exact hm

/-! ### STATUS -/

/-- The invariant's part about STATUS (R31, R32, R35, R221). -/
structure Status.Sound (st : Status) : Prop where
  errCode : st.err.toNat ≤ 4
  pendingDone : st.busy = true → st.done = false
  pendingErr : st.busy = true → st.err = 0#4

/-- A completion ends the pending command, so only its code counts (R201). -/
theorem Status.sound_completed (st : Status) {c : BitVec 4} (hc : c.toNat ≤ 4) : (st.completed c).Sound :=
  ⟨hc, nofun, nofun⟩

theorem Status.sound_issued (st : Status) : st.issued.Sound :=
  ⟨Nat.zero_le 4, fun _ => rfl, fun _ => rfl⟩

section
variable {st : Status} (h : st.Sound)
include h

/-- An acknowledgement can only clear DONE and BERR (R36). -/
theorem Status.Sound.acknowledged (v : Word) : (st.acknowledged v).Sound :=
  ⟨h.errCode, fun hb => by rw [Status.acknowledged_done, h.pendingDone hb, Bool.false_and], h.pendingErr⟩

theorem Status.Sound.misused : st.misused.Sound :=
  ⟨h.errCode, h.pendingDone, h.pendingErr⟩

end

/-! ### Both -/

theorem State.inv_iff (s : State) : s.Inv ↔ s.mem.Sound ∧ s.status.Sound :=
  ⟨fun ⟨hwf, hin, herr, hdone, hpend⟩ => ⟨⟨hwf, hin⟩, herr, hdone, hpend⟩,
    fun ⟨⟨hwf, hin⟩, herr, hdone, hpend⟩ => ⟨hwf, hin, herr, hdone, hpend⟩⟩

/-- A command's end keeps the invariant whatever STATUS was before it (R201). -/
theorem State.inv_finish {s : State} (hm : s.mem.Sound) {c : BitVec 4} (hc : c.toNat ≤ 4) : (s.finish c).Inv :=
  (State.inv_iff _).2 ⟨hm, s.status.sound_completed hc⟩

end Sys2Proof.Machine
end

section
/-! SUPPORT. What one step can do: the engine's, the host's, and each access of the host. -/

namespace Sys2Proof.Machine

/-- A next state is the engine's, the same idle state, or the one the host's next event gives (R62, R201). -/
theorem step_next_cases {s t : State} (h : step s = .next t) :
    engineStep s = .next t ∨ t = s ∨ ∃ e rest, hostEvent e (s.tookEvent rest) = .next t := by
  unfold step at h
  split at h
  · exact .inl h
  · unfold hostTurn at h
    split at h
    · exact .inr (.inl (by cases h; rfl))
    · exact .inr (.inr ⟨_, _, h⟩)

/-- The engine completes a command's own state with 0, or the state before it with an error code (R201, R222, R223). -/
theorem engineStep_next_cases {s t : State} (h : engineStep s = .next t) :
    (∃ i s', commandBody i s = .ok s' ∧ t = s'.finish 0#4) ∨ ∃ c : ErrCode, t = s.finish c.code := by
  unfold engineStep execute at h
  split at h
  · cases h; exact .inr ⟨.illegalOp, rfl⟩
  · cases h; exact .inr ⟨.reserved, rfl⟩
  · rcases (exec_eq_next_iff _ s t).1 h with ⟨s', hbody, ht⟩ | ⟨c, -, ht⟩
    · exact .inl ⟨_, s', hbody, ht⟩
    · exact .inr ⟨c, ht⟩

/-- A read that answers leaves DMEM and STATUS (R59, R63). -/
theorem busRead_next_frame {w : Width} {a : Nat} {s t : State} (h : busRead w a s = .next t) :
    t.mem = s.mem ∧ t.status = s.status := by
  unfold busRead at h
  split at h
  · cases h; exact ⟨rfl, rfl⟩
  · split at h <;> cases h <;> exact ⟨rfl, rfl⟩
  · split at h
    · cases h; exact ⟨rfl, rfl⟩
    · split at h <;> cases h
      exact ⟨rfl, rfl⟩

/-- An access that reaches DMEM lies inside it (R60). -/
theorem inRange_of_target_dmem {p : Params} {w : Width} {a o : Nat} (h : target p w a = .dmem o) :
    inRange p o w.bytes = true := by
  unfold target at h
  split_ifs at h with _ _ _ hr
  cases Target.dmem.inj h
  exact hr

/-- What a write can do: nothing, set BERR only, write a register, or write the bytes of a DMEM range (R53, R56, R63). -/
theorem busWrite_next_cases {w : Width} {a v : Nat} {s t : State} (h : busWrite w a v s = .next t) :
    t = s.respond .busError ∨ t = s.ignoreWrite.respond .written ∨
      (∃ r x, t = (s.writeReg r x).respond .written) ∨
      ∃ o, inRange Config.params o w.bytes = true ∧
        t = (s.setMem (s.mem.writeBytes o (beBytes w.bytes v))).respond .written := by
  unfold busWrite at h
  split at h
  · cases h; exact .inl rfl
  · split at h <;> cases h
    · exact .inr (.inl rfl)
    · exact .inr (.inr (.inl ⟨_, _, rfl⟩))
  · rename_i o htarget
    split at h <;> cases h
    · exact .inr (.inl rfl)
    · exact .inr (.inr (.inr ⟨o, inRange_of_target_dmem htarget, rfl⟩))

theorem writeReg_mem (s : State) (r : HostReg) (v : Word) : (s.writeReg r v).mem = s.mem := by
  cases r <;> rfl

/-- A register write moves STATUS by an acknowledgement, an issue, or not at all (R36, R200). -/
theorem writeReg_status_sound {s : State} (h : s.status.Sound) (r : HostReg) (v : Word) :
    (s.writeReg r v).status.Sound := by
  cases r with
  | status => exact h.acknowledged v
  | cmd => exact s.status.sound_issued
  | _ => exact h

end Sys2Proof.Machine
end

section
/-! The invariant. -/

namespace Sys2Proof.Machine

theorem busRead_keeps_inv {w : Width} {a : Nat} {s t : State} (hs : s.Inv) (h : busRead w a s = .next t) : t.Inv := by
  obtain ⟨hmem, hstatus⟩ := busRead_next_frame h
  rw [State.inv_iff, hmem, hstatus]
  exact (State.inv_iff s).1 hs

theorem busWrite_keeps_inv {w : Width} {a v : Nat} {s t : State} (hs : s.Inv) (h : busWrite w a v s = .next t) :
    t.Inv := by
  obtain ⟨hmem, hstatus⟩ := (State.inv_iff s).1 hs
  rw [State.inv_iff]
  rcases busWrite_next_cases h with rfl | rfl | ⟨r, x, rfl⟩ | ⟨o, hr, rfl⟩
  · exact ⟨hmem, hstatus⟩
  · exact ⟨hmem, hstatus.misused⟩
  · exact ⟨(writeReg_mem s r x).symm ▸ hmem, writeReg_status_sound hstatus r x⟩
  · exact ⟨hmem.writeBytes hr (beBytes_length _ _).le, hstatus⟩

/-- A reset keeps what the invariant is about at its reset value (R250, R252). -/
theorem resetBlock_inv (s : State) : (resetBlock s).Inv :=
  (State.inv_iff _).2 ((State.inv_iff State.reset).1 resetMeetsTheInvariant)

theorem hostEvent_keeps_inv {e : HostEvent} {s t : State} (hs : s.Inv) (h : hostEvent e s = .next t) : t.Inv := by
  cases e with
  | read w a => exact busRead_keeps_inv hs h
  | write8 a v | write16 a v | write32 a v => exact busWrite_keeps_inv hs h
  | reset => cases h; exact resetBlock_inv s

theorem engineStep_keeps_inv {s t : State} (hs : s.Inv) (h : engineStep s = .next t) : t.Inv := by
  obtain ⟨hmem, -⟩ := (State.inv_iff s).1 hs
  rcases engineStep_next_cases h with ⟨i, s', hbody, rfl⟩ | ⟨c, rfl⟩
  · exact State.inv_finish (commandBody_mem_sound hmem hbody) (Nat.zero_le 4)
  · exact State.inv_finish hmem c.code_le

/-- Settles O22: the engine's step, an idle step and each host event keep the invariant, and taking an event from the
host's list is none of the invariant's business. -/
theorem stepKeepsTheInvariant : Obligations.StepKeepsTheInvariant := by
  intro s t hs h
  rcases step_next_cases h with hengine | rfl | ⟨e, rest, hhost⟩
  · exact engineStep_keeps_inv hs hengine
  · exact hs
  · have htook : (s.tookEvent rest).Inv := (State.inv_iff _).2 ((State.inv_iff s).1 hs)
    exact hostEvent_keeps_inv htook hhost

end Sys2Proof.Machine
end

section
/-! SUPPORT. What a host access of each kind reaches, in the terms of the statements, and a word's bytes. -/

namespace Sys2Proof.Machine

open Sys2Proof.Claims

/-! ### Targets -/

theorem target_dmemAccess {w : Width} {a : Word} {o : Nat} (h : dmemAccess w a o) :
    target Config.params w a.toNat = .dmem o := by
  obtain ⟨ha, halign, hin⟩ := h
  rw [ha]
  exact target_dmem _ w o halign hin

theorem target_cmd {a : Word} (h : a.toNat = 0x0C) : target Config.params .w32 a.toNat = .reg .cmd := by
  rw [h]; exact target_reg _ _ (by decide) (by decide)

/-- While BUSY = 1 a plain register's write is ignored and its read is unspecified (R34, R63). -/
theorem HostReg.busy_of_plain {r : HostReg} (h : r.plain = true) : r.guarded = true ∧ r.exactWhileBusy = false := by
  cases r with
  | id | ctrl | status | cmd | reserved => cases h
  | addr | len | dst | key | iv | prev | dLo | dHi => exact ⟨rfl, rfl⟩

/-- The offsets R34 guards reach guarded registers. -/
theorem target_guardedOffset {a : Word} (h : guardedOffset a.toNat) :
    ∃ r, target Config.params .w32 a.toNat = .reg r ∧ r.guarded = true := by
  rcases h with hctrl | hcmd | hplain
  · exact ⟨_, target_ctrl hctrl, rfl⟩
  · exact ⟨_, target_cmd hcmd, rfl⟩
  · exact ⟨_, target_plainOffset hplain, (HostReg.busy_of_plain (regAt_plain hplain)).1⟩

/-! ### Widths -/

theorem Width.data_eq_readAnswer (w : Width) (v : Nat) : w.data v = readAnswer w v := by
  cases w <;> rfl

/-- A write of a width carries the value's low bytes (R56). -/
theorem hostEvent_writeEvent (w : Width) (a v : Word) (s : State) :
    hostEvent (writeEvent w a v) s = busWrite w a.toNat (v.toNat % 256 ^ w.bytes) s := by
  cases w with
  | w8 | w16 => rw [writeEvent, hostEvent, BitVec.toNat_setWidth]; rfl
  | w32 => rw [writeEvent, hostEvent, Nat.mod_eq_of_lt (show v.toNat < 256 ^ Width.w32.bytes from v.isLt)]

/-- A digit below the cut is the uncut value's. -/
theorem beBytes_mod (n v : Nat) : beBytes n (v % 256 ^ n) = beBytes n v := by
  refine List.map_congr_left fun k hk => BitVec.eq_of_toNat_eq ?_
  have hk : k < n := List.mem_range.1 hk
  have hsplit : 256 ^ n = 256 ^ (n - 1 - k) * 256 ^ (k + 1) := by rw [← Nat.pow_add]; congr 1; omega
  rw [BitVec.toNat_ofNat, BitVec.toNat_ofNat, hsplit, Nat.mod_mul_right_div_self,
    Nat.mod_mod_of_dvd _ (show 2 ^ 8 ∣ 256 ^ (k + 1) from dvd_pow_self 256 k.succ_ne_zero)]

end Sys2Proof.Machine
end

section
/-! SUPPORT. One step of the host that writes DMEM, reads it, or meets BUSY = 1. -/

namespace Sys2Proof.Machine

open Sys2Proof.Claims

variable {s : State} {w : Width} {a v : Word} {o : Nat} {rest : List HostEvent}

/-- A host write to DMEM with BUSY = 0 (R53, R56). -/
theorem step_writeDmem (hm : hostMoves s (writeEvent w a v) rest) (ha : dmemAccess w a o)
    (hb : s.status.busy = false) :
    step s = .next (((s.tookEvent rest).setMem (s.mem.writeBytes o (beBytes w.bytes v.toNat))).respond .written) := by
  rw [step_of_hostMoves hm, hostEvent_writeEvent, busWrite_dmem (s := s.tookEvent rest) (target_dmemAccess ha) hb,
    beBytes_mod]
  rfl

/-- A host read of written bytes of DMEM with BUSY = 0 (R56). -/
theorem step_readDmem {bytes : List Byte} (hm : hostMoves s (.read w a) rest) (ha : dmemAccess w a o)
    (hb : s.status.busy = false) (hread : s.mem.readBytes o w.bytes = some bytes) :
    step s = .next ((s.tookEvent rest).respond (readAnswer w (beValue bytes))) := by
  rw [step_of_hostMoves hm, hostEvent, busRead_dmem (s := s.tookEvent rest) (target_dmemAccess ha) hb hread,
    Width.data_eq_readAnswer]

/-- A write to DMEM is ignored while BUSY = 1 (R63). -/
theorem step_ignoreDmemWrite (hm : hostMoves s (writeEvent w a v) rest) (ha : dmemAccess w a o)
    (hb : s.status.busy = true) : step s = .next ((s.tookEvent rest).ignoreWrite.respond .written) := by
  rw [step_of_hostMoves hm, hostEvent_writeEvent,
    busWrite_ignored (s := s.tookEvent rest) hb (.inl ⟨o, target_dmemAccess ha⟩)]

/-- An ignored write's whole effect: BERR is set, so IRQ is IE (R63, R225). -/
theorem ignoreWrite_effect (s : State) (rest : List HostEvent) (x : BusResponse) :
    SameBlock s ((s.tookEvent rest).ignoreWrite.respond x) ∧
      ((s.tookEvent rest).ignoreWrite.respond x).status = { s.status with berr := true } ∧
      ((s.tookEvent rest).ignoreWrite.respond x).irq = s.ctrl.ie := by
  refine ⟨⟨rfl, rfl, rfl, rfl, rfl, rfl, rfl, rfl, rfl, fun _ => rfl⟩, rfl, ?_⟩
  show (s.ctrl.ie && (s.status.done || true)) = s.ctrl.ie
  rw [Bool.or_true, Bool.and_true]

/-- A read whose value is unspecified while BUSY = 1 answers the next free value and changes nothing (R63). -/
theorem step_unspecifiedRead (hm : hostMoves s (.read w a) rest) (hb : s.status.busy = true)
    (ht : (∃ o, target Config.params w a.toNat = .dmem o) ∨
      ∃ r, target Config.params w a.toNat = .reg r ∧ r.exactWhileBusy = false) :
    ∃ t, step s = .next t ∧ SameBlock s t ∧ t.status = s.status ∧
      t.resp = some (readAnswer w (Config.freeRead s.draws).toNat) := by
  refine ⟨_, (step_of_hostMoves hm).trans (busRead_unspecified (s := s.tookEvent rest) hb ht),
    ⟨rfl, rfl, rfl, rfl, rfl, rfl, rfl, rfl, rfl, fun _ => rfl⟩, rfl, ?_⟩
  rw [State.respond_resp, Width.data_eq_readAnswer]
  rfl

/-- The four registers of R63 whose read is exact, by their offsets and values. -/
theorem target_exactOffset (h : (a, v) ∈ [(0x00#32, 0x524B4431#32), (0x04#32, s.ctrl.word),
    (0x08#32, s.status.word), (0x0C#32, s.cmd)]) :
    ∃ r, target Config.params .w32 a.toNat = .reg r ∧ r.exactWhileBusy = true ∧ s.readReg r = v := by
  simp only [List.mem_cons, Prod.mk.injEq, List.not_mem_nil, or_false] at h
  rcases h with ⟨rfl, rfl⟩ | ⟨rfl, rfl⟩ | ⟨rfl, rfl⟩ | ⟨rfl, rfl⟩
  · exact ⟨.id, target_id rfl, rfl, rfl⟩
  · exact ⟨.ctrl, target_ctrl rfl, rfl, rfl⟩
  · exact ⟨.status, target_status, rfl, rfl⟩
  · exact ⟨.cmd, target_cmd rfl, rfl, rfl⟩

end Sys2Proof.Machine
end

section
/-! The host's accesses to DMEM, and its accesses while a command is pending. -/

namespace Sys2Proof.Machine

open Sys2Proof.Claims

/-- Settles O15: a write of the value's bytes to a range of DMEM, and a read that is the value of the range's bytes. -/
theorem hostMemoryIsBigEndian : Obligations.HostMemoryIsBigEndian := by
  intro s w a o rest hb ha
  refine ⟨fun v hh => ?_, fun bytes hl hbytes hh => ?_⟩
  · have hlen := beBytes_length w.bytes v.toNat
    refine ⟨_, step_writeDmem ⟨hh, .inl hb⟩ ha hb, rfl, rfl, rfl, rfl, rfl, rfl, rfl, rfl, rfl, rfl,
      fun k hk => ?_, fun q hq => ?_⟩
    · exact (Memory.read_writeBytes_at s.mem o _ k (hlen.symm ▸ hk)).trans (congrArg some (beBytes_getElem _ _ k _))
    · exact Memory.read_writeBytes_other s.mem o _ q (hlen.symm ▸ hq)
  · have hread := (s.mem.readBytes_eq_some_iff o w.bytes bytes).2 ⟨hl, hbytes⟩
    rw [← hl]
    exact ⟨_, beValue bytes, step_readDmem ⟨hh, .inl hb⟩ ha hb hread, sameBlock_respond_tookEvent _ _ _, rfl, rfl,
      beValue_lt bytes, beValue_digit bytes⟩

/-- Settles O10: each access of R63 by what it reaches: a guarded register or DMEM, STATUS, an exact register, a plain
register or DMEM. -/
theorem accessesWhileBusy : Obligations.AccessesWhileBusy := by
  intro s rest hb hw
  refine ⟨fun a v hguarded hh => ?_, fun w a v o ha hh => ?_, fun v hh => ?_, fun a v hexact hh => ?_,
    fun a hplain hh => ?_, fun w a o ha hh => ?_⟩
  · obtain ⟨r, ht, hr⟩ := target_guardedOffset hguarded
    exact ⟨_, step_ignoreWrite ⟨hh, .inr hw⟩ ht hb hr, ignoreWrite_effect s rest _⟩
  · exact ⟨_, step_ignoreDmemWrite ⟨hh, .inr hw⟩ ha hb, ignoreWrite_effect s rest _⟩
  · exact ⟨_, step_writeReg ⟨hh, .inr hw⟩ target_status (.inr rfl),
      ⟨rfl, rfl, rfl, rfl, rfl, rfl, rfl, rfl, rfl, fun _ => rfl⟩, hb, rfl, rfl, rfl, rfl⟩
  · obtain ⟨r, ht, hr, rfl⟩ := target_exactOffset hexact
    exact ⟨_, step_readReg ⟨hh, .inr hw⟩ ht (.inr hr), sameBlock_respond_tookEvent _ _ _, rfl, rfl⟩
  · obtain ⟨-, hinexact⟩ := HostReg.busy_of_plain (regAt_plain hplain)
    obtain ⟨t, hstep, hblock, hstatus, hresp⟩ :=
      step_unspecifiedRead ⟨hh, .inr hw⟩ hb (.inr ⟨_, target_plainOffset hplain, hinexact⟩)
    exact ⟨t, hstep, hblock, hstatus, by rw [hresp, readAnswer, BitVec.ofNat_toNat, BitVec.setWidth_eq]⟩
  · exact step_unspecifiedRead ⟨hh, .inr hw⟩ hb (.inl ⟨o, target_dmemAccess ha⟩)

end Sys2Proof.Machine
end

/-! Proofs about the encoding: the opcode map field by field, decoding and encoding as inverses, the words that are no
command, refusals, and the pseudo-instructions. -/

section
/-! SUPPORT. The opcode map of R73 in the terms of the statements: which opcodes have a row, and that the bits a row fixes
are those of the fields its command does not use. -/

namespace Sys2Proof

open Sys2Proof.Claims

/-! ### Words of format F1, field by field -/

theorem assembleF1_inj_iff {op op' : BitVec 8} {rd rd' rs1 rs1' rs2 rs2' rs3 rs3' : DReg} {imm imm' : Imm6}
    {rsv rsv' : BitVec 6} :
    assembleF1 op rd rs1 rs2 rs3 imm rsv = assembleF1 op' rd' rs1' rs2' rs3' imm' rsv' ↔
      op = op' ∧ rd = rd' ∧ rs1 = rs1' ∧ rs2 = rs2' ∧ rs3 = rs3' ∧ imm = imm' ∧ rsv = rsv' := by
  constructor
  · intro h
    exact ⟨by simpa using congrArg opField h, by simpa using congrArg rdField h, by simpa using congrArg rs1Field h,
      by simpa using congrArg rs2Field h, by simpa using congrArg rs3Field h, by simpa using congrArg imm6Field h,
      by simpa using congrArg rsvField h⟩
  · rintro ⟨rfl, rfl, rfl, rfl, rfl, rfl, rfl⟩
    rfl

/-- The mask of a register field: whole where the field must be 0, empty where the command uses it. -/
def regMask (fixed : Bool) : DReg := if fixed then 7 else 0

theorem and_regMask_eq_zero_iff (r : DReg) (fixed : Bool) :
    Eq (α := DReg) (BitVec.ofFin (w := 3) r &&& BitVec.ofFin (w := 3) (regMask fixed)).toFin 0 ↔
      (fixed = true → r = 0) := by
  revert r fixed; decide

/-- The mask of IMM6 fixes the bits from a distance's limit on, the limit being a power of two. -/
theorem and_immMask_eq_zero_iff (imm : Imm6) (op : Nat) :
    imm &&& BitVec.ofNat 6 (64 - immLimit op) = 0 ↔ imm.toNat < immLimit op := by
  have key : ∀ limit ∈ [64, 32, 16, 1], ∀ imm : Imm6, imm &&& BitVec.ofNat 6 (64 - limit) = 0 ↔ imm.toNat < limit := by
    decide
  refine key _ ?_ imm
  unfold immLimit
  split_ifs <;> simp

/-! ### The rows -/

/-- The opcodes of the commands that use RS2. -/
def rs2Ops : List Nat := [0x22, 0x23, 0x24, 0x2A, 0x2C, 0x2D]

theorem usesRs2_iff (op : Nat) : usesRs2 op ↔ op ∈ rs2Ops := by
  simp [usesRs2, rs2Ops]

/-- The bits R73 fixes for an opcode: OP, RSV, the register fields the command does not use, and the bits of IMM6 past the
largest distance. -/
def fixedBits (op : BitVec 8) : Word :=
  assembleF1 0xFF#8 (regMask (op.toNat < 0x20)) (regMask (op.toNat < 0x22)) (regMask (op.toNat ∉ rs2Ops))
    (regMask (op.toNat ≠ 0x2A)) (BitVec.ofNat 6 (64 - immLimit op.toNat)) 0x3F#6

/-- Every row's mask and pattern, written out in the opcode map as numbers, are these. -/
theorem opcodeMap_fixedBits :
    ∀ r ∈ opcodeMap, r.mask = fixedBits r.op ∧ r.pattern = assembleF1 r.op 0 0 0 0 0 0 := by
  decide

/-- What the decoder compares, bit by bit, is what R73 to R77 ask, field by field. -/
theorem and_mask_eq_pattern_iff {r : OpcodeRow} (hr : r ∈ opcodeMap) {w : Word} (hop : r.op = opField w) :
    w &&& r.mask = r.pattern ↔ fieldsAllowed w := by
  obtain ⟨hmask, hpattern⟩ := opcodeMap_fixedBits r hr
  have hop8 : opField w &&& 0xFF#8 = opField w := BitVec.and_allOnes
  have hrsv6 : rsvField w &&& 0x3F#6 = rsvField w := BitVec.and_allOnes
  rw [hmask, hpattern, hop]
  conv_lhs => rw [← assembleF1_fields w]
  simp only [fixedBits, opField_assembleF1, assembleF1_and, assembleF1_inj_iff, hop8, hrsv6, and_regMask_eq_zero_iff,
    and_immMask_eq_zero_iff, decide_eq_true_eq, fieldsAllowed, usesRs2_iff]
  tauto

/-- The opcodes R79 lists are those of the rows. -/
theorem definedOp_iff (op : BitVec 8) : definedOp op.toNat ↔ ∃ r ∈ opcodeMap, r.op = op := by
  revert op; unfold definedOp; decide

/-- The row of a word's opcode. -/
def IsRow (w : Word) (r : OpcodeRow) : Prop := opcodeMap.find? (fun r => r.op == opField w) = some r

theorem IsRow.mem {w : Word} {r : OpcodeRow} (h : IsRow w r) : r ∈ opcodeMap := List.mem_of_find?_eq_some h

theorem IsRow.op_eq {w : Word} {r : OpcodeRow} (h : IsRow w r) : r.op = opField w := by
  simpa using List.find?_some h

theorem exists_isRow {w : Word} (h : definedOp (opField w).toNat) : ∃ r, IsRow w r := by
  obtain ⟨r, hr, hop⟩ := (definedOp_iff _).1 h
  exact Option.isSome_iff_exists.1 (List.find?_isSome.2 ⟨r, hr, by simpa using hop⟩)

/-! ### Decoding, by the three cases of R79 -/

/-- An opcode outside the map is illegal (R76). -/
theorem decode_of_not_definedOp {w : Word} (h : ¬ definedOp (opField w).toNat) : decode w = .illegal := by
  have hnone : opcodeMap.find? (fun r => r.op == opField w) = none :=
    List.find?_eq_none.2 fun r hr hop => h ((definedOp_iff _).2 ⟨r, hr, by simpa using hop⟩)
  simp [decode, hnone]

theorem IsRow.decode_eq {w : Word} {r : OpcodeRow} (h : IsRow w r) :
    decode w = if w &&& r.mask = r.pattern then .cmd (r.build w) else .reserved := by
  unfold IsRow at h
  simp [decode, h]

/-- Allowed fields make a command (R79). -/
theorem IsRow.decode_of_fieldsAllowed {w : Word} {r : OpcodeRow} (h : IsRow w r) (hw : fieldsAllowed w) :
    decode w = .cmd (r.build w) := by
  rw [h.decode_eq, if_pos ((and_mask_eq_pattern_iff h.mem h.op_eq).2 hw)]

/-- A field that is not allowed makes the word reserved (R74, R75, R77). -/
theorem IsRow.decode_of_not_fieldsAllowed {w : Word} {r : OpcodeRow} (h : IsRow w r) (hw : ¬ fieldsAllowed w) :
    decode w = .reserved := by
  rw [h.decode_eq, if_neg (mt (and_mask_eq_pattern_iff h.mem h.op_eq).1 hw)]

/-- A word that decodes to a command has the row that builds it, and allowed fields. -/
theorem isRow_of_decode_eq_cmd {w : Word} {i : Instr} (h : decode w = .cmd i) :
    ∃ r, IsRow w r ∧ fieldsAllowed w ∧ r.build w = i := by
  by_cases hop : definedOp (opField w).toNat
  · obtain ⟨r, hr⟩ := exists_isRow hop
    by_cases hw : fieldsAllowed w
    · exact ⟨r, hr, hw, by simpa [hr.decode_of_fieldsAllowed hw] using h⟩
    · simp [hr.decode_of_not_fieldsAllowed hw] at h
  · simp [decode_of_not_definedOp hop] at h

end Sys2Proof
end

section
/-! Decoding and encoding are inverse to each other. -/

namespace Sys2Proof

open Sys2Proof.Claims

/-! ### From a command to its word -/

/-- The row of a command's encoding reads its operands back (R71, R73). -/
theorem encodedRow : ∀ i : Instr, Laws.EncodedRow.Statement i
  | .nop => Laws.EncodedRow.nop
  | .encb => Laws.EncodedRow.encb
  | .kstep => Laws.EncodedRow.kstep
  | .chain => Laws.EncodedRow.chain
  | .dld16 rd => Laws.EncodedRow.dld16 rd
  | .dld32 rd => Laws.EncodedRow.dld32 rd
  | .dxor rd a b => Laws.EncodedRow.dxor rd a b
  | .dcat16 rd a b => Laws.EncodedRow.dcat16 rd a b
  | .dcat32 rd a b => Laws.EncodedRow.dcat32 rd a b
  | .dfold16 rd a => Laws.EncodedRow.dfold16 rd a
  | .drotl32 rd a r => Laws.EncodedRow.drotl32 rd a r
  | .drotr32 rd a r => Laws.EncodedRow.drotr32 rd a r
  | .drotl64 rd a r => Laws.EncodedRow.drotl64 rd a r
  | .drotr64 rd a r => Laws.EncodedRow.drotr64 rd a r
  | .sent rd a b k => Laws.EncodedRow.sent rd a b k
  | .dmask rd a => Laws.EncodedRow.dmask rd a
  | .dand rd a b => Laws.EncodedRow.dand rd a b
  | .dor rd a b => Laws.EncodedRow.dor rd a b
  | .dshl64 rd a r => Laws.EncodedRow.dshl64 rd a r
  | .dshr64 rd a r => Laws.EncodedRow.dshr64 rd a r
  | .drotl16 rd a r => Laws.EncodedRow.drotl16 rd a r
  | .drotr16 rd a r => Laws.EncodedRow.drotr16 rd a r

/-- An encoding has 0 in the fields its command does not use, and a well-formed command's distance is in range. -/
theorem fieldsAllowed_encode {i : Instr} (h : i.wellFormed = true) : fieldsAllowed (encode i) := by
  cases i with
  | drotl32 rd a r | drotr32 rd a r | drotl16 rd a r | drotr16 rd a r =>
    simpa [encode, fieldsAllowed, usesRs2, immLimit, Instr.wellFormed, Imm6.below] using h
  | drotl64 rd a r | drotr64 rd a r | dshl64 rd a r | dshr64 rd a r =>
    have := r.isLt
    simpa [encode, fieldsAllowed, usesRs2, immLimit] using this
  | _ => simp [encode, fieldsAllowed, usesRs2, immLimit]

/-- Settles O1: the encoding's row builds the command from its fields, and the fields pass the decoder's comparison. -/
theorem decodeOfEncodeIsTheCommand : Obligations.DecodeOfEncodeIsTheCommand := by
  intro i hi
  obtain ⟨r, hr, hbuild⟩ := encodedRow i
  rw [IsRow.decode_of_fieldsAllowed hr (fieldsAllowed_encode hi), hbuild]

/-! ### From a word to its command -/

/-- The command a row builds from a word with allowed fields is well-formed, and its encoding drops no bit of the word: in
each row the fields the command does not keep are those that are 0. -/
theorem encode_build {r : OpcodeRow} (hr : r ∈ opcodeMap) {w : Word} (hop : r.op = opField w) (hw : fieldsAllowed w) :
    (r.build w).wellFormed = true ∧ encode (r.build w) = w := by
  conv => rhs; rhs; rw [← assembleF1_fields w]
  have himm : (imm6Field w).toNat = 0 ↔ imm6Field w = 0#6 := BitVec.toNat_inj (y := 0#6)
  unfold fieldsAllowed at hw
  rw [← hop] at hw ⊢
  fin_cases hr
  all_goals
    simp [usesRs2, immLimit, himm] at hw
    simp [hw, encode, Instr.wellFormed, Imm6.below]

/-- Settles O2: the decoder's row gives a command whose encoding has the word's own fields. -/
theorem encodeOfDecodeIsTheWord : Obligations.EncodeOfDecodeIsTheWord := by
  intro w i h
  obtain ⟨r, hr, hw, rfl⟩ := isRow_of_decode_eq_cmd h
  exact encode_build hr.mem hr.op_eq hw

/-- Settles O5: seven of the words are encodings, one has a distance of 32 in a 32-bit rotation, one has no row. -/
theorem exampleWordsDecode : Obligations.ExampleWordsDecode := by
  have h := decodeOfEncodeIsTheCommand
  exact ⟨h .nop rfl, h .encb rfl, h .chain rfl, h (.dxor 3 1 2) rfl, h (.drotl32 0 1 3#6) rfl, h (.sent 2 0 1 7) rfl,
    h (.dmask 3 7) rfl, rfl, rfl⟩

end Sys2Proof
end

section
/-! The words that are no command, and refusals. -/

namespace Sys2Proof.Machine

open Sys2Proof.Claims

/-- An illegal opcode raises its error in place of a command (R76, R223). -/
theorem engineStep_of_illegal {s : State} (h : decode s.cmd = .illegal) : engineStep s = .next (s.finish 1#4) := by
  rw [engineStep_eq_complete, h]
  rfl

/-- A reserved word raises its error in place of a command (R74, R75, R77, R223). -/
theorem engineStep_of_reserved {s : State} (h : decode s.cmd = .reserved) : engineStep s = .next (s.finish 2#4) := by
  rw [engineStep_eq_complete, h]
  rfl

/-- Settles O3: no row has the opcode, so the decoder looks at no other field. -/
theorem undefinedOpcodeRaisesIllegal : Obligations.UndefinedOpcodeRaisesIllegal :=
  fun s h => ⟨_, engineStep_of_illegal (decode_of_not_definedOp h), onlyError_finish s 1⟩

/-- Settles O4: the opcode has a row, whose fixed bits hold exactly where the fields are allowed. -/
theorem nonzeroUnusedFieldRaisesReserved : Obligations.NonzeroUnusedFieldRaisesReserved := by
  intro s h
  obtain ⟨r, hr⟩ := exists_isRow h
  exact ⟨fun hw => ⟨_, engineStep_of_reserved (hr.decode_of_not_fieldsAllowed hw), onlyError_finish s 2⟩,
    fun hw => ⟨_, hr.decode_of_fieldsAllowed hw⟩⟩

/-! ### Refusals -/

theorem exec_ne_refused (i : Instr) (s : State) (r : Refusal) : exec i s ≠ .refused r := by
  rw [exec_eq_complete]
  exact complete_ne_refused _ _ _

theorem engineStep_ne_refused (s : State) (r : Refusal) : engineStep s ≠ .refused r := by
  rw [engineStep_eq_complete]
  exact complete_ne_refused _ _ _

/-- A read answers a value or a bus error, or meets the model fault (R56, R230, R231). -/
theorem busRead_ne_refused (w : Width) (a : Nat) (s : State) (r : Refusal) : busRead w a s ≠ .refused r := by
  unfold busRead unspecifiedRead
  cases target Config.params w a with
  | busError => simp
  | reg x => dsimp only; split_ifs <;> simp
  | dmem o => dsimp only; split_ifs <;> [simp; (cases s.mem.readBytes o w.bytes <;> simp)]

/-- A write is performed, ignored or a bus error (R56, R63, R231). -/
theorem busWrite_ne_refused (w : Width) (a v : Nat) (s : State) (r : Refusal) : busWrite w a v s ≠ .refused r := by
  unfold busWrite
  cases target Config.params w a with
  | busError => simp
  | reg x | dmem o => dsimp only; split_ifs <;> simp

theorem hostEvent_ne_refused (e : HostEvent) (s : State) (r : Refusal) : hostEvent e s ≠ .refused r := by
  cases e with
  | read w a => exact busRead_ne_refused _ _ _ _
  | write8 a v | write16 a v | write32 a v => exact busWrite_ne_refused _ _ _ _ _
  | reset => exact nofun

theorem hostTurn_ne_refused (s : State) (r : Refusal) : hostTurn s ≠ .refused r := by
  unfold hostTurn
  cases s.host with
  | nil => exact nofun
  | cons e rest => exact hostEvent_ne_refused _ _ _

/-- Settles O23: neither agent's turn is refused, nor is any command outside a step. -/
theorem noStepIsRefused : Obligations.NoStepIsRefused := by
  refine fun s r => ⟨?_, fun i => exec_ne_refused i s r⟩
  unfold step
  split
  · exact engineStep_ne_refused s r
  · exact hostTurn_ne_refused s r

end Sys2Proof.Machine
end

section
/-! The pseudo-instructions (R81). -/

namespace Sys2Proof.Machine

@[simp] theorem rotl_zero (x : BitVec w) : rotl x 0 = x := by
  refine BitVec.eq_of_getLsbD_eq fun j hj => ?_
  rw [rotl_getLsbD x 0 j (Nat.zero_le w) hj, if_neg (Nat.not_lt_zero j), Nat.sub_zero]

/-- A rotation by half the width swaps the halves (R7). -/
theorem rotl_half (x : DWord) : rotl x 32 = low32 x ++ high32 x := by
  refine BitVec.eq_of_getLsbD_eq fun j hj => ?_
  rw [rotl_getLsbD x 32 j (by decide) hj, BitVec.getLsbD_append]
  by_cases hlow : j < 32
  · simp [high32, hlow]
  · simp [low32, hlow, show j - 32 < 32 by omega]

/-- Settles O36: each expansion writes one D register, with a rotation by 0 or by half the width, or `x ^ x`. -/
theorem pseudoInstructionEffects : Obligations.PseudoInstructionEffects := by
  intro s rd a
  refine ⟨?_, ?_, ?_, ?_⟩
  · obtain ⟨t, hexec, hframe, hrd⟩ := complete_writeD s rd (rotl (s.readD a) 0)
    exact ⟨t, hexec, hframe, by rw [hrd, rotl_zero]⟩
  · obtain ⟨t, hexec, hframe, hrd⟩ := complete_writeD s rd (s.readD rd ^^^ s.readD rd)
    exact ⟨t, hexec, hframe, by rw [hrd]; exact BitVec.xor_self⟩
  · obtain ⟨t, hexec, hframe, hrd⟩ :=
      complete_rotateInto s 32 rd 0#6 (zext64 (rotl (low32 (s.readD a)) 0)) (by decide)
    exact ⟨t, hexec, hframe, by rw [hrd, rotl_zero, zext64_toNat _ (by decide), low32_toNat]⟩
  · obtain ⟨t, hexec, hframe, hrd⟩ := complete_writeD s rd (rotl (s.readD a) 32)
    exact ⟨t, hexec, hframe, by rw [hrd, rotl_half, append_toNat, low32_toNat, high32_toNat]⟩

end Sys2Proof.Machine
end

/-! Proofs about the cipher: the key schedule's recurrence, the round functions by row and column, the rounds of Enc, and
ENCB. -/

section
/-! SUPPORT. The key schedule word by word: it is built newest first, and a new word depends on the words before it only. -/

namespace Sys2Proof.Machine

/-! ### The bytes of one word (R104, R105, R107) -/

theorem xorKWord_getElem (a b : KWord) (k : Fin 4) : (xorKWord a b)[k] = a[k] ^^^ b[k] := by
  simp [xorKWord]

theorem subWord_getElem (p : Params) (w : KWord) (k : Fin 4) : (subWord p w)[k] = p.sbox w[k] := by
  simp [subWord]

theorem rotWord_getElem (w : KWord) (k : Fin 4) : (rotWord w)[k] = w[(k.val + 1) % 4]'(by omega) := by
  fin_cases k <;> rfl

theorem roundConstant_getElem (c : Byte) (k : Fin 4) :
    (#v[c, 0x00#8, 0x00#8, 0x00#8] : KWord)[k] = if k = 0 then c else 0 := by
  fin_cases k <;> rfl

/-- Byte `k` of `t`, by R107's three cases. -/
theorem scheduleTemp_getElem (p : Params) (nk i : Nat) (before : KWord) (k : Fin 4) :
    (scheduleTemp p nk i before)[k] =
      if i % nk = 0 then p.sbox (before[(k.val + 1) % 4]'(by omega)) ^^^ (if k = 0 then p.rcon (i / nk) else 0)
      else if nk = 8 ∧ i % 8 = 4 then p.sbox before[k]
      else before[k] := by
  unfold scheduleTemp
  split_ifs with hfirst hmid
  · rw [xorKWord_getElem, subWord_getElem, rotWord_getElem, roundConstant_getElem]
  · exact subWord_getElem p before k
  · rfl

/-! ### The words in order -/

/-- While the schedule is extended, word `i` is put on top of the `i` words before it, and nothing below it changes. -/
theorem exists_suffix_extendSchedule (p : Params) {nk n i : Nat} {l : List KWord} (hl : l.length ≤ i)
    (hi : i < l.length + n) :
    ∃ before, before.length = i ∧ nextKeyWord p nk before :: before <:+ extendSchedule p nk n l := by
  refine ⟨extendSchedule p nk (i - l.length) l, by rw [extendSchedule_length]; omega, ?_⟩
  obtain ⟨rest, hn⟩ : ∃ rest, n = i - l.length + (rest + 1) := ⟨n - 1 - (i - l.length), by omega⟩
  rw [hn, extendSchedule_add]
  exact extendSchedule_suffix p nk rest _

/-- Of a list held newest first, word `j` in order is a word of every older part that has it. -/
theorem getD_reverse_of_suffix {newestFirst older : List KWord} (h : older <:+ newestFirst) {j : Nat}
    (hj : j < older.length) (w : KWord) : newestFirst.reverse.getD j w = older.getD (older.length - 1 - j) w := by
  obtain ⟨newer, rfl⟩ := h
  rw [List.reverse_append, List.getD_append _ _ _ _ (by simpa using hj), List.getD_reverse _ hj]

/-- R107: the first words are the key's. -/
theorem keyExpansion_initial (p : Params) {key : List Byte} {nk nr i : Nat} (hkey : key.length = 4 * nk) (hi : i < nk) :
    (keyExpansion p key nr).getD i zeroKWord = (initialKeyWords key nk).getD i zeroKWord := by
  have hnk : key.length / 4 = nk := by omega
  have hlen : (initialKeyWords key nk).reverse.length = nk := by simp
  rw [keyExpansion, hnk, getD_reverse_of_suffix (extendSchedule_suffix p nk _ _) (hlen.symm ▸ hi), hlen,
    List.getD_reverse _ (by rw [initialKeyWords_length]; omega), initialKeyWords_length,
    show nk - 1 - (nk - 1 - i) = i by omega]

/-- Byte `k` of the key's word `i` is key byte `4i + k` (R107). -/
theorem initialKeyWords_getElem (key : List Byte) {nk i : Nat} (hi : i < nk) (k : Fin 4) :
    ((initialKeyWords key nk).getD i zeroKWord)[k] = key.getD (4 * i + k.val) 0 := by
  rw [List.getD_eq_getElem _ _ (by simpa using hi)]
  simp [initialKeyWords]

/-- R107: each later word is `w[i - Nk] ^ t`. -/
theorem keyExpansion_next (p : Params) {key : List Byte} {nk nr i : Nat} (hkey : key.length = 4 * nk) (hpos : 0 < nk)
    (hi : nk ≤ i) (hin : i < 4 * (nr + 1)) :
    (keyExpansion p key nr).getD i zeroKWord =
      xorKWord ((keyExpansion p key nr).getD (i - nk) zeroKWord)
        (scheduleTemp p nk i ((keyExpansion p key nr).getD (i - 1) zeroKWord)) := by
  have hnk : key.length / 4 = nk := by omega
  obtain ⟨before, hlen, hsuffix⟩ := exists_suffix_extendSchedule p (nk := nk) (n := 4 * (nr + 1) - nk) (i := i)
    (l := (initialKeyWords key nk).reverse) (by simpa using hi) (by simp; omega)
  have hword : ∀ j, j < i → (keyExpansion p key nr).getD j zeroKWord = before.getD (i - 1 - j) zeroKWord := by
    intro j hj
    rw [keyExpansion, hnk, getD_reverse_of_suffix ((List.suffix_cons _ _).trans hsuffix) (hlen.symm ▸ hj), hlen]
  have hnew : (keyExpansion p key nr).getD i zeroKWord = nextKeyWord p nk before := by
    rw [keyExpansion, hnk, getD_reverse_of_suffix hsuffix (by simp [hlen])]
    simp [hlen]
  rw [hnew, nextKeyWord, hlen, hword (i - nk) (by omega), hword (i - 1) (by omega),
    show i - 1 - (i - nk) = nk - 1 by omega, Nat.sub_self, List.headD_eq_getD]

end Sys2Proof.Machine
end

section
/-! The key schedule. -/

namespace Sys2Proof.Machine

/-- Settles O44: the length, the key's own words, and the recurrence byte by byte. -/
theorem keyExpansionRecurrence : Obligations.KeyExpansionRecurrence := by
  intro p key nk nr hkey hnk hnr
  refine ⟨keyExpansion_length p key nr (by omega), fun i hi k => ?_, fun i hi hin k => ?_⟩
  · rw [keyExpansion_initial p hkey hi, initialKeyWords_getElem key hi k]
  · dsimp only
    rw [keyExpansion_next p hkey (by omega) hi hin, xorKWord_getElem, scheduleTemp_getElem]

end Sys2Proof.Machine
end

section
/-! SUPPORT. GF(2^8) on naturals (R102), and the round functions at row `r` and column `c`: state byte `s[r][c]` is byte
`r + 4c` of the block (R108). -/

namespace Sys2Proof.Machine

open Sys2Proof.Claims

/-! ### GF(2^8) -/

/-- A byte's xtime cuts 0x11B to a byte, as the cut to 8 bits does on naturals. -/
theorem xtime_toNat (b : Byte) : (xtime b).toNat = xtimeNat b.toNat := by
  have hcut : (b.toNat <<< 1 ^^^ 0x11B) % 2 ^ 8 = b.toNat <<< 1 % 2 ^ 8 ^^^ 0x1B := Nat.xor_mod_two_pow
  unfold xtime xtimeNat
  rw [BitVec.toNat_xor, BitVec.toNat_shiftLeft, BitVec.testBit_toNat]
  cases b.getLsbD 7 with
  | false => simp
  | true => exact hcut.symm

theorem xtimePow_toNat (k : Nat) (a : Byte) : (xtimePow k a).toNat = xtimeNat^[k] a.toNat := by
  induction k with
  | zero => rfl
  | succ k ih => rw [xtimePow, xtime_toNat, ih, Function.iterate_succ_apply']

/-- Adding the powers under a test of each bit is adding them over the bits that are 1. -/
theorem gmul_toNat (a b : Byte) : (gmul a b).toNat = gmulNat a.toNat b.toNat := by
  rw [gmul, gmulNat, List.foldl_filter]
  refine (List.foldl_hom BitVec.toNat fun sum k => ?_).symm
  rw [BitVec.testBit_toNat]
  cases b.getLsbD k with
  | false => rfl
  | true => exact ((BitVec.toNat_xor ..).trans (congrArg _ (xtimePow_toNat k a))).symm

/-! ### Rows and columns -/

section
variable (s : Block) (r c : Fin 4)

theorem subBytes_getElem (p : Params) :
    (subBytes p s)[r.val + 4 * c.val]'(by omega) = p.sbox (s[r.val + 4 * c.val]'(by omega)) := by
  simp [subBytes]

/-- Position `r + 4c` has row `r` and column `c` (R108). -/
theorem row_column : (r.val + 4 * c.val) % 4 = r.val ∧ (r.val + 4 * c.val) / 4 = c.val := by
  omega

theorem shiftRows_getElem :
    (shiftRows s)[r.val + 4 * c.val]'(by omega) = s[r.val + 4 * (c + r).val]'(by omega) := by
  obtain ⟨hrow, hcolumn⟩ := row_column r c
  simp only [shiftRows, Vector.getElem_ofFn, hrow, hcolumn, Fin.val_add]

theorem addRoundKey_getElem (w : List KWord) (rnd : Nat) :
    (addRoundKey w rnd s)[r.val + 4 * c.val]'(by omega) =
      s[r.val + 4 * c.val]'(by omega) ^^^ (w.getD (4 * rnd + c.val) zeroKWord)[r] := by
  obtain ⟨hrow, hcolumn⟩ := row_column r c
  simp only [addRoundKey, Fin.getElem_fin, Vector.getElem_ofFn, hrow, hcolumn]

/-- MixColumns on naturals, the four bytes of the column counted from row `r` on (R111). -/
theorem mixColumns_toNat :
    ((mixColumns s)[r.val + 4 * c.val]'(by omega)).toNat =
      gmulNat (s[r.val + 4 * c.val]'(by omega)).toNat 2 ^^^
        gmulNat (s[(r + 1).val + 4 * c.val]'(by omega)).toNat 3 ^^^
        (s[(r + 2).val + 4 * c.val]'(by omega)).toNat ^^^ (s[(r + 3).val + 4 * c.val]'(by omega)).toNat := by
  rw [mixColumns_getElem]
  simp only [BitVec.toNat_xor, gmul_toNat]
  rfl

end

end Sys2Proof.Machine
end

section
/-! The round functions. -/

namespace Sys2Proof.Machine

open Sys2Proof.Claims

theorem xor_rotate (a b c d : Nat) : a ^^^ b ^^^ c ^^^ d = d ^^^ a ^^^ b ^^^ c := by
  rw [Nat.xor_comm _ d, Nat.xor_assoc d, Nat.xor_assoc d, Nat.xor_assoc a]

/-- Settles O45: each function byte by byte; the sum of MixColumns in row `r` starts at row `r`, and is rotated to start at
row 0. -/
theorem roundFunctionsByRowAndColumn : Obligations.RoundFunctionsByRowAndColumn := by
  refine ⟨xtime_toNat, gmul_toNat, fun p w rnd s r c => ⟨subBytes_getElem s r c p, shiftRows_getElem s r c,
    addRoundKey_getElem s r c w rnd, mixColumns_toNat s 0 c, ?_, ?_, ?_⟩⟩
  · exact (mixColumns_toNat s 1 c).trans (xor_rotate ..)
  · exact (mixColumns_toNat s 2 c).trans ((xor_rotate ..).trans (xor_rotate ..))
  · exact (mixColumns_toNat s 3 c).trans (xor_rotate ..).symm

end Sys2Proof.Machine
end

section
/-! The rounds of Enc. -/

namespace Sys2Proof.Machine

/-- A full round (R100, R120). -/
def fullRound (p : Params) (w : List KWord) (s : Block) (rnd : Nat) : Block :=
  addRoundKey w rnd (mixColumns (shiftRows (subBytes p s)))

/-- The cipher's recursion is a fold of full rounds, then the final round with the next key (R120). -/
theorem cipherRounds_eq_foldl (p : Params) (w : List KWord) (full rnd : Nat) (s : Block) :
    cipherRounds p w full rnd s =
      addRoundKey w (rnd + full) (shiftRows (subBytes p ((List.range' rnd full).foldl (fullRound p w) s))) := by
  induction full generalizing rnd s with
  | zero => rfl
  | succ full ih =>
    rw [cipherRounds, ih, List.range'_succ, List.foldl_cons, show rnd + 1 + full = rnd + (full + 1) by omega]
    rfl

/-- R101: the round count of the two key lengths. -/
theorem roundCount_eq (p : Params) {key : List Byte} {nr : Nat}
    (h : (key.length = 16 ∧ nr = 10) ∨ (key.length = 32 ∧ nr = rounds256 p)) : roundCount p key = nr := by
  unfold roundCount
  rcases h with ⟨hkey, rfl⟩ | ⟨hkey, rfl⟩
  · rw [if_pos (by omega)]
  · rw [if_neg (by omega)]

theorem rounds256_pos (p : Params) : 1 ≤ rounds256 p := by
  unfold rounds256
  split <;> decide

/-- Settles O46: Nr - 1 full rounds from round 1 on leave the final round the key of round Nr. -/
theorem cipherIsItsRounds : Obligations.CipherIsItsRounds := by
  intro p key blk nr h
  have hrounds : roundCount p key = nr := roundCount_eq p h
  have hpos : 1 ≤ nr := by
    rcases h with ⟨-, rfl⟩ | ⟨-, rfl⟩
    · decide
    · exact rounds256_pos p
  simp only [enc]
  rw [hrounds, cipherRounds_eq_foldl, Nat.add_sub_cancel' hpos]
  rfl

end Sys2Proof.Machine
end

section
/-! SUPPORT. A block in DMEM, and a command that ends early. -/

namespace Sys2Proof.Machine

/-! ### A block in DMEM -/

@[simp] theorem blockOfList_toList (b : Block) : blockOfList b.toList = b := by
  ext i hi : 1
  simp [blockOfList]

/-- MemRead of 16 bytes returns a block exactly where its bytes stand (R11, R52). -/
theorem Memory.readBytes_block_iff (m : Memory) (a : Nat) (b : Block) :
    m.readBytes a 16 = some b.toList ↔ ∀ k : Fin 16, m.read (a + k.val) = some b[k] := by
  rw [Memory.readBytes_eq_some_iff]
  constructor
  · rintro ⟨-, h⟩ k
    simpa using h k.val (by simp)
  · refine fun h => ⟨by simp, fun k hk => ?_⟩
    simpa using h ⟨k, by simpa using hk⟩

/-- A block written to DMEM reads back byte by byte (R53). -/
theorem Memory.read_writeBytes_block (m : Memory) (a : Nat) (b : Block) (k : Fin 16) :
    (m.writeBytes a b.toList).read (a + k.val) = some b[k] := by
  simpa using m.read_writeBytes_at a b.toList k.val (by simp)

/-- A block written to DMEM leaves every other byte (R53). -/
theorem Memory.read_writeBytes_block_other (m : Memory) (a : Nat) (b : Block) {q : Nat} (h : q < a ∨ a + 16 ≤ q) :
    (m.writeBytes a b.toList).read q = m.read q :=
  m.read_writeBytes_other a b.toList q (by simpa using h)

/-! ### A command that ends early -/

theorem inRange_eq_false_iff (p : Params) (a n : Nat) : inRange p a n = false ↔ dmemBytes p < a + n := by
  simp [inRange]

/-- A raised error is the command's only effect (R222). -/
theorem exec_onlyError {i : Instr} {s : State} {c : ErrCode} (h : commandBody i s = .error (.error c)) :
    ∃ t, exec i s = .next t ∧ OnlyError c.code.toNat s t :=
  ⟨_, (exec_eq_next_iff i s _).2 (.inr ⟨c, h, rfl⟩), onlyError_code s c⟩

end Sys2Proof.Machine
end

section
/-! ENCB (R121). -/

namespace Sys2Proof.Machine

/-- Either range outside DMEM raises E_RANGE before anything is read. -/
theorem encb_of_outside {p : Params} {s : State}
    (h : dmemBytes p < s.addr.toNat + 16 ∨ dmemBytes p < s.dst.toNat + 16) : encb p s = .error (.error .range) := by
  unfold encb
  rcases h with haddr | hdst
  · simp [(inRange_eq_false_iff _ _ _).2 haddr]
  · cases inRange p s.addr.toNat 16 <;> simp [(inRange_eq_false_iff _ _ _).2 hdst]

/-- Both ranges inside DMEM, an unwritten source byte is the model fault. -/
theorem encb_of_unwritten {p : Params} {s : State} (haddr : s.addr.toNat + 16 ≤ dmemBytes p)
    (hdst : s.dst.toNat + 16 ≤ dmemBytes p) (h : ∃ k, k < 16 ∧ s.mem.read (s.addr.toNat + k) = none) :
    encb p s = .error (.fault .unwrittenRead) := by
  have haddr := (inRange_iff _ _ _).2 haddr
  simp [encb, haddr, (inRange_iff _ _ _).2 hdst, memRead_of_none haddr ((s.mem.readBytes_eq_none_iff _ _).2 h)]

/-- Both ranges inside DMEM, a written source block is encrypted to DST. -/
theorem encb_of_written {p : Params} {s : State} {blk : Block} (haddr : s.addr.toNat + 16 ≤ dmemBytes p)
    (hdst : s.dst.toNat + 16 ≤ dmemBytes p) (hsrc : ∀ k : Fin 16, s.mem.read (s.addr.toNat + k.val) = some blk[k]) :
    encb p s = .ok (s.setMem (s.mem.writeBytes s.dst.toNat (enc p s.activeKey blk).toList)) :=
  (encb_eq_ok_iff p s _).2 ⟨(inRange_iff _ _ _).2 haddr, (inRange_iff _ _ _).2 hdst, blk.toList,
    (s.mem.readBytes_block_iff _ blk).2 hsrc, by rw [blockOfList_toList]⟩

/-- Settles O48: the source is read whole before the block is written, so only DMEM's range at DST changes. -/
theorem encbResult : Obligations.EncbResult := by
  intro s blk haddr hdst hsrc
  have hbody : commandBody .encb s = .ok _ := encb_of_written haddr hdst hsrc
  exact ⟨_, (exec_eq_next_iff .encb s _).2 (.inl ⟨_, hbody, rfl⟩), (commandBody_writes hbody).sameFixed.finish _,
    completed_finish s _ 0 rfl, rfl, rfl, rfl, rfl, rfl, s.mem.read_writeBytes_block _ _,
    fun _ hq => s.mem.read_writeBytes_block_other _ _ hq⟩

/-- Settles O49: the range checks come before the read. -/
theorem encbStops : Obligations.EncbStops := fun s =>
  ⟨fun houtside => exec_onlyError (i := .encb) (encb_of_outside houtside),
    fun haddr hdst hnone => (exec_eq_fault_iff .encb s _).2 (encb_of_unwritten haddr hdst hnone)⟩

end Sys2Proof.Machine
end

/-! Proofs about the keystream: the evolution function, the sampling geometry, KSTEP, and CHAIN on both of its paths. -/

section
/-! SUPPORT. The evolution function on naturals (R131) and the rotation of its bit transform. -/

namespace Sys2Proof.Machine

open Sys2Proof.Claims

/-- A mask of eight ones is a remainder (R131). -/
theorem and_byteMask (x : Nat) : x &&& 0xFF = x % 2 ^ 8 := Nat.and_two_pow_sub_one_eq_mod x 8

/-- The transform's mask is the cut to a byte (R131). -/
theorem evolveBits_eq_ofNat (v : Nat) : evolveBits v = BitVec.ofNat 8 (v / 32 ||| 8 * v) := by
  apply BitVec.eq_of_toNat_eq
  rw [evolveBits, and_byteMask, Nat.shiftRight_eq_div_pow, BitVec.toNat_ofNat, BitVec.toNat_ofNat, Nat.mod_mod]

/-- The bit transform is R7's rotation on naturals, for a value of any size. -/
theorem evolveBits_toNat (v : Nat) : (evolveBits v).toNat = rotlNat 8 v 3 := by
  rw [evolveBits_eq_ofNat, BitVec.toNat_ofNat, rotlNat, Nat.or_comm, Nat.shiftLeft_eq, Nat.mul_comm v,
    Nat.shiftRight_eq_div_pow]

theorem evolveBits_eq_iff (v w : Nat) : evolveBits v = evolveBits w ↔ rotlNat 8 v 3 = rotlNat 8 w 3 := by
  rw [← BitVec.toNat_inj, evolveBits_toNat, evolveBits_toNat]

theorem rotlNat_or (W x y r : Nat) : rotlNat W (x ||| y) r = rotlNat W x r ||| rotlNat W y r := by
  simp only [rotlNat, Nat.shiftLeft_or_distrib, Nat.shiftRight_or_distrib, ← Nat.or_mod_two_pow]
  ac_rfl

/-- A rotation by 3 takes bit 0 of a byte to bit 3. -/
theorem testBit_rotlNat_three {v : Nat} (h : v < 256) : (rotlNat 8 v 3).testBit 3 = v.testBit 0 := by
  have h8 : v.testBit 8 = false := Nat.testBit_lt_two_pow h
  rw [rotlNat, Nat.testBit_mod_two_pow, Nat.testBit_or, Nat.testBit_shiftLeft, Nat.testBit_shiftRight, h8]
  simp

/-- Setting a bit changes nothing exactly where it is set already. -/
theorem or_two_pow_eq_self_iff (x i : Nat) : x ||| 2 ^ i = x ↔ x.testBit i = true := by
  constructor
  · intro h
    rw [← h, Nat.testBit_or, Nat.testBit_two_pow_self, Bool.or_true]
  · intro h
    refine Nat.eq_of_testBit_eq fun j => ?_
    rw [Nat.testBit_or, Nat.testBit_two_pow]
    by_cases hj : i = j
    · rw [← hj, h, Bool.true_or]
    · simp [hj]

/-- A value of 9 bits whose bit 8 is set: its rotation is that of its low byte with 0x08 set (R133). -/
theorem rotlNat_of_testBit_eight {v : Nat} (hv : v < 2 ^ 9) (h8 : v.testBit 8 = true) :
    rotlNat 8 v 3 = (rotlNat 8 (v % 256) 3 ||| 2 ^ 3) := by
  have hge : 2 ^ 8 ≤ v := Nat.ge_two_pow_of_testBit h8
  have hsplit : v = 2 ^ 8 * 1 ||| v % 256 := by
    rw [← Nat.two_pow_add_eq_or_of_lt (Nat.mod_lt v (by decide))]
    omega
  have htop : rotlNat 8 (2 ^ 8 * 1) 3 = 2 ^ 3 := by decide
  rw [hsplit, rotlNat_or, htop, ← hsplit, Nat.or_comm]

/-! ### The value at a position -/

/-- Uncut, R131's value has 9 bits: `31 * p` is at most 465. -/
theorem evolveValue_wide_lt (p : Params) {pos : Nat} (k : Byte) (h : pos < 16) :
    evolveValue { p with evolveWide := true } pos k < 2 ^ 9 := by
  have ht (x : Nat) : x &&& 0xFF < 2 ^ 9 := Nat.lt_of_le_of_lt Nat.and_le_right (by decide)
  exact Nat.xor_lt_two_pow (Nat.xor_lt_two_pow (by omega) (ht _)) (by omega)

/-- Only `31 * p` can reach bit 8, and does so from position 9 on (R133). -/
theorem testBit_evolveValue_wide (p : Params) {pos : Nat} (k : Byte) (h : pos < 16) :
    (evolveValue { p with evolveWide := true } pos k).testBit 8 = true ↔ 9 ≤ pos := by
  have hk : k.toNat.testBit 8 = false := Nat.testBit_lt_two_pow k.isLt
  have hpos : ∀ q < 16, (31 * q).testBit 8 = true ↔ 9 ≤ q := by decide
  simp only [evolveValue, if_true, Nat.testBit_xor, Nat.testBit_and, hk, show Nat.testBit 0xFF 8 = false by decide,
    Bool.and_false, Bool.false_xor]
  exact hpos pos h

/-- EVOLVE_WIDE = false cuts the same value to a byte (R131). -/
theorem evolveValue_narrow (p : Params) (pos : Nat) (k : Byte) :
    evolveValue { p with evolveWide := false } pos k = evolveValue { p with evolveWide := true } pos k % 256 :=
  and_byteMask _

end Sys2Proof.Machine
end

section
/-! The evolution function (R131, R133). -/

namespace Sys2Proof.Machine

open Sys2Proof.Claims

/-- Settles O50: the masks are remainders and the shifts quotients. -/
theorem evolveByteFormula : Obligations.EvolveByteFormula := by
  intro p ks pos phase t v v'
  have hphase : phaseBits p.evolvePhase = phase := by unfold phaseBits; rfl
  have hvalue : evolveValue p pos.val ks[pos] = v' := by
    simp only [evolveValue, hphase, and_byteMask, Nat.shiftRight_eq_div_pow]
    rfl
  have hbyte : (evolve p ks)[pos] = p.sbox (evolveBits (evolveValue p pos.val ks[pos])) := by
    simp [evolve]
  rw [hbyte, hvalue, evolveBits_eq_ofNat]

/-- Settles O51: bit 8 of the value is bit 3 of its rotation, and where it is clear the two settings have one value. -/
theorem evolveBitTransform : Obligations.EvolveBitTransform := by
  intro p pos k hpos wide narrow
  have hlt : wide < 2 ^ 9 := evolveValue_wide_lt p k hpos
  have hbit : wide.testBit 8 = true ↔ 9 ≤ pos := testBit_evolveValue_wide p k hpos
  have hnarrow : narrow = wide % 256 := evolveValue_narrow p pos k
  have hhigh (h : 9 ≤ pos) := rotlNat_of_testBit_eight hlt (hbit.2 h)
  refine ⟨fun v _ => evolveBits_toNat v, hbit, fun h => (evolveBits_toNat wide).trans (hhigh h),
    evolveBits_toNat narrow, fun h => ?_, fun h => ?_⟩
  · have hbyte : wide < 256 := by
      have := mt hbit.1 (by omega)
      rw [Nat.testBit_eq_decide_div_mod_eq, decide_eq_true_iff] at this
      omega
    rw [hnarrow, Nat.mod_eq_of_lt hbyte]
  · rw [hnarrow, Ne, evolveBits_eq_iff, hhigh h, or_two_pow_eq_self_iff, testBit_rotlNat_three (Nat.mod_lt _ (by decide)),
      Bool.not_eq_true]

end Sys2Proof.Machine
end

section
/-! SUPPORT. The slots of the sample (R136). -/

namespace Sys2Proof.Machine

/-- Slot `i*step + j` is one of the `nc * step` slots (R136). -/
theorem sampleSlot_lt {L i j : Nat} (hi : i < sampleCount L) (hj : j < sampleStep L) :
    i * sampleStep L + j < (samplePositions L).length := by
  calc i * sampleStep L + j < (i + 1) * sampleStep L := by rw [Nat.succ_mul]; omega
    _ ≤ sampleCount L * sampleStep L := Nat.mul_le_mul_right _ hi
    _ = (samplePositions L).length := (samplePositions_length L).symm

theorem samplePositions_slot {L i j : Nat} (hi : i < sampleCount L) (hj : j < sampleStep L) :
    (samplePositions L)[i * sampleStep L + j]? = some (16 * i + j) :=
  List.getElem?_eq_some_iff.2 ⟨sampleSlot_lt hi hj, samplePositions_getElem L i j hi hj _⟩

end Sys2Proof.Machine
end

section
/-! The sampling geometry (R136). -/

namespace Sys2Proof.Machine

/-- Settles O60: the four quantities are the model's, and the list has its `nc * step` slots in order. -/
theorem sampleGeometry : Obligations.SampleGeometry := by
  rintro L _ _ _ hL rfl rfl rfl
  exact ⟨by omega, (sampleStep_le L hL).2, samplePositions_length L, sampleCount_mul_step_le L hL,
    samplePositions_nodup L hL, fun i j hi hj => samplePositions_slot hi hj, fun q hq => lt_of_mem_samplePositions hL hq,
    sampleCount_blocks_le L⟩

end Sys2Proof.Machine
end

section
/-! SUPPORT. KSTEP by its chunk: the state it leaves, and the ways it stops. -/

namespace Sys2Proof.Machine

/-- The length of the chunk KSTEP works on, min(16, LEN) (R138). -/
def chunkLength (s : State) : Nat := min 16 s.len.toNat

/-- The state KSTEP leaves on the bytes of its chunk, before its completion (R138). -/
def kstepped (p : Params) (s : State) (chunk : List Byte) : State :=
  (((s.setMem (s.mem.writeBytes s.addr.toNat (xorKeystream chunk (enc p s.activeKey s.prevBytes)))).setPrev
    (evolve p (enc p s.activeKey s.prevBytes))).advance (chunkLength s)).consumeLen (chunkLength s)

section
variable {p : Params} {s : State}

theorem kstep_of_written {chunk : List Byte} (hlen : s.len.toNat ≠ 0)
    (hr : s.addr.toNat + chunkLength s ≤ dmemBytes p)
    (hc : s.mem.readBytes s.addr.toNat (chunkLength s) = some chunk) : kstep p s = .ok (kstepped p s chunk) :=
  (kstep_eq_ok_iff p s _).2 ⟨hlen, (inRange_iff _ _ _).2 hr, chunk, hc, rfl⟩

theorem kstep_of_empty (h : s.len.toNat = 0) : kstep p s = .error (.error .len) := by
  simp [kstep, h]

theorem kstep_of_outside (hlen : s.len.toNat ≠ 0) (h : dmemBytes p < s.addr.toNat + chunkLength s) :
    kstep p s = .error (.error .range) := by
  have hr : inRange p s.addr.toNat (min 16 s.len.toNat) = false := (inRange_eq_false_iff _ _ _).2 h
  rw [kstep, bne_iff_ne.2 hlen]
  simp [hr]

theorem kstep_of_unwritten (hlen : s.len.toNat ≠ 0) (hr : s.addr.toNat + chunkLength s ≤ dmemBytes p)
    (h : ∃ k, k < chunkLength s ∧ s.mem.read (s.addr.toNat + k) = none) :
    kstep p s = .error (.fault .unwrittenRead) := by
  have hr : inRange p s.addr.toNat (min 16 s.len.toNat) = true := (inRange_iff _ _ _).2 hr
  rw [kstep, bne_iff_ne.2 hlen]
  simp [hr, memRead_of_none hr ((s.mem.readBytes_eq_none_iff _ _).2 h)]

/-- ADDR cannot wrap past a chunk inside DMEM (R38). -/
theorem kstepped_addr_toNat (chunk : List Byte) (hr : s.addr.toNat + chunkLength s ≤ dmemBytes p) :
    (kstepped p s chunk).addr.toNat = s.addr.toNat + chunkLength s := by
  have hdmem := (dmemBytes_bounds p).2.1
  show (s.addr + BitVec.ofNat 32 (chunkLength s)).toNat = _
  rw [BitVec.toNat_add, BitVec.toNat_ofNat]
  omega

/-- LEN is at least the chunk's length (R39). -/
theorem kstepped_len_toNat (p : Params) (s : State) (chunk : List Byte) :
    (kstepped p s chunk).len.toNat = s.len.toNat - chunkLength s := by
  have hlt := s.len.isLt
  show (s.len - BitVec.ofNat 32 (chunkLength s)).toNat = _
  rw [BitVec.toNat_sub, BitVec.toNat_ofNat]
  unfold chunkLength
  omega

theorem kstepped_prevBytes (p : Params) (s : State) (chunk : List Byte) :
    (kstepped p s chunk).prevBytes = evolve p (enc p s.activeKey s.prevBytes) :=
  groupBytes_groupOfBytes _

end

/-- A chunk is at most a block, so its XOR with the keystream block keeps its length (R138). -/
theorem xorKeystream_length_of_le {chunk : List Byte} (ks : Block) (h : chunk.length ≤ 16) :
    (xorKeystream chunk ks).length = chunk.length := by
  rw [xorKeystream_length, Nat.min_eq_left h]

end Sys2Proof.Machine
end

section
/-! KSTEP (R138). -/

namespace Sys2Proof.Machine

/-- Settles O52: the chunk is read whole before it is written, and neither cursor wraps. -/
theorem kstepResult : Obligations.KstepResult := by
  intro s chunk hlen hchunk hr hread
  have hm : chunkLength s = chunk.length := hchunk.symm
  have h16 : chunk.length ≤ 16 := hchunk ▸ Nat.min_le_left _ _
  have hxor := xorKeystream_length_of_le (enc Config.params s.activeKey s.prevBytes) h16
  have hrange : s.addr.toNat + chunkLength s ≤ dmemBytes Config.params := hm.symm ▸ hr
  have hbody : commandBody .kstep s = .ok (kstepped Config.params s chunk) :=
    kstep_of_written hlen hrange ((s.mem.readBytes_eq_some_iff _ _ _).2 ⟨hm.symm, hread⟩)
  refine ⟨_, (exec_eq_next_iff .kstep s _).2 (.inl ⟨_, hbody, rfl⟩), (commandBody_writes hbody).sameFixed.finish _,
    completed_finish s _ 0 rfl, rfl, rfl, hm ▸ kstepped_addr_toNat chunk hrange,
    hm ▸ kstepped_len_toNat _ s chunk, kstepped_prevBytes _ s chunk, fun k hk => ?_, fun q hq => ?_⟩
  · have hbyte := s.mem.read_writeBytes_at s.addr.toNat _ k (hxor.symm ▸ hk)
    rw [xorKeystream_getElem] at hbyte
    rw [List.getD_eq_getElem _ _ (by simp; omega), Vector.getElem_toList]
    exact hbyte
  · exact s.mem.read_writeBytes_other s.addr.toNat _ q (hxor.symm ▸ hq)

/-- Settles O53: the length, the range and the read are checked in this order. -/
theorem kstepStops : Obligations.KstepStops := by
  intro s
  have hzero : s.len ≠ 0 → s.len.toNat ≠ 0 := mt fun h => BitVec.eq_of_toNat_eq h
  exact ⟨fun h => exec_onlyError (i := .kstep) (kstep_of_empty (congrArg BitVec.toNat h)),
    fun hlen hout => exec_onlyError (i := .kstep) (kstep_of_outside (hzero hlen) hout),
    fun hlen hr hnone => (exec_eq_fault_iff .kstep s _).2 (kstep_of_unwritten (hzero hlen) hr hnone)⟩

end Sys2Proof.Machine
end

section
/-! SUPPORT. Both paths of CHAIN as one: the bytes at a list of offsets are XORed with the keystream (R140). -/

namespace Sys2Proof.Machine

open Sys2Proof.Claims

/-! ### Bytes XORed with the keystream -/

/-- Byte `q` of a byte string XORed with `KS[q]` (R140). -/
def xorStream (p : Params) (key : List Byte) (seed : Block) (bytes : List Byte) : List Byte :=
  bytes.mapIdx fun q b => b ^^^ keystream p key seed q

section
variable (p : Params) (key : List Byte) (seed : Block)

@[simp] theorem xorStream_length (bytes : List Byte) : (xorStream p key seed bytes).length = bytes.length :=
  List.length_mapIdx

theorem xorStream_getElem (bytes : List Byte) (k : Nat) (hk : k < (xorStream p key seed bytes).length) :
    (xorStream p key seed bytes)[k] = (bytes[k]'(by simpa using hk)) ^^^ keystream p key seed k :=
  List.getElem_mapIdx

/-- XOR with the same keystream twice restores the bytes (R135). -/
theorem xorStream_xorStream (bytes : List Byte) :
    xorStream p key seed (xorStream p key seed bytes) = bytes := by
  refine List.ext_getElem (by simp) fun k hk _ => ?_
  rw [xorStream_getElem, xorStream_getElem, BitVec.xor_assoc, BitVec.xor_self, BitVec.xor_zero]

/-- Bytes put after others change nothing before them (R140). -/
theorem exists_xorStream_append (bytes more : List Byte) :
    ∃ rest, xorStream p key seed (bytes ++ more) = xorStream p key seed bytes ++ rest :=
  ⟨_, List.mapIdx_append⟩

/-- The chain value from a seed is the chain value from the seed's successor, one block later (R140). -/
theorem chainValue_succ (k : Nat) :
    chainValue p key seed (k + 1) = chainValue p key (evolve p (enc p key seed)) k := by
  induction k with
  | zero => rfl
  | succ k ih => rw [chainValue, ih, chainValue]

theorem keystream_of_lt {k : Nat} (hk : k < 16) : keystream p key seed k = (enc p key seed)[k] := by
  simp [keystream, Nat.div_eq_of_lt hk, Nat.mod_eq_of_lt hk, chainValue]

theorem keystream_add_block (k : Nat) :
    keystream p key seed (k + 16) = keystream p key (evolve p (enc p key seed)) k := by
  simp [keystream, chainValue_succ]

/-- The chain's PREV after `n` chunks (R134, R140). -/
theorem chainChunks_snd (n : Nat) (buf : List Byte) :
    (chainChunks p key n buf seed).2 = chainValue p key seed n := by
  induction n generalizing buf seed with
  | zero => rfl
  | succ n ih => rw [chainValue_succ]; exact ih _ _

/-- The chain's bytes over chunks that cover the buffer (R134, R140). -/
theorem chainChunks_fst (n : Nat) (buf : List Byte) (h : buf.length ≤ 16 * n) :
    (chainChunks p key n buf seed).1 = xorStream p key seed buf := by
  induction n generalizing buf seed with
  | zero => rw [List.length_eq_zero_iff.1 (by omega : buf.length = 0)]; rfl
  | succ n ih =>
    have hrest := ih (evolve p (enc p key seed)) (buf.drop 16) (by rw [List.length_drop]; omega)
    simp only [chainChunks, hrest]
    refine List.ext_getElem (by simp; omega) fun k hk hk' => ?_
    rw [List.getElem_append, xorStream_getElem]
    simp only [xorKeystream_length, List.length_take, xorStream_length] at hk hk' ⊢
    split
    case isTrue hfirst =>
      rw [xorKeystream_getElem, List.getElem_take, keystream_of_lt p key seed (by omega)]
    case isFalse hlater =>
      obtain ⟨j, rfl⟩ : ∃ j, k = j + 16 := ⟨k - 16, by omega⟩
      simp only [show min (min 16 buf.length) 16 = 16 by omega, Nat.add_sub_cancel]
      rw [xorStream_getElem, List.getElem_drop, keystream_add_block]
      simp only [Nat.add_comm 16]

/-- ChainSmall is XOR with the keystream, and leaves the chain value after its chunks (R134, R140). -/
theorem chainSmall_eq (buf : List Byte) :
    chainSmall p key buf seed = (xorStream p key seed buf, chainValue p key seed ((buf.length + 15) / 16)) :=
  Prod.ext (chainChunks_fst p key seed _ buf (by omega)) (chainChunks_snd p key seed _ buf)

end

/-! ### DMEM: bytes scattered and gathered at the same offsets -/

/-- Bytes past the last offset are not written. -/
theorem Memory.scatter_append (m : Memory) {offsets : List Nat} {bytes : List Byte} (more : List Byte)
    (h : offsets.length = bytes.length) : m.scatter offsets (bytes ++ more) = m.scatter offsets bytes := by
  induction offsets generalizing m bytes with
  | nil => rfl
  | cons o rest ih =>
    cases bytes with
    | nil => simp at h
    | cons b bs => exact ih (m.write o b) (by simpa using h)

/-- Bytes scattered at distinct offsets are gathered there again. -/
theorem Memory.gather_scatter (m : Memory) {offsets : List Nat} {bytes : List Byte} (hd : offsets.Nodup)
    (h : bytes.length = offsets.length) : (m.scatter offsets bytes).gather offsets = some bytes :=
  Memory.gather_of_getElem h fun k hk => m.read_scatter_at offsets bytes k hd hk (h ▸ hk)

/-- The bytes gathered before a scatter at the same offsets, scattered after it, restore DMEM. -/
theorem Memory.read_scatter_scatter_gathered {m : Memory} {offsets : List Nat} {bytes other : List Byte}
    (hd : offsets.Nodup) (h : m.gather offsets = some bytes) (q : Nat) :
    ((m.scatter offsets other).scatter offsets bytes).read q = m.read q := by
  by_cases hq : q ∈ offsets
  · obtain ⟨k, hk, rfl⟩ := List.mem_iff_getElem.1 hq
    have hb : k < bytes.length := (Memory.gather_length h).symm ▸ hk
    rw [Memory.read_scatter_at _ _ _ k hd hk hb, Memory.gather_getElem h k hk hb]
  · rw [Memory.read_scatter_other _ _ _ q hq, Memory.read_scatter_other _ _ _ q hq]

/-! ### The command -/

/-- The DMEM offsets of the bytes CHAIN reads and writes, in keystream order (R137, R139). -/
def chainOffsets (s : State) : List Nat :=
  if s.len.toNat ≤ smallLimit then List.range' s.addr.toNat s.len.toNat
  else (samplePositions s.len.toNat).map (s.addr.toNat + ·)

/-- The number of keystream blocks CHAIN computes on a buffer of a length (R134, R137). -/
def chainBlocks (L : Nat) : Nat := if L ≤ smallLimit then (L + 15) / 16 else 16

/-- The state CHAIN leaves on the bytes at its offsets, before its completion (R139, R140). -/
def chained (p : Params) (s : State) (bytes : List Byte) : State :=
  (s.setMem (s.mem.scatter (chainOffsets s) (xorStream p s.activeKey s.ivBytes bytes))).setPrev
    (chainValue p s.activeKey s.ivBytes (chainBlocks s.len.toNat))

theorem chainOffsets_of_small {s : State} (h : s.len.toNat ≤ 256) :
    chainOffsets s = List.range' s.addr.toNat s.len.toNat := if_pos h

theorem chainOffsets_of_large {s : State} (h : 256 < s.len.toNat) :
    chainOffsets s = (samplePositions s.len.toNat).map (s.addr.toNat + ·) := if_neg (Nat.not_le.2 h)

theorem chainOffsets_nodup (s : State) : (chainOffsets s).Nodup := by
  rcases Nat.lt_or_ge 256 s.len.toNat with hlarge | hsmall
  · rw [chainOffsets_of_large hlarge]
    exact (samplePositions_nodup _ hlarge).map fun _ _ => Nat.add_left_cancel
  · rw [chainOffsets_of_small hsmall]
    exact List.nodup_range'

/-- An offset of a large buffer is that of a sampled position (R136). -/
theorem mem_chainOffsets_of_large {s : State} (h : 256 < s.len.toNat) (o : Nat) :
    o ∈ chainOffsets s ↔ ∃ i j, i < sampleCount s.len.toNat ∧ j < sampleStep s.len.toNat ∧
      o = s.addr.toNat + (16 * i + j) := by
  rw [chainOffsets_of_large h, List.mem_map]
  constructor
  · rintro ⟨q, hq, rfl⟩
    obtain ⟨i, hi, j, hj, rfl⟩ := (mem_samplePositions_iff _ q).1 hq
    exact ⟨i, j, hi, hj, rfl⟩
  · rintro ⟨i, j, hi, hj, rfl⟩
    exact ⟨_, (mem_samplePositions_iff _ _).2 ⟨i, hi, j, hj, rfl⟩, rfl⟩

/-- Slot `i*step + j` of a large buffer (R136). -/
theorem chainOffsets_slot {s : State} (h : 256 < s.len.toNat) {i j : Nat} (hi : i < sampleCount s.len.toNat)
    (hj : j < sampleStep s.len.toNat) :
    (chainOffsets s)[i * sampleStep s.len.toNat + j]? = some (s.addr.toNat + (16 * i + j)) := by
  rw [chainOffsets_of_large h, List.getElem?_map, samplePositions_slot hi hj, Option.map_some]

/-- On a small buffer CHAIN gathers what MemRead of the buffer returns (R139). -/
theorem gather_chainOffsets_of_small {s : State} (h : s.len.toNat ≤ 256) :
    s.mem.gather (chainOffsets s) = s.mem.readBytes s.addr.toNat s.len.toNat :=
  congrArg s.mem.gather (chainOffsets_of_small h)

/-- The small path on a buffer in range (R134, R140). -/
theorem chainWhole_eq {p : Params} {s : State} (hr : inRange p s.addr.toNat s.len.toNat = true)
    (hsmall : s.len.toNat ≤ 256) :
    chainWhole p s = (written (s.mem.gather (chainOffsets s))).map (chained p s) := by
  rw [gather_chainOffsets_of_small hsmall]
  cases hread : s.mem.readBytes s.addr.toNat s.len.toNat with
  | none => rw [chainWhole, memRead_of_none hr hread]; rfl
  | some buf =>
    have hlen : buf.length = s.len.toNat := Memory.readBytes_length hread
    have hblocks : chainBlocks s.len.toNat = (s.len.toNat + 15) / 16 := if_pos hsmall
    refine (chainWhole_eq_ok_iff p s _ hr).2 ⟨buf, hread, ?_⟩
    rw [chained, chainSmall_eq, Memory.writeBytes, xorStream_length, hlen, chainOffsets_of_small hsmall, hblocks]

/-- The unfilled slots bring the sample to 256 bytes (R137, D24). -/
theorem sampleBuffer_length {gathered : List Byte} (h : gathered.length ≤ 256) :
    (sampleBuffer gathered).length = 256 := by
  rw [sampleBuffer, List.length_append, List.length_replicate, sampleBytes, Nat.add_sub_cancel' h]

/-- The large path: the bytes in the unfilled slots are not written back (R137, R140). -/
theorem chainSampled_eq {p : Params} {s : State} (hlarge : 256 < s.len.toNat) :
    chainSampled p s = (written (s.mem.gather (chainOffsets s))).map (chained p s) := by
  have hoff := chainOffsets_of_large hlarge
  cases hg : s.mem.gather (chainOffsets s) with
  | none => rw [chainSampled, ← hoff, hg]; rfl
  | some gathered =>
    have hlen : gathered.length = (chainOffsets s).length := Memory.gather_length hg
    have h256 : gathered.length ≤ 256 := by
      rw [hlen, hoff, List.length_map, samplePositions_length]
      exact sampleCount_mul_step_le _ hlarge
    have hblocks : chainBlocks s.len.toNat = 16 := if_neg (Nat.not_le.2 hlarge)
    obtain ⟨rest, hrest⟩ := exists_xorStream_append p s.activeKey s.ivBytes gathered
      (List.replicate (sampleBytes - gathered.length) 0x00#8)
    refine (chainSampled_eq_ok_iff p s _).2 ⟨gathered, hoff ▸ hg, ?_⟩
    rw [chained, chainSmall_eq, sampleBuffer_length h256, hblocks, ← hoff, sampleBuffer, hrest,
      Memory.scatter_append _ _ (by rw [xorStream_length, hlen])]

/-- Both paths of CHAIN, on a buffer in range, are one gather, one XOR with the keystream and one scatter (R139, R140). -/
theorem chain_of_inRange {p : Params} {s : State} (hr : s.addr.toNat + s.len.toNat ≤ dmemBytes p) :
    chain p s = (written (s.mem.gather (chainOffsets s))).map (chained p s) := by
  have hr : inRange p s.addr.toNat s.len.toNat = true := (inRange_iff _ _ _).2 hr
  rw [chain, hr, require_true, ok_bind]
  split
  case isTrue hsmall => exact chainWhole_eq hr hsmall
  case isFalse hlarge => exact chainSampled_eq (Nat.not_le.1 hlarge)

section
variable {s : State} {bytes : List Byte}

/-- CHAIN completes on written bytes in range. -/
theorem exec_chain_of_written (hr : s.addr.toNat + s.len.toNat ≤ dmemBytes Config.params)
    (hg : s.mem.gather (chainOffsets s) = some bytes) :
    exec .chain s = .next ((chained Config.params s bytes).finish 0#4) :=
  (exec_eq_next_iff .chain s _).2 (.inl ⟨_, (chain_of_inRange hr).trans (by rw [hg]; rfl), rfl⟩)

/-- CHAIN stops on an unwritten byte at one of its offsets. -/
theorem exec_chain_of_unwritten (hr : s.addr.toNat + s.len.toNat ≤ dmemBytes Config.params) {o : Nat}
    (ho : o ∈ chainOffsets s) (hn : s.mem.read o = none) : exec .chain s = .fault .unwrittenRead :=
  (exec_eq_fault_iff .chain s _).2
    ((chain_of_inRange hr).trans (by rw [(s.mem.gather_eq_none_iff _).2 ⟨o, ho, hn⟩]; rfl))

/-- A CHAIN that succeeds had its buffer in range and its bytes written. -/
theorem exec_chain_success {t : State} (h : exec .chain s = .next t) (he : t.status.err = 0#4) :
    s.addr.toNat + s.len.toNat ≤ dmemBytes Config.params ∧
      ∃ bytes, s.mem.gather (chainOffsets s) = some bytes ∧ t = (chained Config.params s bytes).finish 0#4 := by
  obtain ⟨s', hbody, rfl⟩ := exec_eq_next_ok .chain s t h he
  have hr := (inRange_iff _ _ _).1 ((chain_eq_ok_iff Config.params s s').1 hbody).1
  refine ⟨hr, ?_⟩
  have hbody : chain Config.params s = .ok s' := hbody
  rw [chain_of_inRange hr] at hbody
  cases hg : s.mem.gather (chainOffsets s) with
  | none => rw [hg] at hbody; cases hbody
  | some bytes => rw [hg] at hbody; cases hbody; exact ⟨bytes, rfl, rfl⟩

theorem chained_prevBytes (p : Params) (s : State) (bytes : List Byte) :
    (chained p s bytes).prevBytes = chainValue p s.activeKey s.ivBytes (chainBlocks s.len.toNat) :=
  groupBytes_groupOfBytes _

/-- CHAIN writes DMEM and PREV only (R139). -/
theorem chained_sameFixed (p : Params) (s : State) (bytes : List Byte) : SameFixed s (chained p s bytes) :=
  ⟨rfl, rfl, rfl, rfl, rfl, rfl, rfl, rfl, rfl⟩

/-- The byte at CHAIN's `k`-th offset is XORed with `KS[k]` (R140). -/
theorem chained_read_at (p : Params) (hg : s.mem.gather (chainOffsets s) = some bytes) {k o : Nat}
    (ho : (chainOffsets s)[k]? = some o) {b : Byte} (hb : s.mem.read o = some b) :
    (chained p s bytes).mem.read o = some (b ^^^ keystream p s.activeKey s.ivBytes k) := by
  obtain ⟨hk, rfl⟩ := List.getElem?_eq_some_iff.1 ho
  have hkb : k < bytes.length := (Memory.gather_length hg).symm ▸ hk
  have hbyte : b = bytes[k] := Option.some.inj (hb.symm.trans (Memory.gather_getElem hg k hk hkb))
  rw [hbyte, ← xorStream_getElem p _ _ bytes k (by simpa using hkb)]
  exact Memory.read_scatter_at _ _ s.mem k (chainOffsets_nodup s) hk _

/-- No byte but those at CHAIN's offsets changes (R141). -/
theorem chained_read_other (p : Params) (bytes : List Byte) {q : Nat} (hq : q ∉ chainOffsets s) :
    (chained p s bytes).mem.read q = s.mem.read q :=
  Memory.read_scatter_other _ _ s.mem q hq

/-- Where every byte at CHAIN's offsets is written, they can be gathered. -/
theorem exists_gather_of_written (h : ∀ o ∈ chainOffsets s, ∃ b, s.mem.read o = some b) :
    ∃ bytes, s.mem.gather (chainOffsets s) = some bytes := by
  refine Option.ne_none_iff_exists'.1 fun hnone => ?_
  obtain ⟨o, ho, hn⟩ := (s.mem.gather_eq_none_iff _).1 hnone
  obtain ⟨b, hb⟩ := h o ho
  exact Option.some_ne_none b (hb.symm.trans hn)

end

/-- The active key is fixed by KEY and KSZ (R41). -/
theorem activeKey_congr {s s' : State} (hkey : s.key = s'.key) (hksz : s.ctrl.ksz = s'.ctrl.ksz) :
    s.activeKey = s'.activeKey := by
  have hbyte : s.keyByte = s'.keyByte := funext fun n => by simp only [State.keyByte, hkey]
  rw [State.activeKey, State.activeKey, hbyte, hksz]

end Sys2Proof.Machine
end

section
/-! CHAIN (R139). -/

namespace Sys2Proof.Machine

open Sys2Proof.Claims

/-- Settles O54: the offsets of a small buffer are its bytes in order. -/
theorem chainSmallResult : Obligations.ChainSmallResult := by
  intro s buf hlen hsmall hr hread
  have hoff := chainOffsets_of_small hsmall
  have hg : s.mem.gather (chainOffsets s) = some buf :=
    (gather_chainOffsets_of_small hsmall).trans ((s.mem.readBytes_eq_some_iff _ _ _).2 ⟨hlen, hread⟩)
  have hblocks : chainBlocks s.len.toNat = (buf.length + 15) / 16 := by rw [hlen]; exact if_pos hsmall
  refine ⟨_, exec_chain_of_written (hlen ▸ hr) hg, (chained_sameFixed _ s _).finish _,
    completed_finish s _ 0 rfl, rfl, rfl, rfl, rfl, hblocks ▸ chained_prevBytes _ s buf,
    fun k hk => chained_read_at _ hg ?_ (hread k hk), fun q hq => chained_read_other _ buf ?_⟩
  · rw [hoff, List.getElem?_range' (hlen ▸ hk), Nat.one_mul]
  · rw [hoff, List.mem_range'_1]
    omega

/-- Settles O55: the offsets of a large buffer are those of its sampled positions, slot by slot. -/
theorem chainLargeResult : Obligations.ChainLargeResult := by
  rintro s _ _ _ hlarge rfl rfl rfl hr hread
  obtain ⟨bytes, hg⟩ : ∃ bytes, s.mem.gather (chainOffsets s) = some bytes := by
    refine exists_gather_of_written fun o ho => ?_
    obtain ⟨i, j, hi, hj, rfl⟩ := (mem_chainOffsets_of_large hlarge o).1 ho
    exact hread i j hi hj
  have hblocks : chainBlocks s.len.toNat = 16 := if_neg (Nat.not_le.2 hlarge)
  refine ⟨_, exec_chain_of_written hr hg, (chained_sameFixed _ s _).finish _,
    completed_finish s _ 0 rfl, rfl, rfl, rfl, rfl, hblocks ▸ chained_prevBytes _ s bytes,
    fun i j b hi hj hb => chained_read_at _ hg (chainOffsets_slot hlarge hi hj) hb,
    fun q hq => chained_read_other _ bytes fun ho => ?_⟩
  obtain ⟨i, j, hi, hj, hij⟩ := (mem_chainOffsets_of_large hlarge q).1 ho
  exact hq i j hi hj hij

/-- Settles O56: the range is checked before the path is chosen, and each path reads the bytes at its offsets. -/
theorem chainStops : Obligations.ChainStops := by
  intro s
  refine ⟨fun hout => exec_onlyError (i := .chain) (c := .range) ?_, fun hr hsmall ⟨k, hk, hn⟩ => ?_,
    fun hr hlarge ⟨i, j, hi, hj, hn⟩ => ?_⟩
  · show chain Config.params s = _
    rw [chain, (inRange_eq_false_iff _ _ _).2 hout]
    rfl
  · refine exec_chain_of_unwritten hr (o := s.addr.toNat + k) ?_ hn
    rw [chainOffsets_of_small hsmall, List.mem_range'_1]
    omega
  · exact exec_chain_of_unwritten hr ((mem_chainOffsets_of_large hlarge _).2 ⟨i, j, hi, hj, rfl⟩) hn

/-- Settles O57: the second CHAIN reads the XORed bytes at the same offsets, and XORs them with the same keystream. -/
theorem chainTwiceRestoresMemory : Obligations.ChainTwiceRestoresMemory := by
  intro s t h he
  obtain ⟨hr, bytes, hg, rfl⟩ := exec_chain_success h he
  have hd := chainOffsets_nodup s
  have hlen : (xorStream Config.params s.activeKey s.ivBytes bytes).length = (chainOffsets s).length := by
    rw [xorStream_length, Memory.gather_length hg]
  refine ⟨_, exec_chain_of_written hr (s.mem.gather_scatter hd hlen), rfl, fun q => ?_, rfl⟩
  calc _ = ((s.mem.scatter (chainOffsets s) (xorStream Config.params s.activeKey s.ivBytes bytes)).scatter (chainOffsets s)
        (xorStream Config.params s.activeKey s.ivBytes (xorStream Config.params s.activeKey s.ivBytes bytes))).read q := rfl
    _ = s.mem.read q := by rw [xorStream_xorStream]; exact Memory.read_scatter_scatter_gathered hd hg q

/-- Settles O59: PREV is the chain value of the key and the IV after as many blocks as LEN asks for. -/
theorem chainValueIndependentOfData : Obligations.ChainValueIndependentOfData := by
  intro s s' t t' hlen hkey hiv hksz h h' he he'
  obtain ⟨-, bytes, -, rfl⟩ := exec_chain_success h he
  obtain ⟨-, bytes', -, rfl⟩ := exec_chain_success h' he'
  have hiv : s.ivBytes = s'.ivBytes := congrArg groupBytes hiv
  rw [State.prevBytes_finish, State.prevBytes_finish, chained_prevBytes, chained_prevBytes, activeKey_congr hkey hksz, hiv,
    hlen]

end Sys2Proof.Machine
end

section
/-! SUPPORT. KSTEPs one after the other compute ChainSmall (R138). -/

namespace Sys2Proof.Machine

open Sys2Proof.Claims

/-- Bytes written in two parts, the second after the first (R53). -/
theorem Memory.writeBytes_append (m : Memory) (a : Nat) (bytes more : List Byte) :
    m.writeBytes a (bytes ++ more) = (m.writeBytes a bytes).writeBytes (a + bytes.length) more := by
  induction bytes generalizing m a with
  | nil => rfl
  | cons b rest ih =>
    have hcons (l : List Byte) : m.writeBytes a (b :: l) = (m.write a b).writeBytes (a + 1) l := by
      rw [Memory.writeBytes, List.length_cons, List.range'_succ, Memory.scatter, Memory.writeBytes]
    rw [List.cons_append, hcons, ih, hcons, List.length_cons, Nat.add_assoc, Nat.add_comm 1]

/-- A write in front of a range leaves what is read from the rest of it (R52, R53). -/
theorem Memory.readBytes_drop_writeBytes {m : Memory} {a n : Nat} {buf bytes : List Byte}
    (h : m.readBytes a n = some buf) (hk : bytes.length ≤ n) :
    (m.writeBytes a bytes).readBytes (a + bytes.length) (n - bytes.length) = some (buf.drop bytes.length) := by
  obtain ⟨hlen, hread⟩ := (m.readBytes_eq_some_iff a n buf).1 h
  refine (Memory.readBytes_eq_some_iff _ _ _ _).2 ⟨by rw [List.length_drop, hlen], fun k hk => ?_⟩
  rw [List.length_drop] at hk
  rw [Memory.read_writeBytes_other _ _ _ _ (by omega), Nat.add_assoc, hread _ (by omega), List.getElem_drop]

theorem Memory.readBytes_take {m : Memory} {a n : Nat} {buf : List Byte} (h : m.readBytes a n = some buf) (k : Nat) :
    m.readBytes a (min k n) = some (buf.take k) := by
  obtain ⟨hlen, hread⟩ := (m.readBytes_eq_some_iff a n buf).1 h
  refine (Memory.readBytes_eq_some_iff _ _ _ _).2 ⟨by rw [List.length_take, hlen], fun j hj => ?_⟩
  rw [hread j (by rw [List.length_take] at hj; omega), List.getElem_take]

/-- KSTEP leaves the rest of the buffer, which its cursors now name, as it was (R38, R39, R138). -/
theorem kstepped_readBytes_rest {p : Params} {s : State} {buf : List Byte}
    (hr : s.addr.toNat + chunkLength s ≤ dmemBytes p) (hread : s.mem.readBytes s.addr.toNat s.len.toNat = some buf)
    (hxor : (xorKeystream (buf.take 16) (enc p s.activeKey s.prevBytes)).length = chunkLength s) :
    (kstepped p s (buf.take 16)).mem.readBytes (kstepped p s (buf.take 16)).addr.toNat
      (kstepped p s (buf.take 16)).len.toNat = some (buf.drop 16) := by
  have hdrop : buf.drop (chunkLength s) = buf.drop 16 := by
    rw [List.drop_eq_drop_iff, Memory.readBytes_length hread, chunkLength]
    omega
  have hrest := Memory.readBytes_drop_writeBytes hread (hxor.trans_le (Nat.min_le_right _ _))
  rw [hxor, hdrop] at hrest
  rw [kstepped_addr_toNat _ hr, kstepped_len_toNat]
  exact hrest

/-- A KSTEP on a written chunk in range, with more KSTEPs after it. -/
theorem ksteps_succ_of_written {s : State} {chunk : List Byte} (n : Nat) (hlen : s.len.toNat ≠ 0)
    (hr : s.addr.toNat + chunkLength s ≤ dmemBytes Config.params)
    (hc : s.mem.readBytes s.addr.toNat (chunkLength s) = some chunk) :
    ksteps (n + 1) s = ksteps n ((kstepped Config.params s chunk).finish 0#4) := by
  have hbody : commandBody .kstep s = .ok (kstepped Config.params s chunk) := kstep_of_written hlen hr hc
  have hexec := (exec_eq_next_iff .kstep s _).2 (.inl ⟨_, hbody, rfl⟩)
  simp [ksteps, hexec]

/-- As many KSTEPs as the buffer has chunks leave LEN = 0, ADDR past the buffer, and the DMEM and PREV of ChainSmall from
PREV on: one KSTEP is one chunk of it, and the rest is ChainSmall of the rest of the buffer. -/
theorem ksteps_eq_chainChunks {n : Nat} {s : State} {buf : List Byte} (hn : n = (s.len.toNat + 15) / 16)
    (hr : s.addr.toNat + s.len.toNat ≤ dmemBytes Config.params)
    (hread : s.mem.readBytes s.addr.toNat s.len.toNat = some buf) :
    ∃ u, ksteps n s = some u ∧ u.len.toNat = 0 ∧ u.addr.toNat = s.addr.toNat + s.len.toNat ∧
      u.prevBytes = (chainChunks Config.params s.activeKey n buf s.prevBytes).2 ∧
      u.mem = s.mem.writeBytes s.addr.toNat (chainChunks Config.params s.activeKey n buf s.prevBytes).1 := by
  induction n generalizing s buf with
  | zero => exact ⟨s, rfl, by omega, by omega, rfl, rfl⟩
  | succ n ih =>
    have hm : chunkLength s = min 16 s.len.toNat := rfl
    have hchunk : s.mem.readBytes s.addr.toNat (chunkLength s) = some (buf.take 16) := Memory.readBytes_take hread 16
    have hrange : s.addr.toNat + chunkLength s ≤ dmemBytes Config.params := by omega
    have hxor := xorKeystream_length_of_le (chunk := buf.take 16) (enc Config.params s.activeKey s.prevBytes) (by simp)
    rw [Memory.readBytes_length hchunk] at hxor
    have haddr := kstepped_addr_toNat (buf.take 16) hrange
    have hlen := kstepped_len_toNat Config.params s (buf.take 16)
    obtain ⟨u, hu, hulen, huaddr, huprev, humem⟩ :=
      ih (s := (kstepped Config.params s (buf.take 16)).finish 0#4) (by rw [State.finish_len, hlen]; omega)
        (by rw [State.finish_addr, State.finish_len, haddr, hlen]; omega) (kstepped_readBytes_rest hrange hread hxor)
    rw [State.finish_addr, State.finish_len, haddr, hlen] at huaddr
    rw [State.prevBytes_finish, kstepped_prevBytes] at huprev humem
    rw [State.finish_addr, haddr, ← hxor] at humem
    exact ⟨u, (ksteps_succ_of_written n (by omega) hrange hchunk).trans hu, hulen, by omega, huprev,
      humem.trans (Memory.writeBytes_append _ _ _ _).symm⟩

end Sys2Proof.Machine
end

section
/-! KSTEPs against CHAIN (R138). -/

namespace Sys2Proof.Machine

open Sys2Proof.Claims

/-- Settles O58: both are ChainSmall of the buffer from the same seed. -/
theorem kstepsComputeTheChain : Obligations.KstepsComputeTheChain := by
  intro s t hsmall hseed h he
  obtain ⟨s', hbody, rfl⟩ := exec_eq_next_ok .chain s t h he
  obtain ⟨hr, hpath⟩ := (chain_eq_ok_iff Config.params s s').1 hbody
  rw [if_pos (show s.len.toNat ≤ smallLimit from hsmall)] at hpath
  obtain ⟨buf, hread, rfl⟩ := (chainWhole_eq_ok_iff Config.params s s' hr).1 hpath
  obtain ⟨u, hu, hlen, haddr, hprev, hmem⟩ := ksteps_eq_chainChunks rfl ((inRange_iff _ _ _).1 hr) hread
  rw [hseed, ← Memory.readBytes_length hread] at hprev hmem
  exact ⟨u, hu, BitVec.eq_of_toNat_eq hlen, haddr, hprev.trans (groupBytes_groupOfBytes _).symm,
    fun q => congrArg (Memory.read · q) hmem⟩

end Sys2Proof.Machine
end

/-! Proofs about the descrambler: the register operators, rotations and shifts, the sentinel, the loads at the stream
cursor, and the name demask. -/

section
/-! SUPPORT. The outcome of a command that writes one D register, by its body. -/

namespace Sys2Proof.Machine

open Sys2Proof.Claims

section
variable {i : Instr} {s : State} {rd : DReg} {v : DWord}

/-- A body that only writes D[rd] gives the outcome R161 frames. -/
theorem exec_writeD {n : Nat} (hbody : commandBody i s = .ok (s.writeD rd v)) (hv : v.toNat = n) :
    ∃ t, exec i s = .next t ∧ OnlyD rd s t ∧ (t.readD rd).toNat = n := by
  obtain ⟨t, ht, hframe, hrd⟩ := complete_writeD s rd v
  exact ⟨t, by rw [exec_eq_complete, hbody, ht], hframe, by rw [hrd, hv]⟩

/-- A rotation below its width writes D[rd] (R168, R169, R184, R185). -/
theorem exec_rotateInto {width n : Nat} {imm : Imm6} (hbody : commandBody i s = rotateInto width rd imm v s)
    (h : imm.toNat < width) (hv : v.toNat = n) :
    ∃ t, exec i s = .next t ∧ OnlyD rd s t ∧ (t.readD rd).toNat = n :=
  exec_writeD (hbody.trans ((rotateInto_eq_ok_iff width rd imm v s _).2 ⟨by simpa [Imm6.below] using h, rfl⟩)) hv

/-- A rotation at or past its width is reserved (R77, log entry 15). -/
theorem exec_rotateInto_reserved {width : Nat} {imm : Imm6} (hbody : commandBody i s = rotateInto width rd imm v s)
    (h : width ≤ imm.toNat) : ∃ t, exec i s = .next t ∧ OnlyError 2 s t := by
  rw [exec_eq_complete, hbody]
  exact complete_rotateInto_reserved s width rd imm v h

end

/-! ### Rotations (R7) -/

theorem rotl_toNat_eq_rotlNat (x : BitVec w) (r : Nat) : (rotl x r).toNat = rotlNat w x.toNat r := rotl_toNat x r

theorem rotr_toNat_eq_rotrNat (x : BitVec w) (r : Nat) : (rotr x r).toNat = rotrNat w x.toNat r := rotr_toNat x r

/-- Bit `j` goes up by `r` and comes down again, or wraps below `r` and wraps back. -/
theorem rotr_rotl (x : BitVec w) {r : Nat} (h : r ≤ w) : rotr (rotl x r) r = x := by
  refine BitVec.eq_of_getLsbD_eq fun j hj => ?_
  rw [rotr_getLsbD _ r j h hj]
  split
  · rw [rotl_getLsbD x r (r + j) h (by omega), if_neg (by omega), Nat.add_sub_cancel_left]
  · rw [rotl_getLsbD x r _ h (by omega), if_pos (by omega), Nat.add_sub_cancel' (by omega)]

/-- Bit `j` goes down by `r` and comes up again, or wraps to the top and wraps back. -/
theorem rotl_rotr (x : BitVec w) {r : Nat} (h : r ≤ w) : rotl (rotr x r) r = x := by
  refine BitVec.eq_of_getLsbD_eq fun j hj => ?_
  rw [rotl_getLsbD _ r j h hj]
  split
  · rw [rotr_getLsbD x r _ h (by omega), if_neg (by omega), Nat.add_sub_cancel_left]
  · rw [rotr_getLsbD x r _ h (by omega), if_pos (by omega), Nat.add_sub_cancel' (by omega)]

/-- A rotation of a part of a register, zero-extended (R168, R169, R184, R185). -/
theorem zext64_rotate_toNat {x : BitVec w} {n : Nat} (hw : w ≤ 64) (hx : x.toNat = n) (r : Nat) :
    (zext64 (rotl x r)).toNat = rotlNat w n r ∧ (zext64 (rotr x r)).toNat = rotrNat w n r := by
  rw [zext64_toNat _ hw, zext64_toNat _ hw, rotl_toNat_eq_rotlNat, rotr_toNat_eq_rotrNat, hx]
  exact ⟨rfl, rfl⟩

end Sys2Proof.Machine
end

section
/-! The operators on D registers (R164 to R171, R180 to R185). -/

namespace Sys2Proof.Machine

/-- Settles O30: the operators of BitVec are those of the naturals. -/
theorem logicalOperatorsResult : Obligations.LogicalOperatorsResult := fun _ _ _ _ =>
  ⟨exec_writeD rfl (BitVec.toNat_xor _ _), exec_writeD rfl (BitVec.toNat_and _ _),
    exec_writeD rfl (BitVec.toNat_or _ _)⟩

/-- Settles O31: an append is the upper part times a power of two, and the parts are digits of the register. -/
theorem concatenationAndFoldResult : Obligations.ConcatenationAndFoldResult := fun _ _ _ _ =>
  ⟨exec_writeD rfl (by rw [zext64_toNat _ (by decide), append_toNat, low16_toNat, low16_toNat]),
    exec_writeD rfl (by rw [append_toNat, low32_toNat, low32_toNat]),
    exec_writeD rfl (by rw [zext64_toNat _ (by decide), BitVec.toNat_xor, high16_toNat, low16_toNat])⟩

/-- Settles O32, by the side of 32 the distance lies on. -/
theorem rotate32Result : Obligations.Rotate32Result := by
  intro s rd a r
  obtain ⟨hleft, hright⟩ := zext64_rotate_toNat (by decide) (low32_toNat (s.readD a)) r.toNat
  exact ⟨fun hlt => ⟨exec_rotateInto rfl hlt hleft, exec_rotateInto rfl hlt hright⟩,
    fun hge => ⟨exec_rotateInto_reserved rfl hge, exec_rotateInto_reserved rfl hge⟩⟩

/-- Settles O33, by the side of 16 the distance lies on. -/
theorem rotate16Result : Obligations.Rotate16Result := by
  intro s rd a r
  obtain ⟨hleft, hright⟩ := zext64_rotate_toNat (by decide) (low16_toNat (s.readD a)) r.toNat
  exact ⟨fun hlt => ⟨exec_rotateInto rfl hlt hleft, exec_rotateInto rfl hlt hright⟩,
    fun hge => ⟨exec_rotateInto_reserved rfl hge, exec_rotateInto_reserved rfl hge⟩⟩

/-- Settles O34: every distance of six bits is below 64, so there is no reserved case. -/
theorem rotate64Result : Obligations.Rotate64Result := fun _ _ _ _ =>
  ⟨exec_writeD rfl (rotl_toNat_eq_rotlNat _ _), exec_writeD rfl (rotr_toNat_eq_rotrNat _ _)⟩

/-- Settles O35: a logical shift is a multiplication modulo 2^64 or a division. -/
theorem shift64Result : Obligations.Shift64Result := fun _ _ _ _ =>
  ⟨exec_writeD rfl (by rw [BitVec.toNat_shiftLeft, Nat.shiftLeft_eq]),
    exec_writeD rfl (by rw [BitVec.toNat_ushiftRight, Nat.shiftRight_eq_div_pow])⟩

/-- Settles O37: the rotations are inverse at every width. -/
theorem rotationsAreInverse : Obligations.RotationsAreInverse :=
  ⟨fun x _ h => ⟨rotr_rotl x h.le, rotl_rotr x h.le⟩, fun x _ h => ⟨rotr_rotl x h.le, rotl_rotr x h.le⟩,
    fun x _ h => ⟨rotr_rotl x h.le, rotl_rotr x h.le⟩⟩

end Sys2Proof.Machine
end

section
/-! The sentinel (R172). -/

namespace Sys2Proof.Machine

open Sys2Proof.Claims

/-- `c3` is masked to 32 bits (R172). -/
theorem sentinelNat_lt (a k1 k2 : Nat) : sentinelNat a k1 k2 < 2 ^ 32 :=
  Nat.and_lt_two_pow _ (by decide)

/-- Settles O38: D[RD] and VALID are written from the registers as they were. -/
theorem sentinelResult : Obligations.SentinelResult := by
  intro s rd a b k
  have hbody : commandBody (.sent rd a b k) s = .ok _ := rfl
  refine ⟨_, (exec_eq_next_iff _ s _).2 (.inl ⟨_, hbody, rfl⟩), (commandBody_writes hbody).sameFixed.finish _,
    completed_finish s _ 0 rfl, fun r hr => s.readD_writeD_other rd r _ hr, SameMem.refl s, rfl, rfl, rfl, ?_, ?_⟩
  · rw [State.finish_readD, State.setValid_readD, State.readD_writeD_same, zext64_toNat _ (by decide), sentinel_toNat,
      low32_toNat, low32_toNat, high32_toNat]
  · simp only [State.finish_status, Status.completed_valid, State.setValid_status, low32_beq_sentinel,
      decide_eq_true_iff]

/-- Settles O39: `c3` does not depend on D[RS2] where it is neither D[RS1] nor D[RS3], and VALID compares with it. -/
theorem sentinelAcceptsOneWord : Obligations.SentinelAcceptsOneWord := by
  refine fun s rd a b k ha hk => ⟨sentinelNat ((s.readD a).toNat % 2 ^ 32) ((s.readD k).toNat % 2 ^ 32)
    ((s.readD k).toNat / 2 ^ 32), sentinelNat_lt _ _ _, fun v => ?_⟩
  obtain ⟨u, hexec, -, -, -, -, -, -, -, -, hvalid⟩ := sentinelResult (s.writeD b v) rd a b k
  rw [State.readD_writeD_same, State.readD_writeD_other s b a v ha.symm, State.readD_writeD_other s b k v hk.symm]
    at hvalid
  exact ⟨u, hexec, hvalid⟩

end Sys2Proof.Machine
end

section
/-! SUPPORT. The cursor's advance, and the loads at the cursor by their two ways to stop. -/

namespace Sys2Proof.Machine

/-- ADDR cannot wrap past a range inside DMEM (R38, D44). -/
theorem advance_addr_toNat {p : Params} {s : State} {n : Nat} (h : s.addr.toNat + n ≤ dmemBytes p) :
    (s.advance n).addr.toNat = s.addr.toNat + n := by
  have hdmem := (dmemBytes_bounds p).2.1
  rw [State.advance_addr, BitVec.toNat_add, BitVec.toNat_ofNat]
  omega

section
variable {p : Params} {s : State} {n : Nat} (rd : DReg)

theorem loadStream_of_outside (h : dmemBytes p < s.addr.toNat + n) : loadStream p n rd s = .error (.error .range) := by
  simp [loadStream, (inRange_eq_false_iff _ _ _).2 h]

theorem loadStream_of_unwritten (hr : s.addr.toNat + n ≤ dmemBytes p)
    (h : ∃ k, k < n ∧ s.mem.read (s.addr.toNat + k) = none) :
    loadStream p n rd s = .error (.fault .unwrittenRead) := by
  have hr := (inRange_iff _ _ _).2 hr
  simp [loadStream, hr, memRead_of_none hr ((s.mem.readBytes_eq_none_iff _ _).2 h)]

end

/-- A load of written bytes in range: their big-endian value to D[rd], and the cursor past them (R162, R163). -/
theorem exec_load {i : Instr} {s : State} {rd : DReg} {bytes : List Byte} {v : Nat}
    (hload : commandBody i s = loadStream Config.params bytes.length rd s)
    (hr : s.addr.toNat + bytes.length ≤ dmemBytes Config.params)
    (hread : ∀ k (hk : k < bytes.length), s.mem.read (s.addr.toNat + k) = some bytes[k])
    (hlen : bytes.length ≤ 8) (hv : beValue bytes = v) :
    ∃ t, exec i s = .next t ∧ SameFixed s t ∧ Completed 0 s t ∧ t.status.valid = s.status.valid ∧
      SameDExcept rd s t ∧ SameMem s t ∧ t.len = s.len ∧ t.prev = s.prev ∧
      t.addr.toNat = s.addr.toNat + bytes.length ∧ (t.readD rd).toNat = v := by
  have hbody := hload.trans ((loadStream_eq_ok_iff _ _ _ _ _).2
    ⟨(inRange_iff _ _ _).2 hr, bytes, (s.mem.readBytes_eq_some_iff _ _ _).2 ⟨rfl, hread⟩, rfl⟩)
  have hvalue : beValue bytes < 2 ^ 64 := (beValue_lt bytes).trans_le (Nat.pow_le_pow_right (by decide) hlen)
  refine ⟨_, (exec_eq_next_iff i s _).2 (.inl ⟨_, hbody, rfl⟩), (commandBody_writes hbody).sameFixed.finish _,
    completed_finish s _ 0 rfl, rfl, fun r hne => s.readD_writeD_other rd r _ hne, SameMem.refl s, rfl, rfl,
    advance_addr_toNat hr, ?_⟩
  rw [State.finish_readD, State.advance_readD, State.readD_writeD_same, BitVec.toNat_ofNat, Nat.mod_eq_of_lt hvalue, hv]

end Sys2Proof.Machine
end

section
/-! DLD16 and DLD32 (R162, R163). -/

namespace Sys2Proof.Machine

/-- Settles O40: both loads are one, of two and of four bytes. -/
theorem streamLoadsResult : Obligations.StreamLoadsResult := by
  refine fun s rd => ⟨fun b0 b1 hr h0 h1 => ?_, fun b0 b1 b2 b3 hr h0 h1 h2 h3 => ?_⟩
  · refine exec_load (i := .dld16 rd) (bytes := [b0, b1]) rfl hr (fun k hk => ?_) (by simp) ?_
    · match k, hk with
      | 0, _ => exact h0
      | 1, _ => exact h1
    · simp only [beValue, List.length_cons, List.length_nil]
      omega
  · refine exec_load (i := .dld32 rd) (bytes := [b0, b1, b2, b3]) rfl hr (fun k hk => ?_) (by simp) ?_
    · match k, hk with
      | 0, _ => exact h0
      | 1, _ => exact h1
      | 2, _ => exact h2
      | 3, _ => exact h3
    · simp only [beValue, List.length_cons, List.length_nil]
      omega

/-- Settles O41: the range check comes before the read. -/
theorem streamLoadsStop : Obligations.StreamLoadsStop := by
  intro s rd n i hi
  have hload : commandBody i s = loadStream Config.params n rd s := by
    rcases hi with ⟨rfl, rfl⟩ | ⟨rfl, rfl⟩ <;> rfl
  exact ⟨fun hout => exec_onlyError (hload.trans (loadStream_of_outside rd hout)),
    fun hr hnone => (exec_eq_fault_iff i s _).2 (hload.trans (loadStream_of_unwritten rd hr hnone))⟩

end Sys2Proof.Machine
end

section
/-! SUPPORT. The scan of a name by what ends it, and DMASK by the scan's outcome (R173). -/

namespace Sys2Proof.Machine

open Sys2Proof.Claims

theorem isTerminator_iff_terminates (p : Params) (mask raw : Byte) :
    isTerminator p.nameNulTest raw (raw ^^^ mask) = true ↔ terminates p mask raw := by
  unfold isTerminator terminates
  cases p.nameNulTest <;> exact beq_iff_eq

theorem isTerminator_of_not_terminates {p : Params} {mask raw : Byte} (h : ¬ terminates p mask raw) :
    isTerminator p.nameNulTest raw (raw ^^^ mask) = false :=
  Bool.eq_false_iff.2 (mt (isTerminator_iff_terminates p mask raw).1 h)

/-! ### The scan -/

/-- What ends the scan of `raw` at `a`: the cap of `left` bytes, or a terminator, which is consumed too (R173). -/
def NameEnds (p : Params) (m : Memory) (mask : Byte) (left a : Nat) (raw : List Byte) (consumed : Nat) : Prop :=
  (raw.length = left ∧ consumed = left) ∨
    (raw.length < left ∧ consumed = raw.length + 1 ∧ ∃ z, m.read (a + raw.length) = some z ∧ terminates p mask z)

section
variable {p : Params} {m : Memory} {mask : Byte} {left a consumed : Nat} {raw : List Byte}
  (hread : ∀ k (hk : k < raw.length), m.read (a + k) = some raw[k])
  (hname : ∀ b ∈ raw, ¬ terminates p mask b)

include hread hname

/-- A name inside DMEM is demasked up to its end. -/
theorem scanName_of_nameEnds (hend : NameEnds p m mask left a raw consumed) (hr : a + consumed ≤ dmemBytes p) :
    scanName p m mask left a = .ok (raw.map (· ^^^ mask), consumed) := by
  have happend (hle : raw.length ≤ left) (hrange : a + raw.length ≤ dmemBytes p) :=
    scanName_append p m mask raw left a hle hrange hread fun b hb => isTerminator_of_not_terminates (hname b hb)
  rcases hend with ⟨rfl, rfl⟩ | ⟨hlt, rfl, z, hz, hterm⟩
  · rw [happend le_rfl hr, Nat.sub_self]
    simp [scanName, Except.map, pure, Except.pure]
  · obtain ⟨l, hl⟩ := Nat.exists_eq_add_of_lt hlt
    have hin : inRange p (a + raw.length) 1 = true := (inRange_iff _ _ _).2 hr
    rw [happend hlt.le (by omega), show left - raw.length = l + 1 by omega]
    simp [scanName, hin, hz, (isTerminator_iff_terminates p mask z).2 hterm, Except.map, pure, Except.pure,
      Nat.add_comm 1]

/-- An unwritten byte in range that the scan comes to is the model fault (R52, R173). -/
theorem scanName_of_unwritten (hlt : raw.length < left) (hr : a + raw.length < dmemBytes p)
    (hnone : m.read (a + raw.length) = none) : scanName p m mask left a = .error (.fault .unwrittenRead) := by
  obtain ⟨l, hl⟩ := Nat.exists_eq_add_of_lt hlt
  have hin : inRange p (a + raw.length) 1 = true := (inRange_iff _ _ _).2 hr
  rw [scanName_append p m mask raw left a hlt.le hr.le hread fun b hb => isTerminator_of_not_terminates (hname b hb),
    show left - raw.length = l + 1 by omega]
  simp [scanName, hin, hnone, Except.map]

/-- The scan leaves DMEM before its end: E_RANGE (R173). -/
theorem scanName_of_outside (hlt : raw.length < left) (hr : dmemBytes p ≤ a + raw.length) :
    scanName p m mask left a = .error (.error .range) :=
  scanName_outside p m mask raw left a hlt hr hread fun b hb => isTerminator_of_not_terminates (hname b hb)

/-- A full count of bytes without a terminator that does not fit in DMEM: its last byte is outside already (R173). -/
theorem scanName_of_cap_outside (hpos : 0 < left) (hlen : raw.length = left) (hr : dmemBytes p < a + left) :
    scanName p m mask left a = .error (.error .range) := by
  have hdrop : raw.dropLast.length = left - 1 := by rw [List.length_dropLast, hlen]
  refine scanName_of_outside (raw := raw.dropLast) (fun k hk => ?_)
    (fun b hb => hname b (List.mem_of_mem_dropLast hb)) (by omega) (by omega)
  rw [List.getElem_dropLast]
  exact hread k (by omega)

end

/-! ### The command -/

section
variable {p : Params} {s : State} {rd rs1 : DReg}

section
variable {name : List Byte} {consumed : Nat}
  (hscan : scanName p s.mem ((s.readD rs1).setWidth 8) nameCap s.addr.toNat = .ok (name, consumed))

include hscan

/-- A name that fits at DST is written there, with its result in D[rd] and the cursor past it. -/
theorem demaskName_of_scan (hdst : s.dst.toNat + name.length ≤ dmemBytes p) :
    demaskName p rd rs1 s = .ok (((s.setMem (s.mem.writeBytes s.dst.toNat name)).writeD rd
      (nameResult consumed name.length)).advance consumed) :=
  (demaskName_eq_ok_iff p rd rs1 s _).2
    ⟨(name, consumed), by rw [low8_eq_setWidth, hscan], (inRange_iff _ _ _).2 hdst, rfl⟩

/-- A name that does not fit at DST raises E_RANGE. -/
theorem demaskName_of_dst_outside (hdst : dmemBytes p < s.dst.toNat + name.length) :
    demaskName p rd rs1 s = .error (.error .range) := by
  simp [demaskName, low8_eq_setWidth, hscan, (inRange_eq_false_iff _ _ _).2 hdst]

end

/-- A scan that stops ends the command before anything is written. -/
theorem demaskName_of_scan_stop {e : Stop}
    (hscan : scanName p s.mem ((s.readD rs1).setWidth 8) nameCap s.addr.toNat = .error e) :
    demaskName p rd rs1 s = .error e := by
  simp [demaskName, low8_eq_setWidth, hscan]

end

/-- The packed result of DMASK on naturals (R173). -/
theorem nameResult_toNat {consumed len : Nat} (hc : consumed < 2 ^ 32) (hl : len < 2 ^ 32) :
    (nameResult consumed len).toNat = consumed * 2 ^ 32 + len := by
  rw [nameResult, append_toNat, BitVec.toNat_ofNat, BitVec.toNat_ofNat, Nat.mod_eq_of_lt hc, Nat.mod_eq_of_lt hl]

end Sys2Proof.Machine
end

section
/-! DMASK (R173). -/

namespace Sys2Proof.Machine

open Sys2Proof.Claims

/-- Settles O42: the scan answers the demasked name and what it consumed, at most 65 bytes, so no field wraps. -/
theorem nameDemaskResult : Obligations.NameDemaskResult := by
  intro s rd m raw consumed hread hname hend hr hdst
  have hlen : (raw.map (· ^^^ (s.readD m).setWidth 8)).length = raw.length := List.length_map _
  have hbody : commandBody (.dmask rd m) s = .ok _ :=
    demaskName_of_scan (scanName_of_nameEnds hread hname hend hr) (hlen.symm ▸ hdst)
  have hconsumed : consumed ≤ 65 ∧ raw.length ≤ 64 := by omega
  refine ⟨_, (exec_eq_next_iff _ s _).2 (.inl ⟨_, hbody, rfl⟩), (commandBody_writes hbody).sameFixed.finish _,
    completed_finish s _ 0 rfl, rfl, fun r hne => State.readD_writeD_other _ rd r _ hne, rfl, rfl,
    advance_addr_toNat hr, ?_, fun k hk => ?_, fun q hq => ?_⟩
  · rw [State.finish_readD, State.advance_readD, State.readD_writeD_same, hlen, nameResult_toNat (by omega) (by omega)]
  · have hbyte := s.mem.read_writeBytes_at s.dst.toNat _ k (hlen.symm ▸ hk)
    rwa [List.getElem_map] at hbyte
  · exact s.mem.read_writeBytes_other s.dst.toNat _ q (hlen.symm ▸ hq)

/-- Settles O43: the scan stops before the destination is looked at. -/
theorem nameDemaskStops : Obligations.NameDemaskStops := by
  intro s rd m raw hread hname
  refine ⟨fun hlt hr => ?_, fun hlt hr hnone => ?_, fun hend hdst => ?_⟩
  · exact exec_onlyError (i := .dmask rd m) (demaskName_of_scan_stop (scanName_of_outside hread hname hlt hr))
  · exact (exec_eq_fault_iff (.dmask rd m) s _).2
      (demaskName_of_scan_stop (scanName_of_unwritten hread hname hlt hr hnone))
  · have hfits {consumed : Nat} (hends : NameEnds Config.params s.mem ((s.readD m).setWidth 8) nameCap s.addr.toNat raw
        consumed) (hr : s.addr.toNat + consumed ≤ dmemBytes Config.params) :
        ∃ t, exec (.dmask rd m) s = .next t ∧ OnlyError 3 s t :=
      exec_onlyError (i := .dmask rd m) (demaskName_of_dst_outside (scanName_of_nameEnds hread hname hends hr)
        ((List.length_map _).symm ▸ hdst))
    rcases hend with hcap | ⟨hlt, hr, hterm⟩
    · by_cases hr : s.addr.toNat + nameCap ≤ dmemBytes Config.params
      · exact hfits (.inl ⟨hcap, rfl⟩) hr
      · exact exec_onlyError (i := .dmask rd m) (demaskName_of_scan_stop
          (scanName_of_cap_outside hread hname (by decide) hcap (not_le.1 hr)))
    · exact hfits (.inr ⟨hlt, rfl, hterm⟩) hr

end Sys2Proof.Machine
end

/-! Proofs about control: the idle block, command issue, the engine's step, NOP, and the completion of a pending
command. -/

section
/-! SUPPORT. One step of the engine, and the host's accesses that find a command pending. -/

namespace Sys2Proof.Machine

/-! ### The engine's step -/

theorem step_of_engineTurn {s : State} (hb : s.status.busy = true) (hw : s.wait = 0 ∨ s.host = []) :
    step s = engineStep s :=
  if_pos ((engineTurn_iff s).2 ⟨hb, hw⟩)

/-- A word that decodes to a command has the command's meaning (R201). -/
theorem engineStep_of_cmd {s : State} {i : Instr} (h : decode s.cmd = .cmd i) : engineStep s = exec i s := by
  rw [engineStep, h, execute]

/-- What R201 lets a pending command come to: it has completed, or it met the model fault (R230). -/
def CompletedOrFaulted (r : Result) : Prop :=
  (∃ t, r = .next t ∧ t.status.busy = false ∧ t.status.done = true) ∨ r = .fault .unwrittenRead

/-- The one completion ends every command (R201, R222). -/
theorem complete_completedOrFaulted (s : State) (r : Except Stop State) : CompletedOrFaulted (complete s r) := by
  rcases r with (c | ⟨⟩) | s'
  · exact .inl ⟨_, complete_error s c, rfl, rfl⟩
  · exact .inr rfl
  · exact .inl ⟨_, complete_ok s s', rfl, rfl⟩

theorem engineStep_completedOrFaulted (s : State) : CompletedOrFaulted (engineStep s) := by
  rw [engineStep_eq_complete]
  exact complete_completedOrFaulted s _

/-! ### The host's accesses while a command is pending -/

/-- The command of `s` is still pending in `t`, and the host is where it was (R63, log entry 2). -/
structure StillPending (s t : State) : Prop where
  busy : t.status.busy = true
  host : t.host = s.host
  wait : t.wait = s.wait

/-- The registers R34 does not guard are ID, STATUS and the reserved ones: no write to them ends the pending command. -/
theorem writeReg_stillPending {s : State} (hb : s.status.busy = true) {r : HostReg} (hr : r.guarded = false) (v : Word) :
    StillPending s (s.writeReg r v) := by
  cases r with
  | id | status | reserved => exact ⟨hb, rfl, rfl⟩
  | _ => cases hr

section
variable {s : State} (hb : s.status.busy = true) (w : Width) (a : Nat)
include hb

/-- A read while BUSY = 1 always answers, an unspecified value of DMEM included (R63, log entry 6). -/
theorem busRead_stillPending : ∃ t, busRead w a s = .next t ∧ StillPending s t := by
  cases htarget : target Config.params w a with
  | busError => exact ⟨_, busRead_busError htarget, hb, rfl, rfl⟩
  | dmem o => exact ⟨_, busRead_unspecified hb (.inl ⟨o, htarget⟩), hb, rfl, rfl⟩
  | reg r =>
    cases hexact : r.exactWhileBusy with
    | true => exact ⟨_, busRead_reg htarget (.inr hexact), hb, rfl, rfl⟩
    | false => exact ⟨_, busRead_unspecified hb (.inr ⟨r, htarget, hexact⟩), hb, rfl, rfl⟩

/-- A write while BUSY = 1 is a bus error, ignored, or performed on an unguarded register (R34, R63). -/
theorem busWrite_stillPending (v : Nat) : ∃ t, busWrite w a v s = .next t ∧ StillPending s t := by
  cases htarget : target Config.params w a with
  | busError => exact ⟨_, busWrite_busError htarget, hb, rfl, rfl⟩
  | dmem o => exact ⟨_, busWrite_ignored hb (.inl ⟨o, htarget⟩), hb, rfl, rfl⟩
  | reg r =>
    cases hguarded : r.guarded with
    | true => exact ⟨_, busWrite_ignored hb (.inr ⟨r, htarget, hguarded⟩), hb, rfl, rfl⟩
    | false =>
      obtain ⟨hbusy, hhost, hwait⟩ := writeReg_stillPending hb hguarded (BitVec.ofNat 32 v)
      exact ⟨_, busWrite_reg htarget (.inr hguarded), hbusy, hhost, hwait⟩

end

theorem hostEvent_stillPending {s : State} (hb : s.status.busy = true) {e : HostEvent} (he : e ≠ .reset) :
    ∃ t, hostEvent e s = .next t ∧ StillPending s t := by
  cases e with
  | read w a => exact busRead_stillPending hb w _
  | write8 a v | write16 a v | write32 a v => exact busWrite_stillPending hb _ _ _
  | reset => exact absurd rfl he

/-- A host turn before the completion uses up one of the turns the host has and one of its events (log entry 2). -/
theorem step_of_hostWaits {s : State} {e : HostEvent} {rest : List HostEvent} {n : Nat} (hb : s.status.busy = true)
    (hwait : s.wait = n + 1) (hhost : s.host = e :: rest) (he : e ≠ .reset) :
    ∃ t, step s = .next t ∧ t.status.busy = true ∧ t.host = rest ∧ t.wait = n := by
  obtain ⟨t, ht, hbusy, hrest, hn⟩ := hostEvent_stillPending (s := s.tookEvent rest) hb he
  refine ⟨t, (step_of_hostMoves ⟨hhost, .inr (by omega)⟩).trans ht, hbusy, hrest, hn.trans ?_⟩
  rw [State.tookEvent, hwait, Nat.add_sub_cancel]

/-! ### Runs -/

theorem run_succ_of_step {s t : State} (h : step s = .next t) (k : Nat) :
    Host.Core.run Sys2Proof.core (k + 1) s = Host.Core.run Sys2Proof.core k t := by
  have hstep : Sys2Proof.core.step s = .next t := h
  simp only [Host.Core.run, hstep]

theorem run_one (s : State) : Host.Core.run Sys2Proof.core 1 s = step s := by
  have hstep : Sys2Proof.core.step s = step s := rfl
  simp only [Host.Core.run, hstep]
  cases step s <;> rfl

/-- At the engine's turn one step is enough (R201). -/
theorem run_one_completedOrFaulted {s : State} (hb : s.status.busy = true) (hw : s.wait = 0 ∨ s.host = []) :
    CompletedOrFaulted (Host.Core.run Sys2Proof.core 1 s) := by
  rw [run_one, step_of_engineTurn hb hw]
  exact engineStep_completedOrFaulted s

/-- The engine's turn comes after at most `wait` turns of the host, by induction on `wait` (R201, log entry 2). -/
theorem exists_run_completedOrFaulted (n : Nat) {s : State} (hb : s.status.busy = true) (hwait : s.wait = n)
    (hreset : HostEvent.reset ∉ s.host) :
    ∃ k, k ≤ n + 1 ∧ CompletedOrFaulted (Host.Core.run Sys2Proof.core k s) := by
  induction n generalizing s with
  | zero => exact ⟨1, le_rfl, run_one_completedOrFaulted hb (.inl hwait)⟩
  | succ n ih =>
    cases hhost : s.host with
    | nil => exact ⟨1, by omega, run_one_completedOrFaulted hb (.inr hhost)⟩
    | cons e rest =>
      rw [hhost, List.mem_cons, not_or] at hreset
      obtain ⟨hevent, hrest⟩ := hreset
      obtain ⟨t, ht, hbusy, rfl, hn⟩ := step_of_hostWaits hb hwait hhost (Ne.symm hevent)
      obtain ⟨k, hk, hrun⟩ := ih hbusy hn hrest
      exact ⟨k + 1, by omega, (run_succ_of_step ht k).symm ▸ hrun⟩

end Sys2Proof.Machine
end

section
/-! Control (R200 to R202). -/

namespace Sys2Proof.Machine

/-- Settles O9: the host's turns leave the command pending, and the engine's step completes it or meets the fault. -/
theorem pendingCommandCompletes : Obligations.PendingCommandCompletes := fun _ hb hreset =>
  exists_run_completedOrFaulted _ hb rfl hreset

/-- Settles O6: the engine's step by what the pending word decodes to. -/
theorem stepRunsThePendingCommand : Obligations.StepRunsThePendingCommand := by
  intro s hb hw
  rw [step_of_engineTurn hb hw]
  exact ⟨fun i => engineStep_of_cmd, fun h => ⟨_, engineStep_of_illegal h, onlyError_finish s 1⟩,
    fun h => ⟨_, engineStep_of_reserved h, onlyError_finish s 2⟩⟩

/-- Settles O7: the turn is the host's, which has no event left. -/
theorem idleWithoutCommandOrEvent : Obligations.IdleWithoutCommandOrEvent := by
  intro s hb hhost
  have hturn : engineTurn s = false := by rw [engineTurn, hb, Bool.false_and]
  simp [step, hturn, hostTurn, hhost]

/-- Settles O8: the write reaches CMD, so it is an issue, which writes CMD and STATUS only. -/
theorem cmdWriteIssuesTheCommand : Obligations.CmdWriteIssuesTheCommand := by
  intro s w rest hb hhost
  exact ⟨_, step_writeReg ⟨hhost, .inl hb⟩ (target_cmd rfl) (.inl hb), rfl, rfl, rfl, rfl, rfl, rfl, rfl, rfl, rfl, rfl,
    rfl, rfl, rfl, rfl, SameMem.refl s, rfl, rfl⟩

/-- Settles O29: a completion with code 0 of the state as it is. -/
theorem nopOnlyCompletes : Obligations.NopOnlyCompletes := fun s => ⟨_, complete_ok s s, onlyError_finish s 0⟩

end Sys2Proof.Machine
end

/-! Proofs about exceptions: the host's faults and bus errors, IRQ at a completion, and the errors of commands. -/

section
/-! SUPPORT. The host's accesses that fail, and what a completion and an error say of a command's pseudocode. -/

namespace Sys2Proof.Machine

open Sys2Proof.Claims

/-! ### The host's accesses that fail -/

/-- The three kinds of access R231 lists reach nothing. -/
theorem target_badAccess {w : Width} {a : Nat} (h : badAccess w a) :
    target Config.params w a = .busError := by
  rcases h with ⟨hlow, hbad⟩ | ⟨hlow, hhigh⟩ | ⟨hlow, hbad⟩
  · exact target_reg_busError _ w a hlow hbad
  · exact target_gap_busError _ w a hlow hhigh
  · exact target_window_busError _ w a hlow (by simpa only [dmemBase] using hbad)

/-- A read or a write that reaches nothing is only answered, whatever BUSY is (R231, log entry 13). -/
theorem step_busError {s : State} {w : Width} {a v : Word} {rest : List HostEvent}
    (hm : hostMoves s (.read w a) rest ∨ hostMoves s (writeEvent w a v) rest)
    (ht : target Config.params w a.toNat = .busError) :
    step s = .next ((s.tookEvent rest).respond .busError) := by
  rcases hm with hread | hwrite
  · rw [step_of_hostMoves hread, hostEvent, busRead_busError ht]
  · rw [step_of_hostMoves hwrite, hostEvent_writeEvent, busWrite_busError ht]

/-! ### IRQ and BERR -/

/-- A completion sets DONE, so IRQ is IE (R225). -/
@[simp] theorem State.finish_irq (s : State) (c : BitVec 4) : (s.finish c).irq = s.ctrl.ie := by
  simp [State.irq]

/-- No command writes BERR (R34). -/
theorem CommandWrites.berr_eq {i : Instr} {s s' : State} (h : CommandWrites s i s') :
    s'.status.berr = s.status.berr := by
  cases h <;> rfl

/-! ### Errors -/

/-- A rotation writes its register, or its distance is at or past the width and reserved (R77). -/
theorem rotateInto_ok_or_reserved (width : Nat) (rd : DReg) (imm : Imm6) (v : DWord) (s : State) :
    (∃ s', rotateInto width rd imm v s = .ok s') ∨
      Imm6.below imm width = false ∧ rotateInto width rd imm v s = .error (.error .reserved) := by
  unfold rotateInto
  cases Imm6.below imm width with
  | true => exact .inl ⟨_, rfl⟩
  | false => exact .inr ⟨rfl, rfl⟩

/-- A register-only command succeeds, or is a rotation past its width, which no word decodes to (R77, R224). -/
theorem commandBody_of_registerOnly {i : Instr} (hreg : registerOnly i = true) (s : State) :
    (∃ s', commandBody i s = .ok s') ∨
      i.wellFormed = false ∧ commandBody i s = .error (.error .reserved) := by
  cases i with
  | encb | kstep | chain | dld16 | dld32 | dmask => cases hreg
  | drotl32 | drotr32 | drotl16 | drotr16 => exact rotateInto_ok_or_reserved _ _ _ _ s
  | _ => exact .inl ⟨_, rfl⟩

/-- A next state with an error code is the state before the command, completed with the error its body raised (R222). -/
theorem exec_eq_next_error {i : Instr} {s t : State} (h : exec i s = .next t) (he : t.status.err ≠ 0#4) :
    ∃ c, commandBody i s = .error (.error c) ∧ t = s.finish c.code := by
  rcases (exec_eq_next_iff i s t).1 h with ⟨s', -, rfl⟩ | herror
  · exact absurd rfl he
  · exact herror

/-- CHAIN's two paths read no flag that a completion writes, nor does the choice between them (R139). -/
theorem chain_finish (p : Params) (s : State) (c : BitVec 4) : chain p (s.finish c) = (·.finish c) <$> chain p s := by
  have hwhole : chainWhole p (s.finish c) = (·.finish c) <$> chainWhole p s := by
    simp only [chainWhole, map_bind, map_pure]; rfl
  have hsampled : chainSampled p (s.finish c) = (·.finish c) <$> chainSampled p s := by
    simp only [chainSampled, map_bind, map_pure]; rfl
  simp only [chain, map_bind, apply_ite (Functor.map (State.finish · c)), hwhole, hsampled]
  rfl

/-- No command reads BUSY, DONE or ERR, the flags a completion writes: its body commutes with a completion (R201). -/
theorem commandBody_finish (i : Instr) (s : State) (c : BitVec 4) :
    commandBody i (s.finish c) = (·.finish c) <$> commandBody i s := by
  cases i with
  | encb => simp only [commandBody, encb, map_bind, map_pure]; rfl
  | kstep => simp only [commandBody, kstep, map_bind, map_pure]; rfl
  | chain => exact chain_finish _ s c
  | dld16 | dld32 => simp only [commandBody, loadStream, map_bind, map_pure]; rfl
  | dmask => simp only [commandBody, demaskName, map_bind, map_pure]; rfl
  | drotl32 | drotr32 | drotl16 | drotr16 => simp only [commandBody, rotateInto, map_bind, map_pure]; rfl
  | _ => rfl

end Sys2Proof.Machine
end

section
/-! Exceptions (R222 to R231). -/

namespace Sys2Proof.Machine

open Sys2Proof.Claims

/-- Settles O16: the access reaches DMEM, whose bytes have no value where one of them is unwritten. -/
theorem hostReadOfUnwrittenByteFaults : Obligations.HostReadOfUnwrittenByteFaults := by
  intro s w a o rest hb ha hh hnone
  rw [step_of_hostMoves ⟨hh, .inl hb⟩]
  exact busRead_unwritten (s := s.tookEvent rest) (target_dmemAccess ha) hb
    ((s.mem.readBytes_eq_none_iff o w.bytes).2 hnone)

/-- Settles O17: the access reaches nothing, so it is only answered. -/
theorem busErrorChangesNothing : Obligations.BusErrorChangesNothing := fun s _ _ _ rest hbad hm =>
  ⟨_, step_busError hm (target_badAccess hbad), sameBlock_respond_tookEvent s rest _, rfl, rfl, rfl⟩

/-- Settles O18: a completion sets DONE, and no command writes CTRL or BERR. -/
theorem completionRaisesIrqWhenEnabled : Obligations.CompletionRaisesIrqWhenEnabled := by
  intro i s t h
  rcases exec_next_cases h with ⟨s', hw, rfl⟩ | ⟨c, rfl⟩
  · exact ⟨(s'.finish_irq _).trans (congrArg Ctrl.ie hw.sameFixed.ctrl), hw.berr_eq⟩
  · exact ⟨s.finish_irq _, rfl⟩

/-- Settles O24: a well-formed register-only body succeeds, and an ill-formed one raises an error, which is no fault. -/
theorem registerCommandsNeverFail : Obligations.RegisterCommandsNeverFail := by
  refine fun i s => ⟨fun hreg hwf => ?_, fun f hf => ⟨?_, by cases f; rfl⟩⟩
  · rcases commandBody_of_registerOnly hreg s with ⟨s', hok⟩ | ⟨hill, -⟩
    · exact ⟨_, (exec_eq_next_iff i s _).2 (.inl ⟨s', hok, rfl⟩), rfl⟩
    · cases hill.symm.trans hwf
  · rw [exec_eq_fault_iff] at hf
    refine Bool.eq_false_iff.2 fun hreg => ?_
    rcases commandBody_of_registerOnly hreg s with ⟨s', hok⟩ | ⟨-, herror⟩
    · simp [hok] at hf
    · simp [herror] at hf

/-- Settles O25: the state after an error is the state before it but for a completion, which no command can see. -/
theorem errorsArePrecise : Obligations.ErrorsArePrecise := by
  intro i s t h he
  obtain ⟨c, hbody, rfl⟩ := exec_eq_next_error h he
  have hagain : commandBody i (s.finish c.code) = .error (.error c) := by
    rw [commandBody_finish, hbody]
    rfl
  exact ⟨onlyError_code s c, _, (exec_eq_next_iff i _ _).2 (.inr ⟨c, hagain, rfl⟩), rfl⟩

end Sys2Proof.Machine
end

/-! Proofs about reset: one step of the host that resets the block, whether or not a command is pending. -/

section
/-! Reset (R250 to R252). -/

namespace Sys2Proof.Machine

open Sys2Proof.Claims

/-- All of STATUS has its reset value, so no command is pending any more (R250, R251). -/
@[simp] theorem resetBlock_status (s : State) : (resetBlock s).status = State.reset.status := rfl

/-- Only the host's events and the counter of the free values outlive a reset (log entry 8). -/
theorem sameBlock_resetBlock (s : State) : SameBlock State.reset (resetBlock s) :=
  ⟨rfl, rfl, rfl, rfl, rfl, rfl, rfl, rfl, rfl, SameMem.refl State.reset⟩

/-- A reset is performed whatever BUSY is (R251). -/
theorem step_resetEvent {s : State} {rest : List HostEvent} (hm : hostMoves s .reset rest) :
    step s = .next (resetBlock (s.tookEvent rest)) :=
  step_of_hostMoves hm

/-- Settles O20: the step resets the block once the event is taken, and nothing of the block outlives a reset. -/
theorem resetEventGivesTheResetState : Obligations.ResetEventGivesTheResetState := fun s rest hm =>
  ⟨resetBlock (s.tookEvent rest), step_resetEvent hm, resetBlock_status _, sameBlock_resetBlock _⟩

end Sys2Proof.Machine
end
